-- ==== Sys2Proof/Word.lean ====
section
/-! DEFINITION. The byte, the engine's only unit of memory and of encoding (10_state.md rule R27). -/

namespace Sys2Proof

/-- One byte of `IN`, `OUT` or of an encoding. -/
abbrev Byte := BitVec 8

end Sys2Proof
end

