-- ==== Sys2Proof/Config.lean ====
section
/-! DEFINITION. What one engine fixes for good: the open parameters of 00_scope.md rule R4, as plain data that
State carries and no step changes (notes/assumptions/3.md), and the free values of notes/assumptions/7.md and 9.md. -/

namespace Sys2Proof

/-- The open parameters of rule R4 of 00_scope.md (92_eei_decisions.md D2, D8, D11). The bus mapping `REG_BASE` is
not here: registers are named, not addressed (10_state.md rule R17). -/
structure Params where
  /-- `SIZE_BITS`, the width of a size value. -/
  sizeBits : Nat
  /-- `POS_BITS`, the width of one hash-table cell. -/
  posBits : Nat
  /-- `LZ4_MFLIMIT`: the LZ4 scan stops when fewer bytes than this remain at the cursor. -/
  lz4MfLimit : Nat
  /-- `LZ4_LASTLITERALS`: how many final input bytes an LZ4 match may not cover. -/
  lz4LastLiterals : Nat
  deriving DecidableEq, Repr

/-- The decided defaults of rule R4. -/
def Params.default : Params :=
  { sizeBits := 64, posBits := 64, lz4MfLimit := 4, lz4LastLiterals := 0 }

/-- Rule R4's constraint on the open values (a narrow `POS_BITS` is met by the length precondition of
70_reset_and_hazards.md rule R206, so it is not excluded here). -/
abbrev Params.Admissible (p : Params) : Prop :=
  (p.sizeBits = 32 ∨ p.sizeBits = 64) ∧ p.lz4LastLiterals + 4 ≤ p.lz4MfLimit

/-- `SIZE_MAX = 2^SIZE_BITS - 1` (rule R4). -/
def Params.sizeMax (p : Params) : Nat := 2 ^ p.sizeBits - 1

/-- A free byte: what `OUT` holds after a reset cut a command short (70_reset_and_hazards.md rule R200,
93_implementation_defined.md U4: "any value"). It has no body: nothing can be proved about its values. The first
argument is the value of the counter `State.free` at the reset, the second the index in `OUT`. -/
opaque Config.freeByte : Nat → Nat → Byte

/-- A free natural: what a working register holds once a command is over (10_state.md rule R11, 60_exceptions.md rule
R187 "left with unspecified contents", 93_implementation_defined.md U2 "any value"). It has no body. The first argument is
the value of the counter `State.free`, the second says which register. -/
opaque Config.freeNat : Nat → Nat → Nat

/-- Free writes to the hash table: what its cells hold once a command has left it with unspecified contents (10_state.md
rule R25, 93_implementation_defined.md U1 "any value"). It has no body. The argument is the value of the counter
`State.free`. -/
opaque Config.freeCells : Nat → List (Nat × Nat)

end Sys2Proof
end

