-- ==== Sys2Proof/Syntax.lean ====
section
/-! DEFINITION. The engine's two layers of instruction: the ten host commands and the twenty stream elements of
spec/opcode_table.json (30_encoding.md rule R75), and the formats that hold them. -/

namespace Sys2Proof

/-- The formats of 30_encoding.md rule R75: which kind of object the bytes at hand are. The position in the stream,
never the byte, says which (rule R50). -/
inductive Format
  | cmd8
  | lz4Tok
  | snVarint
  | snTag
  | magic32
  | flg8
  | bd8
  | csize64
  | hc8
  | bsw
  | cchk32
  deriving DecidableEq, Repr

/-- One constructor per row of spec/opcode_table.json. Literal bytes are operands of the element that carries them
(30_encoding.md rules R51, R69); the bytes of an LZ4 block and of a stored block are not part of the block size word
(rule R63) and stay in `IN`. -/
inductive Instr
  /-- `LZ4B.COMPRESS`, command code 1 (45_commands.md rule R161). -/
  | lz4bCompress
  /-- `LZ4B.DECOMPRESS`, command code 2 (rule R162). -/
  | lz4bDecompress
  /-- `LZ4F.COMPRESS`, command code 3 (rule R163). -/
  | lz4fCompress
  /-- `LZ4F.DECOMPRESS`, command code 4 (rule R164). -/
  | lz4fDecompress
  /-- `SN.COMPRESS`, command code 5 (rule R165). -/
  | snCompress
  /-- `SN.DECOMPRESS`, command code 6 (rule R166). -/
  | snDecompress
  /-- `LZ4B.MAX`, command code 7 (rule R167). -/
  | lz4bMax
  /-- `LZ4F.MAX`, command code 8 (rule R168). -/
  | lz4fMax
  /-- `SN.MAX`, command code 9 (rule R169). -/
  | snMax
  /-- `SN.SIZE`, command code 10 (rule R170). -/
  | snSize
  /-- `LZ4.SEQ` (42_lz4_block.md rule R113): the literals, the match offset, the match length (at least 4). -/
  | lz4Seq (lits : List Byte) (offset : BitVec 16) (mlen : Nat)
  /-- `LZ4.LAST` (rule R114): the ignored `ML` nibble, the literals. -/
  | lz4Last (ml : BitVec 4) (lits : List Byte)
  /-- `SN.LEN` (44_snappy.md rule R145): the declared length and the number of bytes it is written in (non-minimal
  forms are legal, 30_encoding.md rule R67). -/
  | snLen (value : BitVec 32) (nbytes : Nat)
  /-- `SN.LIT` (44_snappy.md rule R146): 1 to 60 literal bytes, the length in the tag. -/
  | snLit (lits : List Byte)
  /-- `SN.LIT1`: tag `F0`, one length byte. -/
  | snLit1 (lits : List Byte)
  /-- `SN.LIT2`: tag `F4`, two length bytes. -/
  | snLit2 (lits : List Byte)
  /-- `SN.LIT3`: tag `F8`, three length bytes. -/
  | snLit3 (lits : List Byte)
  /-- `SN.LIT4`: tag `FC`, four length bytes. -/
  | snLit4 (lits : List Byte)
  /-- `SN.COPY1` (rule R147): `len - 4` and an 11-bit offset. -/
  | snCopy1 (lenM4 : BitVec 3) (offset : BitVec 11)
  /-- `SN.COPY2` (rule R148): `len - 1` and a 16-bit offset. -/
  | snCopy2 (lenM1 : BitVec 6) (offset : BitVec 16)
  /-- `SN.COPY4` (rule R149): `len - 1` and a 32-bit offset. -/
  | snCopy4 (lenM1 : BitVec 6) (offset : BitVec 32)
  /-- `LZ4F.MAGIC` (43_lz4_frame.md rule R123). -/
  | lz4fMagic
  /-- `LZ4F.FLG` (30_encoding.md rule R59): `BIndep`, `CSize`, `CChecksum`. -/
  | lz4fFlg (bIndep cSize cChecksum : Bool)
  /-- `LZ4F.BD` (rule R60): the block-size class minus 4. -/
  | lz4fBd (classM4 : BitVec 2)
  /-- `LZ4F.CSIZE` (rule R61): the content size. -/
  | lz4fCsize (size : BitVec 64)
  /-- `LZ4F.HC` (rule R62): the header checksum byte, not verified. -/
  | lz4fHc (hc : Byte)
  /-- `LZ4F.END` (rule R64): the zero block size word. -/
  | lz4fEnd
  /-- `LZ4F.BLOCK` (rule R63): a compressed block of `blen` bytes, not 0. -/
  | lz4fBlock (blen : BitVec 31)
  /-- `LZ4F.STORED` (rule R63): an uncompressed block of `blen` bytes. -/
  | lz4fStored (blen : BitVec 31)
  /-- `LZ4F.CCHK` (rule R65): the content checksum. -/
  | lz4fCchk (checksum : BitVec 32)
  deriving DecidableEq, Repr

/-- The format an instruction is written in (30_encoding.md rule R75). -/
def Instr.format : Instr → Format
  | .lz4bCompress => .cmd8
  | .lz4bDecompress => .cmd8
  | .lz4fCompress => .cmd8
  | .lz4fDecompress => .cmd8
  | .snCompress => .cmd8
  | .snDecompress => .cmd8
  | .lz4bMax => .cmd8
  | .lz4fMax => .cmd8
  | .snMax => .cmd8
  | .snSize => .cmd8
  | .lz4Seq _ _ _ => .lz4Tok
  | .lz4Last _ _ => .lz4Tok
  | .snLen _ _ => .snVarint
  | .snLit _ => .snTag
  | .snLit1 _ => .snTag
  | .snLit2 _ => .snTag
  | .snLit3 _ => .snTag
  | .snLit4 _ => .snTag
  | .snCopy1 _ _ => .snTag
  | .snCopy2 _ _ => .snTag
  | .snCopy4 _ _ => .snTag
  | .lz4fMagic => .magic32
  | .lz4fFlg _ _ _ => .flg8
  | .lz4fBd _ => .bd8
  | .lz4fCsize _ => .csize64
  | .lz4fHc _ => .hc8
  | .lz4fEnd => .bsw
  | .lz4fBlock _ => .bsw
  | .lz4fStored _ => .bsw
  | .lz4fCchk _ => .cchk32

/-- Why bytes are no instruction of a format, by name. What the machine raises for each is `decodeErrorKind` of
Machine/Fetch.lean. -/
inductive DecodeError
  /-- A command code 0 or 11 to 255 (45_commands.md rule R171). -/
  | reservedCommand
  /-- Four bytes that are not the magic (43_lz4_frame.md rule R123). -/
  | badMagic
  /-- A `FLG` byte the decoder refuses (30_encoding.md rule R76). -/
  | badFlg
  /-- A `BD` byte the decoder refuses (rule R76). -/
  | badBd
  /-- A preamble whose fifth byte is above `0x0F` (40_varint_length_codecs.md rule R81). -/
  | badVarint
  /-- The bytes end inside the object, with nothing of it executed yet. -/
  | cut
  /-- An LZ4 sequence whose literals are complete and that ends with exactly one byte where its offset is due
  (42_lz4_block.md rule R113: the literals take effect first). -/
  | cutOffset (token : Byte) (lits : List Byte)
  /-- An LZ4 sequence that ends inside its match-length extension (rule R113: the literals take effect and the offset
  is tested first). -/
  | cutMatchExt (token : Byte) (lits : List Byte) (offset : BitVec 16)
  deriving DecidableEq, Repr

end Sys2Proof
end

