-- ==== Sys2Proof/WellFormed.lean ====
section
/-! DEFINITION. Which operand values an encoding can hold (30_encoding.md rules R51 to R72). -/

namespace Sys2Proof

/-- The checks an instruction's operands must pass to be encodable. An operand whose type is exactly its field
needs none. -/
def Instr.wf : Instr → Bool
  | .lz4bCompress => true
  | .lz4bDecompress => true
  | .lz4fCompress => true
  | .lz4fDecompress => true
  | .snCompress => true
  | .snDecompress => true
  | .lz4bMax => true
  | .lz4fMax => true
  | .snMax => true
  | .snSize => true
  | .lz4Seq _ _ mlen => decide (4 ≤ mlen)
  | .lz4Last _ _ => true
  | .snLen value nbytes => decide (1 ≤ nbytes ∧ nbytes ≤ 5 ∧ value.toNat < 128 ^ nbytes)
  | .snLit lits => decide (1 ≤ lits.length ∧ lits.length ≤ 60)
  | .snLit1 lits => decide (1 ≤ lits.length ∧ lits.length ≤ 2 ^ 8)
  | .snLit2 lits => decide (1 ≤ lits.length ∧ lits.length ≤ 2 ^ 16)
  | .snLit3 lits => decide (1 ≤ lits.length ∧ lits.length ≤ 2 ^ 24)
  | .snLit4 lits => decide (1 ≤ lits.length ∧ lits.length ≤ 2 ^ 32)
  | .snCopy1 _ _ => true
  | .snCopy2 _ _ => true
  | .snCopy4 _ _ => true
  | .lz4fMagic => true
  | .lz4fFlg _ _ _ => true
  | .lz4fBd _ => true
  | .lz4fCsize _ => true
  | .lz4fHc _ => true
  | .lz4fEnd => true
  | .lz4fBlock blen => decide (blen ≠ 0)
  | .lz4fStored _ => true
  | .lz4fCchk _ => true

end Sys2Proof
end

