-- ==== Sys2Proof/Decode.lean ====
section
/-! DEFINITION. The decoder, total on any bytes and rejecting by name, and the encoder (30_encoding.md; 40_varint_length_codecs.md
rules R80 to R83). Both are written over lists of bytes, lowest index first. -/

namespace Sys2Proof

/-! ### Field codecs -/

/-- `n` low bytes of `v`, little-endian (20_memory.md rules R30, R38). -/
def leBytes : Nat → Nat → List Byte
  | 0, _ => []
  | n + 1, v => BitVec.ofNat 8 v :: leBytes n (v / 256)

/-- Bytes read as a little-endian natural (20_memory.md rule R30). -/
def leNat : List Byte → Nat
  | [] => 0
  | b :: r => b.toNat + 256 * leNat r

/-- `Lz4LenExtEmit(r)` (40_varint_length_codecs.md rule R82): `r / 255` bytes 255, then the remainder. -/
def lz4LenExt (r : Nat) : List Byte :=
  List.replicate (r / 255) 255 ++ [BitVec.ofNat 8 (r % 255)]

/-- `Lz4LenExtRead()` (rule R83): the sum of the bytes up to and with the first that is not 255, and the rest. -/
def readLz4LenExt : List Byte → Option (Nat × List Byte)
  | [] => none
  | b :: r =>
    if b = 255 then (readLz4LenExt r).map fun p => (p.1 + 255, p.2) else some (b.toNat, r)

/-- The extension an LZ4 length field takes: none below 15 (30_encoding.md rule R53). -/
def lz4FieldExt (n : Nat) : List Byte :=
  if n < 15 then [] else lz4LenExt (n - 15)

/-- An LZ4 length field from its nibble and the bytes after it (rule R53). -/
def readLz4Field (nibble : Nat) (bs : List Byte) : Option (Nat × List Byte) :=
  if nibble = 15 then (readLz4LenExt bs).map fun p => (p.1 + 15, p.2) else some (nibble, bs)

/-- The LZ4 token byte: `LL` in bits 7:4, `ML` in bits 3:0 (rule R52). -/
def lz4Token (lit ml : Nat) : Byte :=
  BitVec.ofNat 8 (min lit 15 * 16 + min ml 15)

/-- A value written as a base-128 varint of exactly `n` bytes, least significant group first (30_encoding.md rule
R67). -/
def varintBytes : Nat → Nat → List Byte
  | 0, _ => []
  | 1, v => [BitVec.ofNat 8 v]
  | n + 2, v => BitVec.ofNat 8 (v % 128 + 128) :: varintBytes (n + 1) (v / 128)

/-- `Varint32Decode()` from its `k`-th byte on (40_varint_length_codecs.md rule R81): the value, the number of bytes
read, the rest. -/
def readVarint : Nat → List Byte → Except DecodeError (Nat × Nat × List Byte)
  | _, [] => .error .cut
  | k, b :: r =>
    if k = 4 ∧ 15 < b.toNat then .error .badVarint
    else if b.toNat < 128 then .ok (b.toNat, 1, r)
    else
      match readVarint (k + 1) r with
      | .error e => .error e
      | .ok (v, n, r') => .ok (b.toNat % 128 + 128 * v, n + 1, r')

/-! ### Encoder -/

/-- The `FLG` byte: `Version` 01, `BChecksum`, reserved and `DictID` 0 (30_encoding.md rule R59). -/
def flgByte (bIndep cSize cChecksum : Bool) : Byte :=
  BitVec.ofNat 8 (0x40 + 32 * bIndep.toNat + 8 * cSize.toNat + 4 * cChecksum.toNat)

/-- The `BD` byte of class `classM4 + 4` (rule R60). -/
def bdByte (classM4 : BitVec 2) : Byte :=
  BitVec.ofNat 8 (0x40 + 16 * classM4.toNat)

/-- `LZ4F_MAGIC` (00_scope.md rule R4). -/
def lz4fMagicWord : Nat := 0x184D2204

/-- A Snappy literal in the class with `k` length bytes (rule R69). -/
def snLitBytes (k : Nat) (lits : List Byte) : List Byte :=
  BitVec.ofNat 8 ((59 + k) * 4) :: (leBytes k (lits.length - 1) ++ lits)

/-- The words of an instruction, written from the encoding tables of 30_encoding.md. -/
def encode : Instr → List Byte
  | .lz4bCompress => [1]
  | .lz4bDecompress => [2]
  | .lz4fCompress => [3]
  | .lz4fDecompress => [4]
  | .snCompress => [5]
  | .snDecompress => [6]
  | .lz4bMax => [7]
  | .lz4fMax => [8]
  | .snMax => [9]
  | .snSize => [10]
  | .lz4Seq lits offset mlen =>
    lz4Token lits.length (mlen - 4) ::
      (lz4FieldExt lits.length ++ lits ++ leBytes 2 offset.toNat ++ lz4FieldExt (mlen - 4))
  | .lz4Last ml lits => lz4Token lits.length ml.toNat :: (lz4FieldExt lits.length ++ lits)
  | .snLen value nbytes => varintBytes nbytes value.toNat
  | .snLit lits => BitVec.ofNat 8 ((lits.length - 1) * 4) :: lits
  | .snLit1 lits => snLitBytes 1 lits
  | .snLit2 lits => snLitBytes 2 lits
  | .snLit3 lits => snLitBytes 3 lits
  | .snLit4 lits => snLitBytes 4 lits
  | .snCopy1 lenM4 offset =>
    [BitVec.ofNat 8 (1 + 4 * lenM4.toNat + 32 * (offset.toNat / 256)), BitVec.ofNat 8 offset.toNat]
  | .snCopy2 lenM1 offset => BitVec.ofNat 8 (2 + 4 * lenM1.toNat) :: leBytes 2 offset.toNat
  | .snCopy4 lenM1 offset => BitVec.ofNat 8 (3 + 4 * lenM1.toNat) :: leBytes 4 offset.toNat
  | .lz4fMagic => leBytes 4 lz4fMagicWord
  | .lz4fFlg bIndep cSize cChecksum => [flgByte bIndep cSize cChecksum]
  | .lz4fBd classM4 => [bdByte classM4]
  | .lz4fCsize size => leBytes 8 size.toNat
  | .lz4fHc hc => [hc]
  | .lz4fEnd => leBytes 4 0
  | .lz4fBlock blen => leBytes 4 blen.toNat
  | .lz4fStored blen => leBytes 4 (0x80000000 + blen.toNat)
  | .lz4fCchk checksum => leBytes 4 checksum.toNat

/-- The number of bytes an LZ4 length extension takes (rule R53). -/
def lz4FieldExtSize (n : Nat) : Nat :=
  if n < 15 then 0 else (n - 15) / 255 + 1

/-- The encoded length of an instruction, by which it advances `ip` (30_encoding.md rule R73, 45_commands.md rule
R173). The bytes of a block follow its block size word and are not counted here. -/
def Instr.size : Instr → Nat
  | .lz4bCompress => 1
  | .lz4bDecompress => 1
  | .lz4fCompress => 1
  | .lz4fDecompress => 1
  | .snCompress => 1
  | .snDecompress => 1
  | .lz4bMax => 1
  | .lz4fMax => 1
  | .snMax => 1
  | .snSize => 1
  | .lz4Seq lits _ mlen =>
    1 + lz4FieldExtSize lits.length + lits.length + 2 + lz4FieldExtSize (mlen - 4)
  | .lz4Last _ lits => 1 + lz4FieldExtSize lits.length + lits.length
  | .snLen _ nbytes => nbytes
  | .snLit lits => 1 + lits.length
  | .snLit1 lits => 2 + lits.length
  | .snLit2 lits => 3 + lits.length
  | .snLit3 lits => 4 + lits.length
  | .snLit4 lits => 5 + lits.length
  | .snCopy1 _ _ => 2
  | .snCopy2 _ _ => 3
  | .snCopy4 _ _ => 5
  | .lz4fMagic => 4
  | .lz4fFlg _ _ _ => 1
  | .lz4fBd _ => 1
  | .lz4fCsize _ => 8
  | .lz4fHc _ => 1
  | .lz4fEnd => 4
  | .lz4fBlock _ => 4
  | .lz4fStored _ => 4
  | .lz4fCchk _ => 4

/-! ### Decoder -/

/-- The command of a code (45_commands.md rule R160); 0 and 11 to 255 are reserved (rule R171). -/
def decodeCommand (code : Byte) : Option Instr :=
  match code.toNat with
  | 1 => some .lz4bCompress
  | 2 => some .lz4bDecompress
  | 3 => some .lz4fCompress
  | 4 => some .lz4fDecompress
  | 5 => some .snCompress
  | 6 => some .snDecompress
  | 7 => some .lz4bMax
  | 8 => some .lz4fMax
  | 9 => some .snMax
  | 10 => some .snSize
  | _ => none

/-- What of an LZ4 sequence follows its literals: nothing (it is the last), or offset and match length
(42_lz4_block.md rule R108). -/
def decodeLz4Tail (token : Byte) (lits : List Byte) : List Byte → Except DecodeError (Instr × List Byte)
  | [] => .ok (.lz4Last (BitVec.ofNat 4 token.toNat) lits, [])
  | [_] => .error (.cutOffset token lits)
  | lo :: hi :: r =>
    let offset : BitVec 16 := BitVec.ofNat 16 (leNat [lo, hi])
    match readLz4Field (token.toNat % 16) r with
    | none => .error (.cutMatchExt token lits offset)
    | some (ml, r') => .ok (.lz4Seq lits offset (ml + 4), r')

/-- One LZ4 sequence from the bytes up to the end of its block (42_lz4_block.md rule R108). -/
def decodeLz4 : List Byte → Except DecodeError (Instr × List Byte)
  | [] => .error .cut
  | token :: r =>
    match readLz4Field (token.toNat / 16) r with
    | none => .error .cut
    | some (lit, r') =>
      if r'.length < lit then .error .cut else decodeLz4Tail token (r'.take lit) (r'.drop lit)

/-- The Snappy literal with `k` length bytes (30_encoding.md rule R69), from the bytes after its tag. -/
def decodeSnLitExt (mk : List Byte → Instr) (k : Nat) (r : List Byte) :
    Except DecodeError (Instr × List Byte) :=
  if r.length < k then .error .cut
  else
    let len := leNat (r.take k) + 1
    if (r.drop k).length < len then .error .cut
    else .ok (mk ((r.drop k).take len), (r.drop k).drop len)

/-- The Snappy literal of tag field `V = tag[7:2]` (30_encoding.md rule R69). -/
def decodeSnLit (v : Nat) (r : List Byte) : Except DecodeError (Instr × List Byte) :=
  match v with
  | 60 => decodeSnLitExt .snLit1 1 r
  | 61 => decodeSnLitExt .snLit2 2 r
  | 62 => decodeSnLitExt .snLit3 3 r
  | 63 => decodeSnLitExt .snLit4 4 r
  | v => if r.length < v + 1 then .error .cut else .ok (.snLit (r.take (v + 1)), r.drop (v + 1))

/-- One Snappy element (30_encoding.md rules R68 to R72). -/
def decodeSn : List Byte → Except DecodeError (Instr × List Byte)
  | [] => .error .cut
  | tag :: r =>
    match tag.toNat % 4 with
    | 0 => decodeSnLit (tag.toNat / 4) r
    | 1 =>
      match r with
      | b :: r' =>
        .ok (.snCopy1 (BitVec.ofNat 3 (tag.toNat / 4)) (BitVec.ofNat 11 (tag.toNat / 32 * 256 + b.toNat)), r')
      | [] => .error .cut
    | 2 =>
      if r.length < 2 then .error .cut
      else .ok (.snCopy2 (BitVec.ofNat 6 (tag.toNat / 4)) (BitVec.ofNat 16 (leNat (r.take 2))), r.drop 2)
    | _ =>
      if r.length < 4 then .error .cut
      else .ok (.snCopy4 (BitVec.ofNat 6 (tag.toNat / 4)) (BitVec.ofNat 32 (leNat (r.take 4))), r.drop 4)

/-- A frame's block size word (30_encoding.md rules R63, R64): `LZ4F.END` is tried before `LZ4F.BLOCK` (rule R75). -/
def decodeBsw (v : Nat) : Instr :=
  if v = 0 then .lz4fEnd
  else if v < 0x80000000 then .lz4fBlock (BitVec.ofNat 31 v)
  else .lz4fStored (BitVec.ofNat 31 (v - 0x80000000))

/-- A field of `n` bytes, read little-endian. -/
def decodeWord (n : Nat) (bs : List Byte) (f : Nat → Except DecodeError Instr) :
    Except DecodeError (Instr × List Byte) :=
  if bs.length < n then .error .cut
  else
    match f (leNat (bs.take n)) with
    | .error e => .error e
    | .ok i => .ok (i, bs.drop n)

/-- The `FLG` bytes the decoder accepts: `flg & 0xD3 = 0x40` (30_encoding.md rules R75, R76). -/
def decodeFlg (v : Nat) : Except DecodeError Instr :=
  if BitVec.ofNat 8 v &&& 0xD3 = (0x40 : Byte) then
    .ok (.lz4fFlg (v.testBit 5) (v.testBit 3) (v.testBit 2))
  else .error .badFlg

/-- The `BD` bytes the decoder accepts: `bd & 0xCF = 0x40` (rules R75, R76). -/
def decodeBd (v : Nat) : Except DecodeError Instr :=
  if BitVec.ofNat 8 v &&& 0xCF = (0x40 : Byte) then .ok (.lz4fBd (BitVec.ofNat 2 (v / 16)))
  else .error .badBd

/-- The instruction at the head of `bs` in format `f`, and the bytes after it. -/
def decode (f : Format) (bs : List Byte) : Except DecodeError (Instr × List Byte) :=
  match f with
  | .cmd8 =>
    match bs with
    | [] => .error .cut
    | b :: r =>
      match decodeCommand b with
      | none => .error .reservedCommand
      | some i => .ok (i, r)
  | .lz4Tok => decodeLz4 bs
  | .snVarint =>
    match readVarint 0 bs with
    | .error e => .error e
    | .ok (v, n, r) => .ok (.snLen (BitVec.ofNat 32 v) n, r)
  | .snTag => decodeSn bs
  | .magic32 => decodeWord 4 bs fun v => if v = lz4fMagicWord then .ok .lz4fMagic else .error .badMagic
  | .flg8 => decodeWord 1 bs decodeFlg
  | .bd8 => decodeWord 1 bs decodeBd
  | .csize64 => decodeWord 8 bs fun v => .ok (.lz4fCsize (BitVec.ofNat 64 v))
  | .hc8 => decodeWord 1 bs fun v => .ok (.lz4fHc (BitVec.ofNat 8 v))
  | .bsw => decodeWord 4 bs fun v => .ok (decodeBsw v)
  | .cchk32 => decodeWord 4 bs fun v => .ok (.lz4fCchk (BitVec.ofNat 32 v))

/-! ### The opcode table's words -/

/-- The format that one bare number of `nbits` bits is taken to be in. On the machine the position in the stream says
it; the table's number alone does not (every byte is a legal Snappy tag and a legal LZ4 token), so the row with the
most fixed bits wins (notes/assumptions/14.md). -/
def tableFormat (nbits w : Nat) : Option Format :=
  if nbits = 8 then
    if 1 ≤ w ∧ w ≤ 10 then some .cmd8
    else if w = 0xF0 ∨ w = 0xF4 ∨ w = 0xF8 ∨ w = 0xFC then some .snTag
    else if w &&& 0xCF = 0x40 then some .bd8
    else if w &&& 0xD3 = 0x40 then some .flg8
    else some .snTag
  else if nbits = 32 then
    if w = lz4fMagicWord then some .magic32 else some .bsw
  else if nbits = 64 then some .csize64
  else none

/-- The bytes of a table word: its own, then zeros up to the longest element whose length the word fixes. -/
def tableBytes (nbits w : Nat) : List Byte :=
  leBytes (nbits / 8) w ++ List.replicate 64 0

/-- The instruction the decoder reads from the word `w` of `nbits` bits, every later bit 0. -/
def decodeTableWord (nbits w : Nat) : Option Instr :=
  match tableFormat nbits w with
  | none => none
  | some f =>
    match decode f (tableBytes nbits w) with
    | .error _ => none
    | .ok (i, _) => some i

end Sys2Proof
end

