-- ==== Sys2Proof/Machine/State.lean ====
section
/-! DEFINITION. The engine's state (10_state.md), the host's pending actions, and the reasons a step can stop. All of
it is plain data. -/

namespace Sys2Proof.Machine

/-- `STATUS` (10_state.md rule R19). -/
inductive Status
  | idle
  | busy
  | done
  | error
  deriving DecidableEq, Repr

/-- The error kinds (60_exceptions.md rule R180). `outOfMemory` is never raised (rule R186). -/
inductive ErrKind
  | invalidData
  | checksumMismatch
  | unexpectedEof
  | outputTooSmall
  | outputTooLarge
  | outOfMemory
  | illegalCommand
  deriving DecidableEq, Repr

/-- The ten interface registers (10_state.md rule R17), in the order of their numbers. -/
inductive Reg
  | cmd
  | status
  | err
  | inLen
  | outCap
  | maxOut
  | opts
  | contentSize
  | outLen
  | result
  deriving DecidableEq, Repr

/-- Where in the pseudocode of the running decompress command the engine stands: which object of the stream it
fetches next. `none` while no such command runs (notes/assumptions/2.md). -/
inductive Phase
  | none
  /-- `LZ4B.DECOMPRESS`, at a token (42_lz4_block.md rule R108). -/
  | block
  /-- `SN.DECOMPRESS`, at the preamble (44_snappy.md rule R145). -/
  | snLen
  /-- `SN.DECOMPRESS`, at a tag. -/
  | snTag
  /-- `LZ4F.DECOMPRESS`, at each header field in turn (43_lz4_frame.md rule R123). -/
  | magic
  | flg
  | bd
  | csize
  | hc
  /-- `LZ4F.DECOMPRESS`, at a block size word (rule R124). -/
  | bsw
  /-- `LZ4F.DECOMPRESS`, at a token inside a block. -/
  | frameBlock
  /-- `LZ4F.DECOMPRESS`, at the content checksum (rule R125). -/
  | cchk
  deriving DecidableEq, Repr

/-- What the host and the platform can do to the engine (10_state.md rules R10, R17, R27; 70_reset_and_hazards.md rules
R200, R203), and how its actions interleave with the engine's steps (notes/assumptions/19.md). -/
inductive HostAction
  /-- Write the value to an interface register. -/
  | writeReg (r : Reg) (v : Nat)
  /-- Read an interface register. -/
  | readReg (r : Reg)
  /-- Write a byte of `IN`. -/
  | writeIn (a : Nat) (b : Byte)
  /-- Read a byte of `IN`. -/
  | readIn (a : Nat)
  /-- Write a byte of `OUT`. -/
  | writeOut (a : Nat) (b : Byte)
  /-- Read a byte of `OUT`. -/
  | readOut (a : Nat)
  /-- Provide the byte ranges that are `IN` and `OUT` (rule R203 step 1). -/
  | provide (inBase inSize outBase outSize : Nat)
  /-- The platform's reset (rule R200). -/
  | reset
  /-- Write the value to `CMD`, and the platform resets the engine before the command has finished (rule R200). -/
  | abandon (v : Nat)
  /-- Let the engine do one step. -/
  | tick
  /-- Wait until `STATUS` is not `BUSY` (rule R203 step 7). -/
  | poll
  deriving DecidableEq, Repr

/-- A byte buffer: the bytes listed, addresses strictly rising, none equal to what an unlisted address reads as. -/
abbrev Memory := List Host.Cell

/-- The hash table's cells that are not 0 (10_state.md rule R25), indices strictly rising. -/
abbrev HashTable := List (Nat × Nat)

/-- The byte ranges the host provided for `IN` and `OUT` in the system's address space (20_memory.md rules R34, R35). -/
structure Buffers where
  inBase : Nat
  inSize : Nat
  outBase : Nat
  outSize : Nat
  deriving DecidableEq, Repr

/-- The whole machine. A register of `SIZE_BITS` bits, whose width is a parameter, is a natural; `Safety.lean` states
its bound. -/
structure State where
  /-- The open parameters of 00_scope.md rule R4. No step changes them. -/
  params : Params
  -- Interface registers (10_state.md rules R17 to R24).
  cmd : BitVec 8
  status : Status
  err : Option ErrKind
  inLen : Nat
  outCap : Nat
  maxOut : Nat
  opts : BitVec 2
  contentSize : BitVec 64
  outLen : Nat
  result : Nat
  -- Working registers (rule R11); `curLen` is `in_len`, `endIdx` is `end`.
  ip : Nat
  op : Nat
  i : Nat
  anchor : Nat
  curLen : Nat
  endIdx : Nat
  base : Nat
  token : BitVec 8
  tag : BitVec 8
  lit : Nat
  ml : Nat
  mlen : Nat
  len : Nat
  offset : BitVec 32
  declared : BitVec 64
  w : BitVec 32
  h : BitVec 14
  cand : Nat
  c : Nat
  bs : BitVec 32
  blen : BitVec 31
  stored : Bool
  flg : BitVec 8
  bd : BitVec 8
  hdrLen : BitVec 5
  slot : Nat
  -- Memories (rules R25, R27).
  ht : HashTable
  inMem : Memory
  outMem : Memory
  bufs : Buffers
  /-- A command was started, and the host has not read `STATUS != BUSY` since: the host must keep its hands off the buffers
  and the argument registers (20_memory.md rule R41, 70_reset_and_hazards.md rule R205, notes/assumptions/27.md). -/
  unread : Bool
  -- The model's own fields (notes/assumptions/1.md, 2.md, 9.md, 20.md).
  phase : Phase
  host : List HostAction
  hostData : Nat
  free : Nat
  deriving DecidableEq, Repr

/-- Why a step stops where the machine has no such place. -/
inductive Fault
  /-- The host reads or writes a byte of `IN` or `OUT` at an index outside the range it provided. Raised by
  `hostAct` of Machine/Host.lean. Safe: the spec gives such a byte no existence (notes/assumptions/11.md). -/
  | noSuchByte
  deriving DecidableEq, Repr

/-- Why the model rejects a launch or a trace. -/
inductive Refusal
  /-- No meaning for the instruction yet. Raised by exec's refused arms alone (there are none now). Safe. -/
  | notModelled (mnemonic : String)
  /-- A compress command launched with `IN_LEN` beyond 70_reset_and_hazards.md rule R206's limits ("a model refuses the
  launch"). Raised by `compressRefusal`. Safe. -/
  | inputTooLong
  /-- A command launched with `IN_LEN` or `OUT_CAP` beyond the ranges the host provided (rule R206). Raised by
  `launchRefusal` and `buffersRefusal`. Safe. -/
  | beyondBuffers
  /-- Any command launched with overlapping `IN` and `OUT` (20_memory.md rule R35: "a model refuses such a launch"). Raised
  by `launchRefusal`, which every launch test makes. Safe. -/
  | buffersOverlap
  /-- The host reads or writes `IN` or `OUT`, writes an argument register or changes the ranges between the start of a
  command and its own read of `STATUS != BUSY` (70_reset_and_hazards.md rule R205: "a model refuses such a trace"). Raised
  by `hostAct` of Machine/Host.lean. Safe. -/
  | hostWhileBusy
  deriving DecidableEq, Repr

/-- The machine after power-on under given parameters (70_reset_and_hazards.md rule R201). The values of the working
registers, of `ht`, of the buffers' ranges and of the model's own fields are the model's (notes/assumptions/4.md, 5.md,
6.md). -/
def State.resetWith (p : Params) : State :=
  { params := p
    cmd := 0, status := .idle, err := none, inLen := 0, outCap := 0, maxOut := p.sizeMax, opts := 1
    contentSize := 0, outLen := 0, result := 0
    ip := 0, op := 0, i := 0, anchor := 0, curLen := 0, endIdx := 0, base := 0, token := 0, tag := 0
    lit := 0, ml := 0, mlen := 0, len := 0, offset := 0, declared := 0, w := 0, h := 0, cand := 0, c := 0
    bs := 0, blen := 0, stored := false, flg := 0, bd := 0, hdrLen := 0, slot := 0
    ht := [], inMem := [], outMem := [], bufs := { inBase := 0, inSize := 0, outBase := 0, outSize := 0 }
    unread := false, phase := .none, host := [], hostData := 0, free := 0 }

/-- The machine after power-on with the decided default parameters (00_scope.md rule R4). -/
def State.reset : State := State.resetWith Params.default

end Sys2Proof.Machine
end

