-- ==== Sys2Proof/Machine/Flags.lean ====
section
/-! DEFINITION. The engine has no flags (10_state.md rule R16). What a host can test is `STATUS` and `ERR`: their codes,
and the status bits of `OPTS` and of the frame's `FLG`. -/

namespace Sys2Proof.Machine

/-- The code of `STATUS` (10_state.md rule R19). -/
def Status.code : Status → BitVec 2
  | .idle => 0
  | .busy => 1
  | .done => 2
  | .error => 3

/-- The code of an error kind (60_exceptions.md rule R180). -/
def ErrKind.code : ErrKind → BitVec 3
  | .invalidData => 1
  | .checksumMismatch => 2
  | .unexpectedEof => 3
  | .outputTooSmall => 4
  | .outputTooLarge => 5
  | .outOfMemory => 6
  | .illegalCommand => 7

/-- The code in `ERR`: 0 when the last command succeeded or none has run (10_state.md rule R20). -/
def errCode : Option ErrKind → BitVec 3
  | none => 0
  | some k => k.code

/-- `OPTS.CCHK`, bit 0 (10_state.md rule R22). -/
def optCchk (s : State) : Bool := s.opts.getLsbD 0

/-- `OPTS.CSIZE`, bit 1 (rule R22). -/
def optCsize (s : State) : Bool := s.opts.getLsbD 1

/-- `FLG.BIndep`, bit 5 (30_encoding.md rule R59). -/
def flgBIndep (s : State) : Bool := s.flg.getLsbD 5

/-- `FLG.CSize`, bit 3. -/
def flgCSize (s : State) : Bool := s.flg.getLsbD 3

/-- `FLG.CChecksum`, bit 2. -/
def flgCChecksum (s : State) : Bool := s.flg.getLsbD 2

end Sys2Proof.Machine
end

