-- ==== Sys2Proof/Machine/Ops.lean ====
section
/-! DEFINITION. The named operations over the memories and the cursors, and the two ways a command ends: normally, and
by raising an error kind (60_exceptions.md rule R187), written once for all. -/

namespace Sys2Proof.Machine

/-! ### Sparse lists -/

/-- The value listed at `a`, else `d`. -/
def sparseGet {α : Type} (d : α) : List (Nat × α) → Nat → α
  | [], _ => d
  | (k, v) :: r, a => if a = k then v else sparseGet d r a

/-- Write `v` at `a`, keeping the canonical form: indices strictly rising, no value equal to `d` listed. -/
def sparseSet {α : Type} [DecidableEq α] (d : α) : List (Nat × α) → Nat → α → List (Nat × α)
  | [], a, v => if v = d then [] else [(a, v)]
  | (k, x) :: r, a, v =>
    if a < k then (if v = d then (k, x) :: r else (a, v) :: (k, x) :: r)
    else if a = k then (if v = d then r else (a, v) :: r)
    else (k, x) :: sparseSet d r a v

/-- The canonical form of a sparse list with default `d`. -/
abbrev SparseWf {α : Type} (d : α) (m : List (Nat × α)) : Prop :=
  m.Pairwise (fun x y => x.1 < y.1) ∧ ∀ x ∈ m, x.2 ≠ d

/-! ### The two byte buffers and the hash table -/

/-- What a byte nothing has written reads as (notes/assumptions/5.md). -/
def unlistedByte : Byte := 0

/-- One byte of a buffer. -/
def Memory.read (m : Memory) (a : Nat) : Byte := sparseGet unlistedByte m a

/-- Write one byte of a buffer. -/
def Memory.write (m : Memory) (a : Nat) (b : Byte) : Memory := sparseSet unlistedByte m a b

/-- The canonical form of a buffer. -/
abbrev Memory.wf (m : Memory) : Prop := SparseWf unlistedByte m

/-- The bytes `m[a .. a+n-1]`. -/
def Memory.slice (m : Memory) (a n : Nat) : List Byte := (List.range n).map fun k => Memory.read m (a + k)

/-- `MemRead(S, a, n)`: little-endian (00_scope.md section 5). -/
def Memory.readLE (m : Memory) (a n : Nat) : Nat := leNat (Memory.slice m a n)

/-- Write the bytes at `a, a+1, ...`, in ascending order (20_memory.md rule R33). -/
def Memory.writeBytes (m : Memory) (a : Nat) : List Byte → Memory
  | [] => m
  | b :: r => Memory.writeBytes (Memory.write m a b) (a + 1) r

/-- `HT[h]`: 0 is the empty cell (10_state.md rule R25). -/
def HashTable.cell (t : HashTable) (h : Nat) : Nat := sparseGet 0 t h

/-- `HT[h] <- v`. -/
def HashTable.setCell (t : HashTable) (h v : Nat) : HashTable := sparseSet 0 t h v

/-- The canonical form of the table, its indices within the 16384 slots. -/
abbrev HashTable.wf (t : HashTable) : Prop := SparseWf 0 t ∧ ∀ x ∈ t, x.1 < 16384

/-! ### Numbers -/

/-- `satadd(a, b)` (00_scope.md section 5). -/
def satadd (p : Params) (a b : Nat) : Nat := min (a + b) p.sizeMax

/-- `SMALL_INPUT` (00_scope.md rule R4). -/
def smallInput : Nat := 15

/-- `MAX_OFFSET` (rule R4). -/
def maxOffset : Nat := 65535

/-- `LZ4F_MAX_IN` (rule R4). -/
def lz4fMaxIn : Nat := 0x7E000000

/-- `SN_MAX_IN` (rule R4). -/
def snMaxIn : Nat := 2 ^ 32 - 1

/-! ### Ending a command -/

/-- How far a piece of a command's body came: it goes on in a state, or it has raised a kind, the state being the one
at the `raise`. -/
inductive Run
  | ok (s : State)
  | raise (k : ErrKind) (s : State)
  deriving DecidableEq, Repr

/-- Do `f` after `r` unless `r` raised: "execution of the command's body stops at the `raise`" (60_exceptions.md rule
R187). -/
def Run.andThen (r : Run) (f : State → Run) : Run :=
  match r with
  | .ok s => f s
  | .raise k s => .raise k s

/-- The working registers once a command is over: none survives it, and what they hold between commands is unspecified
(10_state.md rule R11, 93_implementation_defined.md U2), so each is free (notes/assumptions/7.md). -/
def State.freeWork (s : State) : State :=
  let v (k : Nat) : Nat := Config.freeNat s.free k
  let size (k : Nat) : Nat := v k % 2 ^ s.params.sizeBits
  { s with
    ip := size 0, op := size 1, i := size 2, anchor := size 3, curLen := size 4, endIdx := size 5, base := size 6
    token := BitVec.ofNat 8 (v 7), tag := BitVec.ofNat 8 (v 8)
    lit := v 9, ml := v 10, mlen := v 11, len := v 12
    offset := BitVec.ofNat 32 (v 13), declared := BitVec.ofNat 64 (v 14)
    w := BitVec.ofNat 32 (v 15), h := BitVec.ofNat 14 (v 16), cand := v 17 % 2 ^ s.params.posBits, c := size 18
    bs := BitVec.ofNat 32 (v 19), blen := BitVec.ofNat 31 (v 20), stored := (v 21).testBit 0
    flg := BitVec.ofNat 8 (v 22), bd := BitVec.ofNat 8 (v 23), hdrLen := BitVec.ofNat 5 (v 24), slot := size 25
    free := s.free + 1 }

/-- The table that a list of writes leaves, its 16384 cells of `POS_BITS` bits each: every table there is, is left by
some list. -/
def tableOf (posBits : Nat) : List (Nat × Nat) → HashTable
  | [] => []
  | (h, v) :: r => HashTable.setCell (tableOf posBits r) (h % 16384) (v % 2 ^ posBits)

/-- The table with unspecified contents (45_commands.md rule R160, 60_exceptions.md rule R187, 93_implementation_defined.md
U1; notes/assumptions/7.md). -/
def State.freeTable (s : State) : State :=
  { s with ht := tableOf s.params.posBits (Config.freeCells s.free), free := s.free + 1 }

/-- TAKING AN EXCEPTION: `raise K` (60_exceptions.md rule R187, 45_commands.md rule R160). `ERR`, `OUT_LEN`, `RESULT` and
`STATUS` change together; nothing else is saved, no vector is computed; `OUT` keeps what had been written; `HT` and the
working registers are left with unspecified contents. -/
def State.fail (k : ErrKind) (s : State) : State :=
  { s.freeTable.freeWork with err := some k, outLen := 0, result := 0, status := .error, phase := .none }

/-- The normal end of a command (45_commands.md rule R160). There is no return from an exception (60_exceptions.md rule
R192): after an error the next command starts as after any other. -/
def State.complete (res : Nat) (s : State) : State :=
  { s.freeWork with err := none, outLen := s.op, result := res, status := .done, phase := .none }

/-- The state after an element of a running stream: the raise, if any, ends the command. -/
def Run.settle : Run → State
  | .ok s => s
  | .raise k s => s.fail k

/-- The state after a whole compress command's body (rule R160: `RESULT <- result`, 0 for a transform; a command that ran
the match finder leaves `HT` with unspecified contents). -/
def Run.finish : Run → State
  | .ok s => if s.curLen < smallInput then s.complete 0 else s.freeTable.complete 0
  | .raise k s => s.fail k

/-! ### Writing `OUT` -/

/-- `MemWrite(OUT, op, 1, b); op <- op + 1`. -/
def State.putByte (b : Byte) (s : State) : State :=
  { s with outMem := Memory.write s.outMem s.op b, op := s.op + 1 }

/-- `EmitByte(b)` (20_memory.md rule R38): the only way an encoder writes `OUT`. -/
def emitByte (b : Byte) (s : State) : Run :=
  if s.outCap ≤ s.op then .raise .outputTooSmall s else .ok (s.putByte b)

/-- `EmitBytes` / `EmitLE` (rule R38): one `EmitByte` per byte, in order. -/
def emitBytes : List Byte → State → Run
  | [], s => .ok s
  | b :: r, s => (emitByte b s).andThen (emitBytes r)

/-- `CheckRoom(n)` (20_memory.md rule R39): `OutputTooLarge` is tested first. -/
def checkRoom (n : Nat) (s : State) : Run :=
  if s.maxOut - s.op < n then .raise .outputTooLarge s
  else if s.outCap - s.op < n then .raise .outputTooSmall s
  else .ok s

/-- The writes of `LiteralCopy(n)` (41_match_finder.md rule R96): the literal bytes, in order, at `op`. -/
def putBytes : List Byte → State → State
  | [], s => s
  | b :: r, s => putBytes r (s.putByte b)

/-- `LiteralCopy(n)` (rule R96) of the `n` bytes `lits` that stand at `ip`. -/
def literalCopy (lits : List Byte) (s : State) : State :=
  { putBytes lits s with ip := s.ip + lits.length }

/-- `MatchCopy(offset, n)` (41_match_finder.md rule R97): ascending, one byte at a time, so that a byte this same loop
wrote can be read by it. -/
def matchCopy (offset : Nat) : Nat → State → State
  | 0, s => s
  | n + 1, s => matchCopy offset n (s.putByte (Memory.read s.outMem (s.op - offset)))

end Sys2Proof.Machine
end

