-- ==== Sys2Proof/Machine/Operands.lean ====
section
/-! DEFINITION. Every operand form of the machine: the interface registers a command takes its operands from
(10_state.md rule R17), the launch of a command (45_commands.md rule R160) with the limits it must be within
(70_reset_and_hazards.md rule R206), and the stream bytes an element is fetched from. -/

namespace Sys2Proof.Machine

/-! ### Interface registers -/

/-- What a host read of a register returns; a narrow register reads 0 in its upper bits (10_state.md rule R17). -/
def readReg (r : Reg) (s : State) : Nat :=
  match r with
  | .cmd => s.cmd.toNat
  | .status => s.status.code.toNat
  | .err => (errCode s.err).toNat
  | .inLen => s.inLen
  | .outCap => s.outCap
  | .maxOut => s.maxOut
  | .opts => s.opts.toNat
  | .contentSize => s.contentSize.toNat
  | .outLen => s.outLen
  | .result => s.result

/-- A value as a register of `SIZE_BITS` bits keeps it (rule R17). -/
def sizeValue (s : State) (v : Nat) : Nat := v % 2 ^ s.params.sizeBits

/-- A host write to an argument register; a write to a read-only register is ignored (45_commands.md rule R172). A
write to `CMD` starts a command and is not this operation's. -/
def writeArg (r : Reg) (v : Nat) (s : State) : State :=
  match r with
  | .cmd => s
  | .status => s
  | .err => s
  | .inLen => { s with inLen := sizeValue s v }
  | .outCap => { s with outCap := sizeValue s v }
  | .maxOut => { s with maxOut := sizeValue s v }
  | .opts => { s with opts := BitVec.ofNat 2 v }
  | .contentSize => { s with contentSize := BitVec.ofNat 64 v }
  | .outLen => s
  | .result => s

/-- The read-write registers that are not `CMD` (10_state.md rule R17), which the host must not write while `HandsOff`
(70_reset_and_hazards.md rule R205). -/
def isArgReg : Reg → Bool
  | .cmd => false
  | .status => false
  | .err => false
  | .inLen => true
  | .outCap => true
  | .maxOut => true
  | .opts => true
  | .contentSize => true
  | .outLen => false
  | .result => false

/-- The host must keep its hands off the buffers, the ranges and the argument registers: from the write to `CMD` until it
has read `STATUS != BUSY` (20_memory.md rule R41, 70_reset_and_hazards.md rule R205). -/
abbrev HandsOff (s : State) : Prop := s.status = .busy ∨ s.unread = true

/-! ### Launching a command -/

/-- Some byte belongs to both ranges (20_memory.md rule R35). -/
def buffersOverlap (b : Buffers) : Bool :=
  decide (0 < b.inSize ∧ 0 < b.outSize ∧ b.inBase < b.outBase + b.outSize ∧ b.outBase < b.inBase + b.inSize)

/-- The launch test of every command, and the whole of the bound queries': the two ranges are disjoint (20_memory.md rule
R35, which excepts no command) and `OUT_CAP` is within its own (70_reset_and_hazards.md rule R206, whose exception for the
size queries is of `IN_LEN` alone). -/
def launchRefusal (s : State) : Option Refusal :=
  if buffersOverlap s.bufs then some .buffersOverlap
  else if s.bufs.outSize < s.outCap then some .beyondBuffers
  else none

/-- The launch test of every command that reads `IN`, which is all but the bound queries: `IN_LEN` is within its range too
(rule R206). -/
def buffersRefusal (s : State) : Option Refusal :=
  (launchRefusal s).or (if s.bufs.inSize < s.inLen then some .beyondBuffers else none)

/-- `n` is above the limit, if there is one. -/
def overLimit (limit : Option Nat) (n : Nat) : Bool :=
  match limit with
  | none => false
  | some l => decide (l < n)

/-- The launch test of the compress commands: `IN_LEN` within `limit`, when the command has one, and within what a
hash-table cell holds (70_reset_and_hazards.md rule R206). -/
def compressRefusal (limit : Option Nat) (s : State) : Option Refusal :=
  if overLimit limit s.inLen then some .inputTooLong
  else if s.params.posBits < s.params.sizeBits ∧ 2 ^ s.params.posBits - 1 ≤ s.inLen then some .inputTooLong
  else buffersRefusal s

/-- The launch test of `LZ4B.COMPRESS`. -/
def lz4bCompressRefusal (s : State) : Option Refusal := compressRefusal none s

/-- The launch test of `LZ4F.COMPRESS`: `IN_LEN <= LZ4F_MAX_IN`. -/
def lz4fCompressRefusal (s : State) : Option Refusal := compressRefusal (some lz4fMaxIn) s

/-- The launch test of `SN.COMPRESS`: `IN_LEN <= SN_MAX_IN`. -/
def snCompressRefusal (s : State) : Option Refusal := compressRefusal (some snMaxIn) s

/-- `Start(v)` down to the body (45_commands.md rule R160, 70_reset_and_hazards.md rule R202), from where the host's hands
are off (rule R205). -/
def State.start (code : BitVec 8) (s : State) : State :=
  { s with cmd := code, status := .busy, curLen := s.inLen, op := 0, ip := 0, unread := true }

/-- Launch a command: ignored while `BUSY` (45_commands.md rule R172), refused beyond the stated limits, else `body` runs
from the started state. -/
def launch (code : BitVec 8) (refusal : State → Option Refusal) (body : State → State) (s : State) :
    Host.Outcome State Fault Refusal :=
  if s.status = .busy then .next s
  else
    match refusal s with
    | some r => .refused r
    | none => .next (body (s.start code))

/-- The launch test of a command, by its instruction; a stream element is not launched. -/
def commandRefusal (i : Instr) (s : State) : Option Refusal :=
  match i with
  | .lz4bCompress => lz4bCompressRefusal s
  | .lz4bDecompress => buffersRefusal s
  | .lz4fCompress => lz4fCompressRefusal s
  | .lz4fDecompress => buffersRefusal s
  | .snCompress => snCompressRefusal s
  | .snDecompress => buffersRefusal s
  | .snSize => buffersRefusal s
  | .lz4bMax => launchRefusal s
  | .lz4fMax => launchRefusal s
  | .snMax => launchRefusal s
  | .lz4Seq _ _ _ => none
  | .lz4Last _ _ => none
  | .snLen _ _ => none
  | .snLit _ => none
  | .snLit1 _ => none
  | .snLit2 _ => none
  | .snLit3 _ => none
  | .snLit4 _ => none
  | .snCopy1 _ _ => none
  | .snCopy2 _ _ => none
  | .snCopy4 _ _ => none
  | .lz4fMagic => none
  | .lz4fFlg _ _ _ => none
  | .lz4fBd _ => none
  | .lz4fCsize _ => none
  | .lz4fHc _ => none
  | .lz4fEnd => none
  | .lz4fBlock _ => none
  | .lz4fStored _ => none
  | .lz4fCchk _ => none

/-! ### The bytes of the stream -/

/-- The `n` bytes of `IN` from `a` on. -/
def inBytes (s : State) (a n : Nat) : List Byte := Memory.slice s.inMem a n

/-- The `n` bytes of `OUT` from `a` on. -/
def outBytes (s : State) (a n : Nat) : List Byte := Memory.slice s.outMem a n

/-- The format of the object the engine fetches next (30_encoding.md rule R50: the position says it). -/
def phaseFormat : Phase → Option Format
  | .none => none
  | .block => some .lz4Tok
  | .snLen => some .snVarint
  | .snTag => some .snTag
  | .magic => some .magic32
  | .flg => some .flg8
  | .bd => some .bd8
  | .csize => some .csize64
  | .hc => some .hc8
  | .bsw => some .bsw
  | .frameBlock => some .lz4Tok
  | .cchk => some .cchk32

/-- One past the last byte an object fetched now may use: the block's end inside a block, else the input's (20_memory.md
rule R37). -/
def fetchLimit (s : State) : Nat :=
  if s.phase = .block ∨ s.phase = .frameBlock then s.endIdx else s.curLen

/-- The bytes the next object is parsed from: `IN[ip ..]` up to the limit. -/
def fetchBytes (s : State) : List Byte := inBytes s s.ip (fetchLimit s - s.ip)

end Sys2Proof.Machine
end

