-- ==== Sys2Proof/Machine/Checksum.lean ====
section
/-! DEFINITION. XXH32 and the header checksum (43_lz4_frame.md rules R120, R121). -/

namespace Sys2Proof.Machine

/-- `P1` (43_lz4_frame.md rule R120). -/
def xxhP1 : BitVec 32 := 0x9E3779B1

/-- `P2`. -/
def xxhP2 : BitVec 32 := 0x85EBCA77

/-- `P3`. -/
def xxhP3 : BitVec 32 := 0xC2B2AE3D

/-- `P4`. -/
def xxhP4 : BitVec 32 := 0x27D4EB2F

/-- `P5`. -/
def xxhP5 : BitVec 32 := 0x165667B1

/-- `rotl32(x, r)` (00_scope.md section 5). -/
def rotl32 (x : BitVec 32) (r : Nat) : BitVec 32 := (x <<< r) ||| (x >>> (32 - r))

/-- Four bytes as a 32-bit lane, little-endian. -/
def xxhLane (bs : List Byte) : BitVec 32 := BitVec.ofNat 32 (leNat (bs.take 4))

/-- `Round(acc, lane)`. -/
def xxhRound (acc lane : BitVec 32) : BitVec 32 := rotl32 (acc + lane * xxhP2) 13 * xxhP1

/-- The stripe loop over `k` stripes of 16 bytes: the four accumulators and the bytes left. -/
def xxhStripes : Nat → List Byte → BitVec 32 → BitVec 32 → BitVec 32 → BitVec 32 → BitVec 32 × List Byte
  | 0, bs, v1, v2, v3, v4 => (rotl32 v1 1 + rotl32 v2 7 + rotl32 v3 12 + rotl32 v4 18, bs)
  | k + 1, bs, v1, v2, v3, v4 =>
    xxhStripes k (bs.drop 16) (xxhRound v1 (xxhLane bs)) (xxhRound v2 (xxhLane (bs.drop 4)))
      (xxhRound v3 (xxhLane (bs.drop 8))) (xxhRound v4 (xxhLane (bs.drop 12)))

/-- The 4-byte tail loop over `k` words. -/
def xxhWords : Nat → List Byte → BitVec 32 → BitVec 32 × List Byte
  | 0, bs, h => (h, bs)
  | k + 1, bs, h => xxhWords k (bs.drop 4) (rotl32 (h + xxhLane bs * xxhP3) 17 * xxhP4)

/-- The 1-byte tail loop. -/
def xxhTail : List Byte → BitVec 32 → BitVec 32
  | [], h => h
  | b :: r, h => xxhTail r (rotl32 (h + b.zeroExtend 32 * xxhP5) 11 * xxhP1)

/-- The final mix. -/
def xxhAvalanche (h0 : BitVec 32) : BitVec 32 :=
  let h1 := (h0 ^^^ (h0 >>> 15)) * xxhP2
  let h2 := (h1 ^^^ (h1 >>> 13)) * xxhP3
  h2 ^^^ (h2 >>> 16)

/-- `XXH32(S, a, n, seed)` (rule R120) of the bytes `bs`. -/
def xxh32 (bs : List Byte) (seed : BitVec 32) : BitVec 32 :=
  let n := bs.length
  let start :=
    if 16 ≤ n then
      xxhStripes (n / 16) bs (seed + xxhP1 + xxhP2) (seed + xxhP2) seed (seed - xxhP1)
    else (seed + xxhP5, bs)
  let words := xxhWords (start.2.length / 4) start.2 (start.1 + BitVec.ofNat 32 n)
  xxhAvalanche (xxhTail words.2 words.1)

/-- `HeaderChecksum` (rule R121): bits 15:8 of the hash (90_conflicts.md C1). -/
def headerChecksum (bs : List Byte) : Byte := BitVec.ofNat 8 ((xxh32 bs 0).toNat / 256)

end Sys2Proof.Machine
end

