-- ==== Sys2Proof/Machine/Matching.lean ====
section
/-! DEFINITION. The hash-table match finder and the match-extension primitive (41_match_finder.md). -/

namespace Sys2Proof.Machine

/-- `LZ4_MULT` (00_scope.md rule R4). -/
def lz4Mult : BitVec 32 := 0x9E3779B1

/-- `SNAPPY_MULT` (rule R4). -/
def snappyMult : BitVec 32 := 0x1E35A7BD

/-- `Hash4(w, mult)` (41_match_finder.md rule R90): bits 31:18 of the wrapped product. -/
def hash4 (w mult : BitVec 32) : BitVec 14 := BitVec.ofNat 14 ((w * mult).toNat / 2 ^ 18)

/-- `TableReset()` (rule R91): every cell 0. -/
def tableReset (s : State) : State := { s with ht := [] }

/-- The look-up and the insertion of `FindMatch` (rule R92): `w`, `h`, `cand` are set, and the cell holds `i + 1`
whether or not a match results. -/
def probe (mult : BitVec 32) (s : State) : State :=
  let w : BitVec 32 := BitVec.ofNat 32 (Memory.readLE s.inMem s.i 4)
  let h := hash4 w mult
  { s with w := w, h := h, cand := HashTable.cell s.ht h.toNat, ht := HashTable.setCell s.ht h.toNat (s.i + 1) }

/-- `FindMatch(mult)` (rule R92): the state after the scan step, and the candidate position if it is a match. -/
def findMatch (mult : BitVec 32) (s : State) : State × Option Nat :=
  let s1 := probe mult s
  if s1.cand = 0 then (s1, none)
  else
    let s2 := { s1 with c := s1.cand - 1 }
    if maxOffset < s2.i - s2.c then (s2, none)
    else if Memory.readLE s2.inMem s2.c 4 = s2.w.toNat then (s2, some s2.c)
    else (s2, none)

/-- `MatchExtend(a, b, max)` (rule R95): the length of the common prefix, at most `max`. -/
def matchExtend (m : Memory) : Nat → Nat → Nat → Nat
  | _, _, 0 => 0
  | a, b, n + 1 => if Memory.read m a = Memory.read m b then matchExtend m (a + 1) (b + 1) n + 1 else 0

end Sys2Proof.Machine
end

