-- ==== Sys2Proof/Machine/Lz4Block.lean ====
section
/-! DEFINITION. The LZ4 block: its encoder, the two elements `LZ4.SEQ` and `LZ4.LAST`, its size bound (42_lz4_block.md). -/

namespace Sys2Proof.Machine

/-! ### Encoder -/

/-- `Lz4EmitSequence(lit_start, lit_len, offset, mlen)` (42_lz4_block.md rule R105). -/
def lz4EmitSequence (litStart litLen offset mlen : Nat) (s : State) : Run :=
  emitBytes (encode (.lz4Seq (inBytes s litStart litLen) (BitVec.ofNat 16 offset) mlen))
    { s with lit := litLen, offset := BitVec.ofNat 32 offset, mlen := mlen, ml := mlen - 4 }

/-- `Lz4EmitLast(lit_start, lit_len)` (rule R105): the `ML` nibble is 0. -/
def lz4EmitLast (litStart litLen : Nat) (s : State) : Run :=
  emitBytes (encode (.lz4Last 0 (inBytes s litStart litLen))) { s with lit := litLen }

/-- The scan loop of `Lz4BlockCompress` (rule R106). Each pass moves `i` forward, so `in_len + 1` units of fuel are never
used up (notes/assumptions/26.md). -/
def lz4Scan : Nat → State → Run
  | 0, s => .ok s
  | fuel + 1, s =>
    if s.i + s.params.lz4MfLimit ≤ s.curLen then
      match findMatch lz4Mult s with
      | (s1, some c) =>
        let mlen := 4 + matchExtend s1.inMem (c + 4) (s1.i + 4) (s1.curLen - s1.params.lz4LastLiterals - (s1.i + 4))
        (lz4EmitSequence s1.anchor (s1.i - s1.anchor) (s1.i - c) mlen s1).andThen fun s2 =>
          lz4Scan fuel { s2 with i := s2.i + mlen, anchor := s2.i + mlen }
      | (s1, none) => lz4Scan fuel { s1 with i := s1.i + 1 }
    else .ok s

/-- `Lz4BlockCompress()` (rule R106). -/
def lz4BlockCompress (s : State) : Run :=
  if s.curLen < smallInput then lz4EmitLast 0 s.curLen s
  else
    (lz4Scan (s.curLen + 1) { tableReset s with anchor := 0, i := 0 }).andThen fun s1 =>
      lz4EmitLast s1.anchor (s1.curLen - s1.anchor) s1

/-! ### Decoder -/

/-- The end of a block: the end of the command for a bare block, the next block size word in a frame (rule R108,
43_lz4_frame.md rule R124). -/
def blockEnd (s : State) : State :=
  if s.phase = .frameBlock then { s with phase := .bsw } else s.complete 0

/-- `while ip < end` (rule R108), after a sequence and before the first one. -/
def blockLoop (s : State) : State :=
  if s.ip < s.endIdx then s else blockEnd s

/-- The part of the loop body down to `LiteralCopy` (rule R108), for a sequence whose literals are all there. -/
def lz4Literals (token : Byte) (lits : List Byte) (s : State) : Run :=
  let s1 := { s with token := token, lit := lits.length, ip := s.ip + 1 + lz4FieldExtSize lits.length }
  (checkRoom lits.length s1).andThen fun s2 => .ok (literalCopy lits s2)

/-- The offset of a sequence: `ip` moves past it and it is validated at once (rules R108, R113). -/
def lz4Offset (offset : BitVec 16) (s : State) : Run :=
  let s1 := { s with offset := BitVec.ofNat 32 offset.toNat, ip := s.ip + 2 }
  if offset = 0 ∨ s1.op - s1.base < offset.toNat then .raise .invalidData s1 else .ok s1

/-- The match of a sequence (rules R108, R113). -/
def lz4Match (mlen : Nat) (s : State) : Run :=
  let s1 := { s with ml := mlen - 4, mlen := mlen, ip := s.ip + lz4FieldExtSize (mlen - 4) }
  (checkRoom mlen s1).andThen fun s2 => .ok (matchCopy s2.offset.toNat mlen s2)

/-- `LZ4.SEQ` (42_lz4_block.md rule R113): literals, then the match. -/
def execLz4Seq (lits : List Byte) (offset : BitVec 16) (mlen : Nat) (s : State) :
    Host.Outcome State Fault Refusal :=
  .next (((lz4Literals (lz4Token lits.length (mlen - 4)) lits s).andThen fun s1 =>
    (lz4Offset offset s1).andThen fun s2 =>
      (lz4Match mlen s2).andThen fun s3 => .ok (blockLoop s3)).settle)

/-- `LZ4.LAST` (rule R114): the literals, and the block is finished when they end it. -/
def execLz4Last (ml : BitVec 4) (lits : List Byte) (s : State) : Host.Outcome State Fault Refusal :=
  .next (((lz4Literals (lz4Token lits.length ml.toNat) lits s).andThen fun s1 => .ok (blockLoop s1)).settle)

/-- A sequence cut where its offset is due: its literals have taken effect, then `UnexpectedEof` (rules R108, R113). -/
def lz4CutOffset (token : Byte) (lits : List Byte) (s : State) : State :=
  ((lz4Literals token lits s).andThen fun s1 => .raise .unexpectedEof s1).settle

/-- A sequence cut inside its match-length extension: the offset is tested before the extension is read (rule R113). -/
def lz4CutMatchExt (token : Byte) (lits : List Byte) (offset : BitVec 16) (s : State) : State :=
  ((lz4Literals token lits s).andThen fun s1 =>
    (lz4Offset offset s1).andThen fun s2 => .raise .unexpectedEof s2).settle

/-! ### Size bound -/

/-- `Lz4BlockMax(n)` (42_lz4_block.md rule R110). -/
def lz4BlockMax (p : Params) (n : Nat) : Nat := satadd p (satadd p n (n / 255)) 16

/-! ### Commands -/

/-- `LZ4B.COMPRESS` (45_commands.md rule R161). -/
def execLz4bCompress (s : State) : Host.Outcome State Fault Refusal :=
  launch 1 lz4bCompressRefusal (fun s1 => (lz4BlockCompress s1).finish) s

/-- `LZ4B.DECOMPRESS` (rule R162): start `Lz4BlockDecode(0, in_len, 0)`; the sequences are executed by the steps that
follow. -/
def execLz4bDecompress (s : State) : Host.Outcome State Fault Refusal :=
  launch 2 buffersRefusal (fun s1 => blockLoop { s1 with phase := .block, endIdx := s1.curLen, base := 0 }) s

/-- `LZ4B.MAX` (rule R167). -/
def execLz4bMax (s : State) : Host.Outcome State Fault Refusal :=
  launch 7 launchRefusal (fun s1 => s1.complete (lz4BlockMax s1.params s1.curLen)) s

end Sys2Proof.Machine
end

