-- ==== Sys2Proof/Machine/Lz4Frame.lean ====
section
/-! DEFINITION. The LZ4 frame: its encoder, its nine elements, its size bound (43_lz4_frame.md). -/

namespace Sys2Proof.Machine

/-! ### Encoder -/

/-- The header down to `HC` (43_lz4_frame.md rule R122). -/
def lz4fEmitHeader (s : State) : Run :=
  (emitBytes (encode .lz4fMagic) s).andThen fun s1 =>
    let flg := flgByte true (optCsize s1) (optCchk s1)
    (emitByte flg { s1 with flg := flg }).andThen fun s2 =>
      (emitByte (bdByte 3) { s2 with bd := bdByte 3 }).andThen fun s3 =>
        (emitBytes (if optCsize s3 then encode (.lz4fCsize s3.contentSize) else []) s3).andThen fun s4 =>
          emitByte (headerChecksum (outBytes s4 4 (s4.op - 4))) s4

/-- The block size word filled in once the block is finished (rule R122): the one write below `op`. -/
def lz4fPatchSlot (s : State) : State :=
  let blen := s.op - (s.slot + 4)
  { s with blen := BitVec.ofNat 31 blen, outMem := Memory.writeBytes s.outMem s.slot (leBytes 4 blen) }

/-- `Lz4FrameCompress()` (rule R122). -/
def lz4FrameCompress (s : State) : Run :=
  (lz4fEmitHeader { s with op := 0 }).andThen fun s1 =>
    (emitBytes (leBytes 4 0) { s1 with slot := s1.op }).andThen fun s2 =>
      (lz4BlockCompress s2).andThen fun s3 =>
        (emitBytes (encode .lz4fEnd) (lz4fPatchSlot s3)).andThen fun s4 =>
          emitBytes (if optCchk s4 then encode (.lz4fCchk (xxh32 (inBytes s4 0 s4.curLen) 0)) else []) s4

/-! ### Decoder: the header fields (rule R123) -/

/-- `LZ4F.MAGIC`: the magic is right; a header that cannot be complete is refused before its next field. -/
def execLz4fMagic (s : State) : Host.Outcome State Fault Refusal :=
  let s1 := { s with ip := s.ip + 4, phase := .flg }
  .next ((if s1.curLen < 7 then Run.raise .invalidData s1 else .ok s1).settle)

/-- `LZ4F.FLG`: `flg` and `hdr_len` are set. -/
def execLz4fFlg (bIndep cSize cChecksum : Bool) (s : State) : Host.Outcome State Fault Refusal :=
  .next { s with flg := flgByte bIndep cSize cChecksum, hdrLen := if cSize then 15 else 7, ip := s.ip + 1, phase := .bd }

/-- `LZ4F.BD`: `bd` is set, and a header that is cut short is refused before the content size is looked at. -/
def execLz4fBd (classM4 : BitVec 2) (s : State) : Host.Outcome State Fault Refusal :=
  let s1 := { s with bd := bdByte classM4, ip := s.ip + 1, phase := if flgCSize s then .csize else .hc }
  .next ((if s1.curLen < s1.hdrLen.toNat then Run.raise .invalidData s1 else .ok s1).settle)

/-- `LZ4F.CSIZE`: the declared size is compared with `MAX_OUT` and with nothing else. -/
def execLz4fCsize (size : BitVec 64) (s : State) : Host.Outcome State Fault Refusal :=
  let s1 := { s with declared := size, ip := s.ip + 8, phase := .hc }
  .next ((if s1.maxOut < size.toNat then Run.raise .outputTooLarge s1 else .ok s1).settle)

/-- `LZ4F.HC`: skipped, not examined; the block list follows with `op` 0 (rules R123, R124). -/
def execLz4fHc (_hc : Byte) (s : State) : Host.Outcome State Fault Refusal :=
  .next { s with ip := s.ip + 1, op := 0, phase := .bsw }

/-! ### Decoder: the block list (rules R124, R125) -/

/-- `LZ4F.END`: the block list is over; the content checksum follows if `FLG` says so. -/
def execLz4fEnd (s : State) : Host.Outcome State Fault Refusal :=
  let s1 := { s with bs := 0, ip := s.ip + 4 }
  .next (if flgCChecksum s1 then { s1 with phase := .cchk } else s1.complete 0)

/-- A data block's size word: `bs`, `stored`, `blen` are set, and the block must be within the input (rule R124). -/
def lz4fBlockWord (stored : Bool) (blen : BitVec 31) (s : State) : Run :=
  let s1 := { s with bs := BitVec.ofNat 32 (blen.toNat + if stored then 0x80000000 else 0), stored := stored,
                     blen := blen, ip := s.ip + 4 }
  if s1.curLen - s1.ip < blen.toNat then .raise .unexpectedEof s1 else .ok s1

/-- `LZ4F.BLOCK`: enter `Lz4BlockDecode(ip, ip + blen, base)` (rule R124). -/
def execLz4fBlock (blen : BitVec 31) (s : State) : Host.Outcome State Fault Refusal :=
  .next (((lz4fBlockWord false blen s).andThen fun s1 =>
    .ok (blockLoop { s1 with base := if flgBIndep s1 then s1.op else 0, endIdx := s1.ip + blen.toNat,
                             phase := .frameBlock })).settle)

/-- `LZ4F.STORED`: the block's bytes are copied as they stand (rule R124). -/
def execLz4fStored (blen : BitVec 31) (s : State) : Host.Outcome State Fault Refusal :=
  .next (((lz4fBlockWord true blen s).andThen fun s1 =>
    (checkRoom blen.toNat s1).andThen fun s2 =>
      .ok { literalCopy (inBytes s2 s2.ip blen.toNat) s2 with phase := .bsw }).settle)

/-- `LZ4F.CCHK` (rule R125): the last error a frame can raise; bytes after it are not examined (rule R126). -/
def execLz4fCchk (checksum : BitVec 32) (s : State) : Host.Outcome State Fault Refusal :=
  .next ((if xxh32 (outBytes s 0 s.op) 0 = checksum then
      Run.ok (State.complete 0 { s with ip := s.ip + 4 })
    else .raise .checksumMismatch s).settle)

/-! ### Size bound -/

/-- `Lz4FrameMax(n)` (43_lz4_frame.md rule R127). -/
def lz4FrameMax (p : Params) (n : Nat) : Nat := satadd p (lz4BlockMax p n) 27

/-! ### Commands -/

/-- `LZ4F.COMPRESS` (45_commands.md rule R163). -/
def execLz4fCompress (s : State) : Host.Outcome State Fault Refusal :=
  launch 3 lz4fCompressRefusal (fun s1 => (lz4FrameCompress s1).finish) s

/-- `LZ4F.DECOMPRESS` (rule R164): start `Lz4FrameDecompress()`; the frame's fields are executed by the steps that
follow. -/
def execLz4fDecompress (s : State) : Host.Outcome State Fault Refusal :=
  launch 4 buffersRefusal (fun s1 => { s1 with phase := .magic }) s

/-- `LZ4F.MAX` (rule R168). -/
def execLz4fMax (s : State) : Host.Outcome State Fault Refusal :=
  launch 8 launchRefusal (fun s1 => s1.complete (lz4FrameMax s1.params s1.curLen)) s

end Sys2Proof.Machine
end

