-- ==== Sys2Proof/Machine/Snappy.lean ====
section
/-! DEFINITION. Snappy: its encoder, its nine elements, its queries (44_snappy.md). -/

namespace Sys2Proof.Machine

/-! ### Encoder -/

/-- `VarintEncode(v)` (40_varint_length_codecs.md rule R80), for `v` below `128 ^ fuel`. -/
def varintEncode : Nat → Nat → List Byte
  | 0, _ => []
  | fuel + 1, v =>
    if v < 128 then [BitVec.ofNat 8 v] else BitVec.ofNat 8 (v % 128 + 128) :: varintEncode fuel (v / 128)

/-- The shortest class that holds a literal run (44_snappy.md rule R140). -/
def snLiteralOf (lits : List Byte) : Instr :=
  if lits.length - 1 < 60 then .snLit lits
  else if lits.length - 1 < 2 ^ 8 then .snLit1 lits
  else if lits.length - 1 < 2 ^ 16 then .snLit2 lits
  else if lits.length - 1 < 2 ^ 24 then .snLit3 lits
  else .snLit4 lits

/-- `SnEmitLiteral(start, len)` (rule R140). -/
def snEmitLiteral (start len : Nat) (s : State) : Run :=
  emitBytes (encode (snLiteralOf (inBytes s start len))) { s with len := len }

/-- `SnEmitCopy2(offset, len)` (rule R142). -/
def snCopy2Of (offset len : Nat) : Instr := .snCopy2 (BitVec.ofNat 6 (len - 1)) (BitVec.ofNat 16 offset)

/-- `SnEmitCopy1(offset, len)` (rule R141). -/
def snCopy1Of (offset len : Nat) : Instr := .snCopy1 (BitVec.ofNat 3 (len - 4)) (BitVec.ofNat 11 offset)

/-- The copy element for what the chunking leaves, 4 to 64 bytes (rule R143). -/
def snLastCopy (offset len : Nat) : Instr :=
  if len < 12 ∧ offset < 2048 then snCopy1Of offset len else snCopy2Of offset len

/-- The elements of `SnEmitCopy(offset, len)` (rule R143): 64 while the length is at least 68, 60 if it is above 64, the
rest. Each pass shortens the length, so `len` units of fuel are never used up (notes/assumptions/26.md). -/
def snCopies (offset : Nat) : Nat → Nat → List Instr
  | 0, _ => []
  | fuel + 1, len =>
    if 68 ≤ len then snCopy2Of offset 64 :: snCopies offset fuel (len - 64)
    else if 64 < len then [snCopy2Of offset 60, snLastCopy offset (len - 60)]
    else [snLastCopy offset len]

/-- `SnEmitCopy(offset, len)` (rule R143). -/
def snEmitCopy (offset len : Nat) (s : State) : Run :=
  emitBytes ((snCopies offset len len).flatMap encode) { s with offset := BitVec.ofNat 32 offset, len := len }

/-- The scan loop of `SnCompress` (44_snappy.md rule R144). -/
def snScan : Nat → State → Run
  | 0, s => .ok s
  | fuel + 1, s =>
    if s.i + 4 ≤ s.curLen then
      match findMatch snappyMult s with
      | (s1, some c) =>
        let mlen := 4 + matchExtend s1.inMem (c + 4) (s1.i + 4) (s1.curLen - (s1.i + 4))
        (if s1.anchor < s1.i then snEmitLiteral s1.anchor (s1.i - s1.anchor) s1 else .ok s1).andThen fun s2 =>
          (snEmitCopy (s2.i - c) mlen { s2 with mlen := mlen }).andThen fun s3 =>
            snScan fuel { s3 with i := s3.i + mlen, anchor := s3.i + mlen }
      | (s1, none) => snScan fuel { s1 with i := s1.i + 1 }
    else .ok s

/-- `SnCompress()` (rule R144). -/
def snCompressBody (s : State) : Run :=
  (emitBytes (varintEncode 10 s.curLen) { s with op := 0 }).andThen fun s1 =>
    if s1.curLen = 0 then .ok s1
    else if s1.curLen < smallInput then snEmitLiteral 0 s1.curLen s1
    else
      (snScan (s1.curLen + 1) { tableReset s1 with anchor := 0, i := 0 }).andThen fun s2 =>
        if s2.anchor < s2.curLen then snEmitLiteral s2.anchor (s2.curLen - s2.anchor) s2 else .ok s2

/-! ### Decoder -/

/-- `while ip < in_len and op < declared`, and the closing length test (44_snappy.md rules R145, R150). -/
def snLoop (s : State) : Run :=
  if s.ip < s.curLen ∧ s.op < s.declared.toNat then .ok { s with phase := .snTag }
  else if s.op = s.declared.toNat then .ok (s.complete 0)
  else .raise .invalidData s

/-- `SN.LEN` (rule R145): the preamble, and the two limits tested against it. -/
def execSnLen (value : BitVec 32) (nbytes : Nat) (s : State) : Host.Outcome State Fault Refusal :=
  let s1 := { s with declared := value.zeroExtend 64, ip := s.ip + nbytes }
  .next ((if s1.maxOut < value.toNat then Run.raise .outputTooLarge s1
    else if s1.outCap < value.toNat then Run.raise .outputTooSmall s1
    else snLoop { s1 with op := 0 }).settle)

/-- `SnLiteral()` (rule R146) with its tag byte and its number of length bytes, for a literal whose bytes are all
there. -/
def snLiteral (tag : Byte) (lenBytes : Nat) (lits : List Byte) (s : State) : State :=
  let s1 := { s with tag := tag, len := lits.length, ip := s.ip + 1 + lenBytes }
  (if s1.declared.toNat - s1.op < lits.length then Run.raise .invalidData s1
    else snLoop (literalCopy lits s1)).settle

/-- `SN.LIT` (rule R146): the length in the tag. -/
def execSnLit (lits : List Byte) (s : State) : Host.Outcome State Fault Refusal :=
  .next (snLiteral (BitVec.ofNat 8 ((lits.length - 1) * 4)) 0 lits s)

/-- `SN.LIT1` (rule R146). -/
def execSnLit1 (lits : List Byte) (s : State) : Host.Outcome State Fault Refusal :=
  .next (snLiteral 0xF0 1 lits s)

/-- `SN.LIT2` (rule R146). -/
def execSnLit2 (lits : List Byte) (s : State) : Host.Outcome State Fault Refusal :=
  .next (snLiteral 0xF4 2 lits s)

/-- `SN.LIT3` (rule R146). -/
def execSnLit3 (lits : List Byte) (s : State) : Host.Outcome State Fault Refusal :=
  .next (snLiteral 0xF8 3 lits s)

/-- `SN.LIT4` (rule R146). -/
def execSnLit4 (lits : List Byte) (s : State) : Host.Outcome State Fault Refusal :=
  .next (snLiteral 0xFC 4 lits s)

/-- `SnCopyCommon(offset, len)` (rule R147), after the element's `size` bytes: the offset is tested before the
length. -/
def snCopyCommon (tag : Byte) (size : Nat) (offset len : Nat) (s : State) : State :=
  let s1 := { s with tag := tag, len := len, offset := BitVec.ofNat 32 offset, ip := s.ip + size }
  (if offset = 0 ∨ s1.op < offset then Run.raise .invalidData s1
    else if s1.declared.toNat - s1.op < len then Run.raise .invalidData s1
    else snLoop (matchCopy offset len s1)).settle

/-- `SN.COPY1` (rule R147). -/
def execSnCopy1 (lenM4 : BitVec 3) (offset : BitVec 11) (s : State) : Host.Outcome State Fault Refusal :=
  .next (snCopyCommon (BitVec.ofNat 8 (1 + 4 * lenM4.toNat + 32 * (offset.toNat / 256))) 2 offset.toNat
    (4 + lenM4.toNat) s)

/-- `SN.COPY2` (rule R148). -/
def execSnCopy2 (lenM1 : BitVec 6) (offset : BitVec 16) (s : State) : Host.Outcome State Fault Refusal :=
  .next (snCopyCommon (BitVec.ofNat 8 (2 + 4 * lenM1.toNat)) 3 offset.toNat (lenM1.toNat + 1) s)

/-- `SN.COPY4` (rule R149). -/
def execSnCopy4 (lenM1 : BitVec 6) (offset : BitVec 32) (s : State) : Host.Outcome State Fault Refusal :=
  .next (snCopyCommon (BitVec.ofNat 8 (3 + 4 * lenM1.toNat)) 5 offset.toNat (lenM1.toNat + 1) s)

/-! ### Queries -/

/-- `SnMax(n)` (44_snappy.md rule R152). -/
def snMaxSize (p : Params) (n : Nat) : Nat := satadd p (satadd p 32 n) (n / 6)

/-- `SnGetDecompressedSize()` (rule R151): the preamble and nothing else; every failure is `InvalidData`
(40_varint_length_codecs.md rule R81). -/
def snSizeBody (s : State) : State :=
  match readVarint 0 (inBytes s 0 s.curLen) with
  | .ok (v, n, _) => State.complete v { s with ip := n }
  | .error _ => s.fail .invalidData

/-! ### Commands -/

/-- `SN.COMPRESS` (45_commands.md rule R165). -/
def execSnCompress (s : State) : Host.Outcome State Fault Refusal :=
  launch 5 snCompressRefusal (fun s1 => (snCompressBody s1).finish) s

/-- `SN.DECOMPRESS` (rule R166): start `SnDecompress()`; the preamble and the elements are executed by the steps that
follow. -/
def execSnDecompress (s : State) : Host.Outcome State Fault Refusal :=
  launch 6 buffersRefusal (fun s1 => { s1 with phase := .snLen }) s

/-- `SN.MAX` (rule R169). -/
def execSnMax (s : State) : Host.Outcome State Fault Refusal :=
  launch 9 launchRefusal (fun s1 => s1.complete (snMaxSize s1.params s1.curLen)) s

/-- `SN.SIZE` (rule R170). -/
def execSnSize (s : State) : Host.Outcome State Fault Refusal :=
  launch 10 buffersRefusal snSizeBody s

end Sys2Proof.Machine
end

