-- ==== Sys2Proof/Machine/Fetch.lean ====
section
/-! DEFINITION. Fetching the next stream element at `ip` (10_state.md rule R12), and what the engine does when the bytes
there are none (60_exceptions.md rules R181, R183, R189). -/

namespace Sys2Proof.Machine

/-- What one step is: an instruction run in a state, or something that is no instruction. -/
inductive Event
  | run (i : Instr) (s : State)
  | out (o : Host.Outcome State Fault Refusal)

/-- An object that is cut short: `InvalidData` inside the frame header and the Snappy preamble, `UnexpectedEof` anywhere
else (60_exceptions.md rule R189, 90_conflicts.md C5). -/
def cutKind (p : Phase) : ErrKind :=
  match p with
  | .none => .unexpectedEof
  | .block => .unexpectedEof
  | .snLen => .invalidData
  | .snTag => .unexpectedEof
  | .magic => .invalidData
  | .flg => .invalidData
  | .bd => .invalidData
  | .csize => .invalidData
  | .hc => .invalidData
  | .bsw => .unexpectedEof
  | .frameBlock => .unexpectedEof
  | .cchk => .unexpectedEof

/-- The state after the engine met bytes that are no whole element: the part of the element that comes before the
failing test takes effect, then the kind is raised. -/
def badElement (e : DecodeError) (s : State) : State :=
  match e with
  | .reservedCommand => s.fail .illegalCommand
  | .badMagic => s.fail .invalidData
  | .badFlg => s.fail .invalidData
  | .badBd => s.fail .invalidData
  | .badVarint => s.fail .invalidData
  | .cut => s.fail (cutKind s.phase)
  | .cutOffset token lits => lz4CutOffset token lits s
  | .cutMatchExt token lits offset => lz4CutMatchExt token lits offset s

/-- One step of a running decompress command: the element at `ip`. A `BUSY` engine always has a phase (`Safety.lean`), so
the first case arises in no run. -/
def engineEvent (s : State) : Event :=
  match phaseFormat s.phase with
  | none => .out (.next s)
  | some f =>
    match decode f (fetchBytes s) with
    | .ok (i, _) => .run i s
    | .error e => .out (.next (badElement e s))

/-! ### Placing one instruction where the next step fetches it -/

/-- The phase in which an object of the format is fetched. -/
def formatPhase : Format → Phase
  | .cmd8 => .none
  | .lz4Tok => .block
  | .snVarint => .snLen
  | .snTag => .snTag
  | .magic32 => .magic
  | .flg8 => .flg
  | .bd8 => .bd
  | .csize64 => .csize
  | .hc8 => .hc
  | .bsw => .bsw
  | .cchk32 => .cchk

/-- A command: the host's next action is to write its code to `CMD`, and no command is running. -/
def placeCommand (code : Nat) (s : State) : State :=
  { s with
    status := if s.status = .busy then .idle else s.status
    phase := if s.status = .busy then .none else s.phase
    host := .writeReg .cmd code :: s.host }

/-- A stream element: its bytes stand in `IN` at `ip`, a decompress command is running that is about to fetch an object
of this format, and the engine moves next (notes/assumptions/15.md). -/
def placeElement (f : Format) (bytes : List Byte) (s : State) : State :=
  { s with
    status := .busy
    unread := true
    phase := formatPhase f
    host := .tick :: s.host
    inMem := Memory.writeBytes s.inMem s.ip bytes
    inLen := s.ip + bytes.length
    curLen := s.ip + bytes.length
    endIdx := s.ip + bytes.length
    bufs := { s.bufs with inSize := max s.bufs.inSize (s.ip + bytes.length)
                          outSize := max s.bufs.outSize (s.op + 64) }
    outCap := max s.outCap (s.op + 64)
    maxOut := max s.maxOut (s.op + 64)
    declared := if s.op < s.declared.toNat then s.declared else BitVec.ofNat 64 (s.op + 64) }

/-- The word of a format placed where the next step fetches. -/
def placeWord (f : Format) (nbits w : Nat) (s : State) : State :=
  if f = .cmd8 then placeCommand w s else placeElement f (tableBytes nbits w) s

end Sys2Proof.Machine
end

