-- ==== Sys2Proof/Machine/Host.lean ====
section
/-! DEFINITION. What the host and the platform do to the engine (45_commands.md rules R160, R172; 70_reset_and_hazards.md
rules R200, R203, R205), and which of host and engine moves next. -/

namespace Sys2Proof.Machine

/-! ### Reset -/

/-- `OUT[0 .. n-1]` with free bytes (93_implementation_defined.md U4, notes/assumptions/9.md). -/
def freeFill (seed : Nat) : Nat → Memory → Memory
  | 0, m => m
  | n + 1, m => Memory.write (freeFill seed n m) n (Config.freeByte seed n)

/-- The platform's reset (70_reset_and_hazards.md rules R200, R201): the registers take their reset values, the contents
of the buffers are the host's. The spec does not say whether the ranges the host provided survive: that they do is the
model's choice (notes/assumptions/29.md). -/
def hostReset (s : State) : State :=
  { State.resetWith s.params with
    inMem := s.inMem, outMem := s.outMem, bufs := s.bufs, host := s.host, hostData := s.hostData, free := s.free }

/-- A reset that abandons a running command: the contents of `OUT` are then unspecified (rule R200). -/
def abandonReset (s : State) : State :=
  { hostReset s with outMem := freeFill s.free s.outCap s.outMem, free := s.free + 1 }

/-! ### The host's accesses -/

/-- A reserved command code (45_commands.md rule R171): the body is `raise IllegalCommand`, with `IN`, `OUT` and `HT`
untouched. -/
def illegalCommand (code : BitVec 8) (s : State) : State :=
  { (s.start code).fail .illegalCommand with ht := s.ht }

/-- An access of the host to byte `a` of a buffer of `size` bytes: not while `HandsOff` (70_reset_and_hazards.md rule
R205), and only to a byte that exists. A range longer than `2^SIZE_BITS` bytes is accepted, and its bytes at indices of
`2^SIZE_BITS` and above exist for the host alone: the model's choice (notes/assumptions/28.md). -/
def hostAccess (size a : Nat) (s s' : State) : Host.Outcome State Fault Refusal :=
  if HandsOff s then .refused .hostWhileBusy
  else if a < size then .next s'
  else .fault .noSuchByte

/-- The host's write of `v` to `CMD` (45_commands.md rules R160, R171, R172). -/
def hostCommand (v : Nat) (s : State) : Event :=
  if s.status = .busy then .out (.next s)
  else
    match decodeCommand (BitVec.ofNat 8 v) with
    | some i => .run i s
    | none => .out (.next (illegalCommand (BitVec.ofNat 8 v) s))

/-- The host's write of `v` to `CMD`, cut short by a reset. A launch the model refuses is refused here too. -/
def hostAbandon (v : Nat) (s : State) : Host.Outcome State Fault Refusal :=
  if s.status = .busy then .next (abandonReset s)
  else
    match decodeCommand (BitVec.ofNat 8 v) with
    | none => .next (abandonReset s)
    | some i =>
      match commandRefusal i s with
      | some r => .refused r
      | none => .next (abandonReset s)

/-- The host's write to a register other than `CMD`: an argument register not while `HandsOff` (rule R205), a read-only
one at any time, without effect (45_commands.md rule R172). -/
def hostWriteReg (r : Reg) (v : Nat) (s : State) : Host.Outcome State Fault Refusal :=
  if HandsOff s ∧ isArgReg r = true then .refused .hostWhileBusy else .next (writeArg r v s)

/-- The host reads a register, always allowed (70_reset_and_hazards.md rule R205). A read of `STATUS` that returns
something else than `BUSY` ends the time in which its hands are off. -/
def hostRead (r : Reg) (s : State) : State :=
  { s with
    hostData := readReg r s
    unread := if r = .status ∧ s.status ≠ .busy then false else s.unread }

/-- One action of the host. `tick` and `poll` are `nextEvent`'s. What the host's own accesses do while the ranges it
provided overlap is unspecified (20_memory.md rule R35): that they are accepted, and that `IN` and `OUT` are two independent
arrays all the same, is the model's choice (notes/assumptions/30.md). -/
def hostAct (a : HostAction) (s : State) : Event :=
  match a with
  | .writeReg r v => if r = .cmd then hostCommand v s else .out (hostWriteReg r v s)
  | .readReg r => .out (.next (hostRead r s))
  | .writeIn k b => .out (hostAccess s.bufs.inSize k s { s with inMem := Memory.write s.inMem k b })
  | .readIn k => .out (hostAccess s.bufs.inSize k s { s with hostData := (Memory.read s.inMem k).toNat })
  | .writeOut k b => .out (hostAccess s.bufs.outSize k s { s with outMem := Memory.write s.outMem k b })
  | .readOut k => .out (hostAccess s.bufs.outSize k s { s with hostData := (Memory.read s.outMem k).toNat })
  | .provide inBase inSize outBase outSize =>
    .out (if HandsOff s then .refused .hostWhileBusy
      else .next { s with bufs := { inBase := inBase, inSize := inSize, outBase := outBase, outSize := outSize } })
  | .reset => .out (.next (if s.status = .busy then abandonReset s else hostReset s))
  | .abandon v => .out (hostAbandon v s)
  | .tick => .out (.next s)
  | .poll => .out (.next s)

/-- The engine's turn: one element if a command is running; an idle engine waits (60_exceptions.md rule R197). -/
def engineTurn (s : State) : Event :=
  if s.status = .busy then engineEvent s else .out (.next s)

/-- Which event the step is (notes/assumptions/19.md): the host's oldest pending action, except that the engine moves at
a `tick`, at a `poll` while `BUSY` (the `poll` stays), and when nothing is pending. A `poll` while not `BUSY` is the read
of `STATUS` that ends the host's wait. -/
def nextEvent (s : State) : Event :=
  match s.host with
  | [] => engineTurn s
  | .tick :: r => engineTurn { s with host := r }
  | .poll :: r => if s.status = .busy then engineEvent s else .out (.next (hostRead .status { s with host := r }))
  | a :: r => hostAct a { s with host := r }

end Sys2Proof.Machine
end

