-- ==== Sys2Proof/Machine/Dispatch.lean ====
section
/-! DEFINITION. One arm per instruction, each one call of its meaning. -/

namespace Sys2Proof.Machine

def exec (i : Instr) (s : State) : Host.Outcome State Fault Refusal :=
  match i with
  | .lz4bCompress => Sys2Proof.Machine.execLz4bCompress s
  | .lz4bDecompress => Sys2Proof.Machine.execLz4bDecompress s
  | .lz4fCompress => Sys2Proof.Machine.execLz4fCompress s
  | .lz4fDecompress => Sys2Proof.Machine.execLz4fDecompress s
  | .snCompress => Sys2Proof.Machine.execSnCompress s
  | .snDecompress => Sys2Proof.Machine.execSnDecompress s
  | .lz4bMax => Sys2Proof.Machine.execLz4bMax s
  | .lz4fMax => Sys2Proof.Machine.execLz4fMax s
  | .snMax => Sys2Proof.Machine.execSnMax s
  | .snSize => Sys2Proof.Machine.execSnSize s
  | .lz4Seq lits offset mlen => Sys2Proof.Machine.execLz4Seq lits offset mlen s
  | .lz4Last ml lits => Sys2Proof.Machine.execLz4Last ml lits s
  | .snLen value nbytes => Sys2Proof.Machine.execSnLen value nbytes s
  | .snLit lits => Sys2Proof.Machine.execSnLit lits s
  | .snLit1 lits => Sys2Proof.Machine.execSnLit1 lits s
  | .snLit2 lits => Sys2Proof.Machine.execSnLit2 lits s
  | .snLit3 lits => Sys2Proof.Machine.execSnLit3 lits s
  | .snLit4 lits => Sys2Proof.Machine.execSnLit4 lits s
  | .snCopy1 lenM4 offset => Sys2Proof.Machine.execSnCopy1 lenM4 offset s
  | .snCopy2 lenM1 offset => Sys2Proof.Machine.execSnCopy2 lenM1 offset s
  | .snCopy4 lenM1 offset => Sys2Proof.Machine.execSnCopy4 lenM1 offset s
  | .lz4fMagic => Sys2Proof.Machine.execLz4fMagic s
  | .lz4fFlg bIndep cSize cChecksum => Sys2Proof.Machine.execLz4fFlg bIndep cSize cChecksum s
  | .lz4fBd classM4 => Sys2Proof.Machine.execLz4fBd classM4 s
  | .lz4fCsize size => Sys2Proof.Machine.execLz4fCsize size s
  | .lz4fHc hc => Sys2Proof.Machine.execLz4fHc hc s
  | .lz4fEnd => Sys2Proof.Machine.execLz4fEnd s
  | .lz4fBlock blen => Sys2Proof.Machine.execLz4fBlock blen s
  | .lz4fStored blen => Sys2Proof.Machine.execLz4fStored blen s
  | .lz4fCchk checksum => Sys2Proof.Machine.execLz4fCchk checksum s

end Sys2Proof.Machine
end

