-- ==== Sys2Proof/Machine/Step.lean ====
section
/-! DEFINITION. One step of the machine: the next event, and the instruction it is, if it is one. -/

namespace Sys2Proof.Machine

/-- One step: an instruction that was fetched is run; what is no instruction is done already. -/
def step (s : State) : Host.Outcome State Fault Refusal :=
  match nextEvent s with
  | .run i s' => exec i s'
  | .out o => o

/-- `s` with the table word `w` of `nbits` bits placed where the next step fetches its instruction. -/
def State.withFetchWord (s : State) (nbits w : Nat) : State :=
  match tableFormat nbits w with
  | none => s
  | some f => placeWord f nbits w s

end Sys2Proof.Machine
end

