-- ==== Sys2Proof/Safety.lean ====
section
/-! DEFINITION. The terms claims are stated in: what a command may be launched with, what stays as it was, and the
invariants of a run. -/

namespace Sys2Proof.Machine

/-! ### Launching -/

/-- The host keeps rule R203's contract for a command that reads `IN`: no command runs, the buffers are disjoint and as long
as the two registers say (20_memory.md rule R35, 70_reset_and_hazards.md rule R206). -/
abbrev Launchable (s : State) : Prop :=
  s.status ≠ .busy ∧ buffersOverlap s.bufs = false ∧ s.inLen ≤ s.bufs.inSize ∧ s.outCap ≤ s.bufs.outSize

/-- The table's cells are wide enough for every position of the input (rule R206). -/
abbrev CellsHoldPositions (s : State) : Prop :=
  s.params.sizeBits ≤ s.params.posBits ∨ s.inLen < 2 ^ s.params.posBits - 1

/-! ### Who moves -/

/-- The engine's turn comes in `s` while a command is running, and it moves from `s0`: nothing is pending, or a `tick` that
is used up, or a `poll` that stays (notes/assumptions/19.md). -/
abbrev EngineMoves (s s0 : State) : Prop :=
  s.status = .busy ∧
    ((s.host = [] ∧ s0 = s) ∨ (∃ r, s.host = .tick :: r ∧ s0 = { s with host := r }) ∨ (∃ r, s.host = .poll :: r ∧ s0 = s))

/-! ### What an operation leaves as it was -/

/-- Every byte of `OUT` outside `[lo, hi)` reads as before. -/
abbrev OutSameOutside (lo hi : Nat) (s t : State) : Prop :=
  ∀ a, a < lo ∨ hi ≤ a → Memory.read t.outMem a = Memory.read s.outMem a

/-- `OUT` holds the bytes from `lo` on. -/
abbrev OutHolds (lo : Nat) (bytes : List Byte) (t : State) : Prop :=
  ∀ k, k < bytes.length → Memory.read t.outMem (lo + k) = bytes.getD k 0

/-- Every byte of `OUT` in `[lo, lo + n)` equals the byte `offset` places before it (41_match_finder.md rule R97). -/
abbrev OutRepeats (lo offset n : Nat) (t : State) : Prop :=
  ∀ k, k < n → Memory.read t.outMem (lo + k) = Memory.read t.outMem (lo + k - offset)

/-- Everything the host owns or sets but `CMD` is as before: parameters, argument registers, `IN`, the ranges, the pending
actions, what its last read returned. -/
abbrev OperandsSame (s t : State) : Prop :=
  t.params = s.params ∧ t.inLen = s.inLen ∧ t.outCap = s.outCap ∧ t.maxOut = s.maxOut ∧ t.opts = s.opts ∧
  t.contentSize = s.contentSize ∧ t.inMem = s.inMem ∧ t.bufs = s.bufs ∧ t.host = s.host ∧ t.hostData = s.hostData

/-- `CMD` is as before too (45_commands.md rule R175), and so is what the host knows of `STATUS`. -/
abbrev HostSideSame (s t : State) : Prop := t.cmd = s.cmd ∧ t.unread = s.unread ∧ OperandsSame s t

/-- Every byte of `OUT` reads as before. -/
abbrev OutSame (s t : State) : Prop := ∀ a, Memory.read t.outMem a = Memory.read s.outMem a

/-- The engine raised a kind (60_exceptions.md rule R187). -/
abbrev Raised (k : ErrKind) (t : State) : Prop :=
  t.status = .error ∧ t.err = some k ∧ t.outLen = 0 ∧ t.result = 0 ∧ t.phase = .none

/-- The command ended normally with `n` bytes produced and the query's result `res` (45_commands.md rule R160). -/
abbrev Completed (n res : Nat) (t : State) : Prop :=
  t.status = .done ∧ t.err = none ∧ t.outLen = n ∧ t.result = res ∧ t.phase = .none

/-- The instruction is a stream element, not a host command. -/
abbrev IsElement (i : Instr) : Prop := i.format ≠ .cmd8

/-- The instruction is one of the three compress commands. -/
abbrev IsCompress (i : Instr) : Prop := i = .lz4bCompress ∨ i = .lz4fCompress ∨ i = .snCompress

/-! ### Invariants -/

/-- The memories are in canonical form. -/
abbrev MemoriesCanonical (s : State) : Prop :=
  Memory.wf s.inMem ∧ Memory.wf s.outMem ∧ HashTable.wf s.ht

/-- A decompress command is at some place of its pseudocode exactly while `STATUS = BUSY`. -/
abbrev StatusMatchesPhase (s : State) : Prop := s.status = .busy ↔ s.phase ≠ .none

/-- While a command executes the host's hands are off (70_reset_and_hazards.md rule R205). -/
abbrev BusyIsHandsOff (s : State) : Prop := s.status = .busy → s.unread = true

/-- The registers of `SIZE_BITS` bits hold values of `SIZE_BITS` bits (10_state.md rule R17). -/
abbrev RegistersFit (s : State) : Prop :=
  s.inLen ≤ s.params.sizeMax ∧ s.outCap ≤ s.params.sizeMax ∧ s.maxOut ≤ s.params.sizeMax ∧
  s.outLen ≤ s.params.sizeMax ∧ s.result ≤ s.params.sizeMax

/-- The cursors of a running decompress command are within their bounds (10_state.md rules R12, R13, 20_memory.md rules
R37, R39, 44_snappy.md rule R145). -/
abbrev CursorsInBounds (s : State) : Prop :=
  s.status = .busy →
    s.curLen = s.inLen ∧ s.ip ≤ s.curLen ∧ s.op ≤ s.outCap ∧ s.op ≤ s.maxOut ∧
    (s.phase = .block ∨ s.phase = .frameBlock → s.ip < s.endIdx ∧ s.endIdx ≤ s.curLen ∧ s.base ≤ s.op) ∧
    (s.phase = .snTag → s.ip < s.curLen ∧ s.op < s.declared.toNat ∧
      s.declared.toNat ≤ s.outCap ∧ s.declared.toNat ≤ s.maxOut)

/-- `ERR`, `OUT_LEN` and `RESULT` agree with `STATUS` (10_state.md rules R19, R20, R24). -/
abbrev ResultsConsistent (s : State) : Prop :=
  (s.status = .idle → s.err = none ∧ s.outLen = 0 ∧ s.result = 0) ∧ (s.status = .done → s.err = none) ∧
  (s.status = .error → s.err ≠ none ∧ s.outLen = 0 ∧ s.result = 0)

/-- Some byte of the system's address space belongs to both ranges (20_memory.md rule R35). -/
abbrev SomeByteInBoth (b : Buffers) : Prop :=
  ∃ a, b.inBase ≤ a ∧ a < b.inBase + b.inSize ∧ b.outBase ≤ a ∧ a < b.outBase + b.outSize

/-- The input length a compress command may not be launched with because of the table's cells (70_reset_and_hazards.md
rule R206). -/
abbrev TooLongForCells (s : State) : Prop :=
  s.params.posBits < s.params.sizeBits ∧ 2 ^ s.params.posBits - 1 ≤ s.inLen

/-- Two engines in the middle of the same decompress command that agree in all that command may depend on: where it is,
its limits, the rest of its input and its output so far (10_state.md rule R29). -/
abbrev DecompressAgree (s u : State) : Prop :=
  s.status = .busy ∧ u.status = .busy ∧ u.phase = s.phase ∧ u.ip = s.ip ∧ u.op = s.op ∧ u.curLen = s.curLen ∧
  u.endIdx = s.endIdx ∧ u.base = s.base ∧ u.flg = s.flg ∧ u.hdrLen = s.hdrLen ∧ u.declared = s.declared ∧
  u.outCap = s.outCap ∧ u.maxOut = s.maxOut ∧
  (∀ a, a < s.curLen → Memory.read u.inMem a = Memory.read s.inMem a) ∧
  (∀ a, a < s.op → Memory.read u.outMem a = Memory.read s.outMem a)

/-- The invariant of every run. -/
abbrev Inv (s : State) : Prop :=
  s.params.Admissible ∧ MemoriesCanonical s ∧ StatusMatchesPhase s ∧ BusyIsHandsOff s ∧ RegistersFit s ∧ CursorsInBounds s

end Sys2Proof.Machine
end

