-- ==== Sys2Proof/Certificates/Slice0/Obligations.lean ====
section
/-! DEFINITION. The statements for the provers, each from the numbered rules of spec/. -/

open Sys2Proof Sys2Proof.Machine

/-! ### Encoding -/

/-- Words written out from the tables of 30_encoding.md decode to what they stand for: at least one of every family. -/
def Obligations.SpecWordsDecode : Prop :=
  decode .cmd8 [10] = .ok (.snSize, []) ∧
  decode .lz4Tok [0x1F, 0x41, 0x01, 0x00, 0xFF, 0x7D, 0x00] = .ok (.lz4Seq [0x41] 1 399, [0x00]) ∧
  decode .lz4Tok [0x10, 0x58] = .ok (.lz4Last 0 [0x58], []) ∧
  decode .snVarint [0x90, 0x03, 0x00] = .ok (.snLen 400 2, [0x00]) ∧
  decode .snTag [0x08, 0x61, 0x62, 0x63] = .ok (.snLit [0x61, 0x62, 0x63], []) ∧
  decode .snTag [0xF4, 0x01, 0x00, 0x61, 0x62] = .ok (.snLit2 [0x61, 0x62], []) ∧
  decode .snTag [0xFD, 0xFF] = .ok (.snCopy1 7 2047, []) ∧
  decode .snTag [0x0E, 0x00, 0x08] = .ok (.snCopy2 3 2048, []) ∧
  decode .snTag [0x0F, 0x04, 0x00, 0x00, 0x00] = .ok (.snCopy4 3 4, []) ∧
  decode .magic32 [0x04, 0x22, 0x4D, 0x18] = .ok (.lz4fMagic, []) ∧
  decode .flg8 [0x64] = .ok (.lz4fFlg true false true, []) ∧
  decode .bd8 [0x70] = .ok (.lz4fBd 3, []) ∧
  decode .bsw [0x07, 0x00, 0x00, 0x00] = .ok (.lz4fBlock 7, []) ∧
  decode .bsw [0x00, 0x00, 0x00, 0x80] = .ok (.lz4fStored 0, []) ∧
  decode .cchk32 [0x68, 0xE0, 0xD0, 0xB1] = .ok (.lz4fCchk 0xB1D0E068, [])

/-- Decoding the words of a well-formed instruction gives it back, with every operand, and leaves the bytes after it
(30_encoding.md rule R73). The last sequence of a block is the last by its position alone (rule R55), so nothing may
follow it. -/
def Obligations.DecodeInvertsEncode : Prop :=
  ∀ (i : Instr) (rest : List Byte), i.wf = true → (∀ ml lits, i = .lz4Last ml lits → rest = []) →
    decode i.format (encode i ++ rest) = .ok (i, rest)

/-- What the decoder reads is well formed, of the format it was read in, and the encoder writes the very bytes it was read
from: no bit of an accepted object is ignored (30_encoding.md rules R51 to R72, R75). -/
def Obligations.EncodeInvertsDecode : Prop :=
  ∀ (f : Format) (bytes : List Byte) (i : Instr) (rest : List Byte), decode f bytes = .ok (i, rest) →
    i.format = f ∧ i.wf = true ∧ encode i ++ rest = bytes

/-- Which bytes are no instruction of their format (30_encoding.md rules R74 to R77). -/
def Obligations.ReservedEncodingsRejected : Prop :=
  (∀ b r, (∃ i, decode .cmd8 (b :: r) = .ok (i, r)) ↔ 1 ≤ b.toNat ∧ b.toNat ≤ 10) ∧
  (∀ b r, (∃ i, decode .flg8 (b :: r) = .ok (i, r)) ↔
    b.toNat / 64 = 1 ∧ b.getLsbD 4 = false ∧ b.getLsbD 1 = false ∧ b.getLsbD 0 = false) ∧
  (∀ b r, decode .flg8 (b :: r) ≠ .error .badFlg → ∃ i, decode .flg8 (b :: r) = .ok (i, r)) ∧
  (∀ b r, (∃ i, decode .bd8 (b :: r) = .ok (i, r)) ↔ b = 0x40 ∨ b = 0x50 ∨ b = 0x60 ∨ b = 0x70) ∧
  (∀ b r, decode .bd8 (b :: r) ≠ .error .badBd → ∃ i, decode .bd8 (b :: r) = .ok (i, r)) ∧
  (∀ b0 b1 b2 b3 r, decode .magic32 (b0 :: b1 :: b2 :: b3 :: r) =
    if b0 = 0x04 ∧ b1 = 0x22 ∧ b2 = 0x4D ∧ b3 = 0x18 then .ok (.lz4fMagic, r) else .error .badMagic)

/-- The round trips of the two length codecs (40_varint_length_codecs.md rule R84). -/
def Obligations.LengthCodecLaws : Prop :=
  (∀ v rest, v < 2 ^ 32 →
    readVarint 0 (varintEncode 10 v ++ rest) = .ok (v, (varintEncode 10 v).length, rest)) ∧
  (∀ r rest, readLz4LenExt (lz4LenExt r ++ rest) = some (r, rest)) ∧
  (∀ bytes r, readLz4LenExt bytes = some (r, []) → bytes = lz4LenExt r) ∧
  (∃ b c, b ≠ c ∧ ∃ v m n, readVarint 0 b = .ok (v, m, []) ∧ readVarint 0 c = .ok (v, n, [])) ∧
  (∀ v rest, 2 ^ 32 ≤ v → v < 2 ^ 64 →
    5 ≤ (varintEncode 10 v).length ∧ (varintEncode 10 v).length ≤ 10 ∧
    readVarint 0 (varintEncode 10 v ++ rest) = .error .badVarint) ∧
  (∀ s : State, s.status ≠ .busy → 2 ^ 32 ≤ s.inLen → exec .snCompress s = .refused .inputTooLong)

/-! ### A step runs what was fetched -/

/-- A step runs the element that stands at `ip` (10_state.md rule R12), whether the engine moves because nothing is
pending, at a `tick` (which is used up) or at a `poll` (which stays, 70_reset_and_hazards.md rule R203); and it runs the
command whose code the host writes to `CMD` (10_state.md rule R18). The interleaving is the model's
(notes/assumptions/19.md). -/
def Obligations.StepRunsDecodedInstruction : Prop :=
  (∀ (s : State) (f : Format) (i : Instr) (rest : List Byte), s.status = .busy → phaseFormat s.phase = some f →
    decode f (fetchBytes s) = .ok (i, rest) →
      (s.host = [] → step s = exec i s) ∧
      (∀ r, s.host = .tick :: r → step s = exec i { s with host := r }) ∧
      (∀ r, s.host = .poll :: r → step s = exec i s)) ∧
  (∀ (s : State) (v : Nat) (i : Instr) (r : List HostAction), s.status ≠ .busy → s.host = .writeReg .cmd v :: r →
    decode .cmd8 [BitVec.ofNat 8 v] = .ok (i, []) → step s = exec i { s with host := r })

/-- Bytes that are cut short or are no object of their format (60_exceptions.md rule R189), whenever the engine moves: a
cut header field or preamble and every refused value is `InvalidData`, any other cut object is `UnexpectedEof`;
nothing is written. An LZ4 sequence cut after its literals, whose literals are written first, is excepted, and is
`Obligations.CutSequenceEffects`. What `OUT` holds after the error is as 20_memory.md rule R46 says (notes/assumptions/8.md). -/
def Obligations.BadObjectKind : Prop :=
  ∀ (s s0 : State) (f : Format) (e : DecodeError), EngineMoves s s0 → phaseFormat s.phase = some f →
    decode f (fetchBytes s) = .error e →
      (e = .cut → ∃ t, step s = .next t ∧ HostSideSame s0 t ∧ OutSame s t ∧
        Raised (if s.phase = .snLen ∨ s.phase = .magic ∨ s.phase = .flg ∨ s.phase = .bd ∨ s.phase = .csize ∨
          s.phase = .hc then .invalidData else .unexpectedEof) t) ∧
      (e = .badMagic ∨ e = .badFlg ∨ e = .badBd ∨ e = .badVarint →
        ∃ t, step s = .next t ∧ HostSideSame s0 t ∧ OutSame s t ∧ Raised .invalidData t)

/-- An LZ4 sequence cut after its literals (42_lz4_block.md rules R108, R113, 60_exceptions.md rule R190), whenever the
engine moves: the literals are tested and copied first; where the offset is complete it is tested before the missing
extension is. What `OUT` holds after the error is as 20_memory.md rule R46 says (notes/assumptions/8.md). -/
def Obligations.CutSequenceEffects : Prop :=
  ∀ (s s0 : State) (token : Byte) (lits : List Byte) (offset : BitVec 16), EngineMoves s s0 →
    phaseFormat s.phase = some .lz4Tok → Memory.wf s.outMem →
    let n := lits.length
    let literals (last : ErrKind) (t : State) : Prop :=
      if s.maxOut - s.op < n then Raised .outputTooLarge t ∧ OutSame s t
      else if s.outCap - s.op < n then Raised .outputTooSmall t ∧ OutSame s t
      else Raised last t ∧ OutHolds s.op lits t ∧ OutSameOutside s.op (s.op + n) s t
    (decode .lz4Tok (fetchBytes s) = .error (.cutOffset token lits) →
      ∃ t, step s = .next t ∧ HostSideSame s0 t ∧ literals .unexpectedEof t) ∧
    (decode .lz4Tok (fetchBytes s) = .error (.cutMatchExt token lits offset) →
      ∃ t, step s = .next t ∧ HostSideSame s0 t ∧
        literals (if offset = 0 ∨ s.op + n - s.base < offset.toNat then .invalidData else .unexpectedEof) t)

/-! ### Reset and host -/

/-- After reset the ten registers read as the table of 70_reset_and_hazards.md rule R201 says, and the buffers are not
changed. -/
def Obligations.ResetShowsTheTable : Prop :=
  ∀ (s : State) (r : List HostAction), s.status ≠ .busy → s.host = .reset :: r →
    ∃ t, step s = .next t ∧ t.inMem = s.inMem ∧ t.outMem = s.outMem ∧ t.host = r ∧
      readReg .cmd t = 0 ∧ readReg .status t = 0 ∧ readReg .err t = 0 ∧ readReg .inLen t = 0 ∧
      readReg .outCap t = 0 ∧ readReg .maxOut t = 2 ^ s.params.sizeBits - 1 ∧ readReg .opts t = 1 ∧
      readReg .contentSize t = 0 ∧ readReg .outLen t = 0 ∧ readReg .result t = 0

/-- A reset during a command abandons it (70_reset_and_hazards.md rule R200): the registers are reset, `IN` is unchanged,
`OUT` is unspecified below `OUT_CAP` alone. The same of a one-step command cut short, which is the model's `abandon`
(notes/assumptions/10.md). -/
def Obligations.ResetDuringCommand : Prop :=
  ∀ (s : State) (r : List HostAction),
    let after (t : State) : Prop :=
      t.inMem = s.inMem ∧ (∀ a, s.outCap ≤ a → Memory.read t.outMem a = Memory.read s.outMem a) ∧ t.host = r ∧
      t.status = .idle ∧ t.err = none ∧ t.cmd = 0 ∧ t.inLen = 0 ∧ t.outCap = 0 ∧ t.maxOut = s.params.sizeMax ∧
      t.opts = 1 ∧ t.contentSize = 0 ∧ t.outLen = 0 ∧ t.result = 0
    (s.status = .busy → s.host = .reset :: r → ∃ t, step s = .next t ∧ after t) ∧
    (∀ v i, s.status ≠ .busy → s.host = .abandon v :: r → decodeCommand (BitVec.ofNat 8 v) = some i →
      commandRefusal i { s with host := r } = none → ∃ t, step s = .next t ∧ after t)

/-- The state after reset meets the invariant every step keeps. -/
def Obligations.ResetMeetsInvariant : Prop :=
  Inv State.reset ∧ ResultsConsistent State.reset ∧ ∀ p : Params, p.Admissible → Inv (State.resetWith p)

/-- A write to `CMD` while `BUSY`, and a write to a read-only register at any time, changes nothing
(45_commands.md rule R172); a write to another register from the start of a command until the host has read
`STATUS != BUSY` breaks the host's contract and the model refuses it (70_reset_and_hazards.md rule R205). -/
def Obligations.IgnoredWrites : Prop :=
  ∀ (s : State) (v : Nat) (r : List HostAction),
    (s.status = .busy → s.host = .writeReg .cmd v :: r → step s = .next { s with host := r }) ∧
    (∀ q, q = .status ∨ q = .err ∨ q = .outLen ∨ q = .result → s.host = .writeReg q v :: r →
      step s = .next { s with host := r }) ∧
    (∀ q, q = .inLen ∨ q = .outCap ∨ q = .maxOut ∨ q = .opts ∨ q = .contentSize → HandsOff s →
      s.host = .writeReg q v :: r → step s = .refused .hostWhileBusy)

/-- A reserved command code ends with `IllegalCommand` and touches neither `IN` nor `OUT` nor `HT`
(45_commands.md rule R171). -/
def Obligations.ReservedCommandCodes : Prop :=
  ∀ (s : State) (v : Nat) (r : List HostAction), s.status ≠ .busy → s.host = .writeReg .cmd v :: r →
    v % 256 = 0 ∨ 11 ≤ v % 256 →
    ∃ t, step s = .next t ∧ Raised .illegalCommand t ∧ (errCode t.err).toNat = 7 ∧ t.status.code.toNat = 3 ∧
      t.cmd = BitVec.ofNat 8 v ∧ OperandsSame { s with host := r } t ∧ t.outMem = s.outMem ∧ t.ht = s.ht

/-- A write to an argument register by a host whose hands are not off keeps the register's own bits and changes nothing
else (10_state.md rules R17, R21, R22, R23). -/
def Obligations.ArgumentWrites : Prop :=
  ∀ (s : State) (v : Nat) (r : List HostAction), ¬ HandsOff s →
    (s.host = .writeReg .inLen v :: r → step s = .next { s with host := r, inLen := v % 2 ^ s.params.sizeBits }) ∧
    (s.host = .writeReg .outCap v :: r → step s = .next { s with host := r, outCap := v % 2 ^ s.params.sizeBits }) ∧
    (s.host = .writeReg .maxOut v :: r → step s = .next { s with host := r, maxOut := v % 2 ^ s.params.sizeBits }) ∧
    (s.host = .writeReg .opts v :: r → step s = .next { s with host := r, opts := BitVec.ofNat 2 v }) ∧
    (s.host = .writeReg .contentSize v :: r → step s = .next { s with host := r, contentSize := BitVec.ofNat 64 v })

/-- A register read is always allowed and returns the register, the upper bits of a narrow one being 0 (10_state.md rules
R17, R19, R20, 60_exceptions.md rule R180, 70_reset_and_hazards.md rule R205); a read of `STATUS` that is not `BUSY` ends
the time in which the host's hands are off. Where the value goes is the model's (notes/assumptions/20.md). -/
def Obligations.RegisterReads : Prop :=
  ∀ (s : State) (q : Reg) (r : List HostAction), s.host = .readReg q :: r →
    step s = .next { s with host := r, unread := if q = .status ∧ s.status ≠ .busy then false else s.unread, hostData :=
      match q with
      | .cmd => s.cmd.toNat
      | .status => match s.status with | .idle => 0 | .busy => 1 | .done => 2 | .error => 3
      | .err => match s.err with
        | none => 0 | some .invalidData => 1 | some .checksumMismatch => 2 | some .unexpectedEof => 3
        | some .outputTooSmall => 4 | some .outputTooLarge => 5 | some .outOfMemory => 6 | some .illegalCommand => 7
      | .inLen => s.inLen
      | .outCap => s.outCap
      | .maxOut => s.maxOut
      | .opts => s.opts.toNat
      | .contentSize => s.contentSize.toNat
      | .outLen => s.outLen
      | .result => s.result }

/-- The host and the buffers (10_state.md rule R27, 20_memory.md rule R35, 70_reset_and_hazards.md rules R203, R205). A
byte that exists is read or written and nothing else changes; providing the two ranges changes exactly them
(notes/assumptions/6.md). From the start of a command until the host has read `STATUS != BUSY` the model refuses either
(notes/assumptions/12.md). An access to a byte that does not exist is the model's fault (notes/assumptions/11.md). The
statement also covers what the spec leaves open and the model chose: ranges longer than `2^SIZE_BITS` bytes and their bytes
at indices of `2^SIZE_BITS` and above (rule R27, notes/assumptions/28.md), and overlapping ranges, whose bytes are accessed
as those of two independent arrays (rule R35, notes/assumptions/30.md). -/
def Obligations.HostBufferAccess : Prop :=
  (∀ (s : State) (ranges : Buffers) (r : List HostAction),
    s.host = .provide ranges.inBase ranges.inSize ranges.outBase ranges.outSize :: r →
    (¬ HandsOff s → step s = .next { s with host := r, bufs := ranges }) ∧
    (HandsOff s → step s = .refused .hostWhileBusy)) ∧
  ∀ (s : State) (a : Nat) (b : Byte) (r : List HostAction),
    (¬ HandsOff s → a < s.bufs.inSize →
      (s.host = .writeIn a b :: r → step s = .next { s with host := r, inMem := Memory.write s.inMem a b }) ∧
      (s.host = .readIn a :: r → step s = .next { s with host := r, hostData := (Memory.read s.inMem a).toNat })) ∧
    (¬ HandsOff s → a < s.bufs.outSize →
      (s.host = .writeOut a b :: r → step s = .next { s with host := r, outMem := Memory.write s.outMem a b }) ∧
      (s.host = .readOut a :: r → step s = .next { s with host := r, hostData := (Memory.read s.outMem a).toNat })) ∧
    (¬ HandsOff s → s.bufs.inSize ≤ a → s.host = .writeIn a b :: r ∨ s.host = .readIn a :: r →
      step s = .fault .noSuchByte) ∧
    (¬ HandsOff s → s.bufs.outSize ≤ a → s.host = .writeOut a b :: r ∨ s.host = .readOut a :: r →
      step s = .fault .noSuchByte) ∧
    (HandsOff s →
      s.host = .writeIn a b :: r ∨ s.host = .readIn a :: r ∨ s.host = .writeOut a b :: r ∨ s.host = .readOut a :: r →
      step s = .refused .hostWhileBusy)

/-- The host's hands are off from its write to `CMD`, of whatever code, until it has read `STATUS != BUSY`
(20_memory.md rule R41, 70_reset_and_hazards.md rule R205): a write that starts something takes them off, nothing but that
read or a reset (notes/assumptions/27.md) puts them on again, that read does, and they are off all the time a command
executes. -/
def Obligations.HandsOffUntilStatusRead : Prop :=
  (∀ (s t : State) (v : Nat) (r : List HostAction), s.status ≠ .busy → s.host = .writeReg .cmd v :: r →
    step s = .next t → HandsOff t) ∧
  (∀ s t : State, BusyIsHandsOff s → HandsOff s → step s = .next t → ¬ HandsOff t →
    (s.status ≠ .busy ∧ ∃ r, s.host = .readReg .status :: r ∨ s.host = .poll :: r) ∨
    (∃ r, s.host = .reset :: r) ∨ (∃ v r, s.host = .abandon v :: r)) ∧
  (∀ (s : State) (r : List HostAction), s.status ≠ .busy → s.host = .readReg .status :: r ∨ s.host = .poll :: r →
    ∃ t, step s = .next t ∧ ¬ HandsOff t) ∧
  (∀ s t : State, BusyIsHandsOff s → step s = .next t → BusyIsHandsOff t)

/-! ### Commands -/

/-- What a command may not be launched with (70_reset_and_hazards.md rule R206; 20_memory.md rule R35, which binds all ten
commands): exactly then the model refuses, and a launch while `BUSY` is ignored (45_commands.md rule R172). Which of
the limits bind which command is in notes/assumptions/13.md. -/
def Obligations.LaunchLimits : Prop :=
  ∀ s : State,
    let bad : Prop := SomeByteInBoth s.bufs ∨ s.bufs.inSize < s.inLen ∨ s.bufs.outSize < s.outCap
    (s.status ≠ .busy →
      ((∃ r, exec .lz4bCompress s = .refused r) ↔ bad ∨ TooLongForCells s) ∧
      ((∃ r, exec .lz4fCompress s = .refused r) ↔ bad ∨ TooLongForCells s ∨ 0x7E000000 < s.inLen) ∧
      ((∃ r, exec .snCompress s = .refused r) ↔ bad ∨ TooLongForCells s ∨ 2 ^ 32 ≤ s.inLen) ∧
      ((∃ r, exec .lz4bDecompress s = .refused r) ↔ bad) ∧
      ((∃ r, exec .lz4fDecompress s = .refused r) ↔ bad) ∧
      ((∃ r, exec .snDecompress s = .refused r) ↔ bad) ∧
      ((∃ r, exec .snSize s = .refused r) ↔ bad) ∧
      ((∃ r, exec .lz4bMax s = .refused r) ↔ SomeByteInBoth s.bufs ∨ s.bufs.outSize < s.outCap) ∧
      ((∃ r, exec .lz4fMax s = .refused r) ↔ SomeByteInBoth s.bufs ∨ s.bufs.outSize < s.outCap) ∧
      ((∃ r, exec .snMax s = .refused r) ↔ SomeByteInBoth s.bufs ∨ s.bufs.outSize < s.outCap)) ∧
    (s.status = .busy → ∀ i : Instr, i.format = .cmd8 → exec i s = .next s)

/-- The three bound queries (45_commands.md rules R167, R168, R169): the result, saturated at `SIZE_MAX`; `OUT_LEN` 0;
neither `IN` nor `OUT` nor `HT` touched; no exception, for every `IN_LEN`. Overlapping ranges and an
`OUT_CAP` beyond its range are refused before any command (20_memory.md rule R35, 70_reset_and_hazards.md rule R206,
`Obligations.LaunchLimits`). -/
def Obligations.BoundQueries : Prop :=
  ∀ s : State, s.status ≠ .busy → buffersOverlap s.bufs = false → s.outCap ≤ s.bufs.outSize →
    let n := s.inLen
    let max := 2 ^ s.params.sizeBits - 1
    let sat (a b : Nat) : Nat := min (a + b) max
    (∃ t, exec .lz4bMax s = .next t ∧ Completed 0 (sat (sat n (n / 255)) 16) t ∧ t.cmd = 7 ∧ OperandsSame s t ∧
      t.outMem = s.outMem ∧ t.ht = s.ht) ∧
    (∃ t, exec .lz4fMax s = .next t ∧ Completed 0 (sat (sat (sat n (n / 255)) 16) 27) t ∧ t.cmd = 8 ∧
      OperandsSame s t ∧ t.outMem = s.outMem ∧ t.ht = s.ht) ∧
    (∃ t, exec .snMax s = .next t ∧ Completed 0 (sat (sat 32 n) (n / 6)) t ∧ t.cmd = 9 ∧ OperandsSame s t ∧
      t.outMem = s.outMem ∧ t.ht = s.ht)

/-- `SN.SIZE` (45_commands.md rule R170, 44_snappy.md rule R151): the value of the preamble whatever `MAX_OUT` and
`OUT_CAP` are, or `InvalidData`; `OUT` is not touched. -/
def Obligations.SizeQuery : Prop :=
  ∀ s : State, Launchable s →
    ∃ t, exec .snSize s = .next t ∧ t.cmd = 10 ∧ OperandsSame s t ∧ t.outMem = s.outMem ∧
      (∀ v n rest, readVarint 0 (inBytes s 0 s.inLen) = .ok (v, n, rest) → Completed 0 v t ∧ t.ht = s.ht) ∧
      (∀ e, readVarint 0 (inBytes s 0 s.inLen) = .error e → Raised .invalidData t) ∧
      (s.inLen = 0 → Raised .invalidData t)

/-- A decompress command starts (45_commands.md rules R160, R162, R164, R166): `BUSY`, both cursors 0, `in_len` the value
of `IN_LEN`, the host's hands off, the first object of its format next; every other register and both buffers are
unchanged. The empty LZ4 block is done at once (42_lz4_block.md rule R109). -/
def Obligations.DecompressStarts : Prop :=
  ∀ s : State, Launchable s →
    exec .lz4fDecompress s =
      .next { s with cmd := 4, status := .busy, curLen := s.inLen, op := 0, ip := 0, unread := true, phase := .magic } ∧
    exec .snDecompress s =
      .next { s with cmd := 6, status := .busy, curLen := s.inLen, op := 0, ip := 0, unread := true, phase := .snLen } ∧
    (0 < s.inLen → exec .lz4bDecompress s =
      .next { s with cmd := 2, status := .busy, curLen := s.inLen, op := 0, ip := 0, endIdx := s.inLen, base := 0,
                     unread := true, phase := .block }) ∧
    (s.inLen = 0 → ∃ t, exec .lz4bDecompress s = .next t ∧ Completed 0 0 t ∧ t.cmd = 2 ∧ OperandsSame s t ∧
      t.outMem = s.outMem ∧ t.ht = s.ht)

/-- Inputs shorter than 15 bytes are written as literals alone, the exact bytes given (42_lz4_block.md rules R105, R106,
44_snappy.md rules R140, R144): one literal-only LZ4 sequence; the Snappy preamble, and one literal unless the input is
empty. -/
def Obligations.SmallInputs : Prop :=
  ∀ s : State, Launchable s → CellsHoldPositions s → Memory.wf s.outMem → s.inLen < 15 →
    let n := s.inLen
    (n + 1 ≤ s.outCap → ∃ t, exec .lz4bCompress s = .next t ∧ t.cmd = 1 ∧ OperandsSame s t ∧ t.ht = s.ht ∧
      Completed (n + 1) 0 t ∧ OutSameOutside 0 (n + 1) s t ∧
      outBytes t 0 (n + 1) = BitVec.ofNat 8 (16 * n) :: inBytes s 0 n) ∧
    (n = 0 → 1 ≤ s.outCap → ∃ t, exec .snCompress s = .next t ∧ t.cmd = 5 ∧ OperandsSame s t ∧ t.ht = s.ht ∧
      Completed 1 0 t ∧ OutSameOutside 0 1 s t ∧ outBytes t 0 1 = [0]) ∧
    (0 < n → n + 2 ≤ s.outCap → ∃ t, exec .snCompress s = .next t ∧ t.cmd = 5 ∧ OperandsSame s t ∧ t.ht = s.ht ∧
      Completed (n + 2) 0 t ∧ OutSameOutside 0 (n + 2) s t ∧
      outBytes t 0 (n + 2) = BitVec.ofNat 8 n :: BitVec.ofNat 8 (4 * (n - 1)) :: inBytes s 0 n)

/-- A compress command ends in one of two ways (45_commands.md rules R160, R161, R163, R165, 20_memory.md rule R46,
10_state.md rules R21, R27): `DONE`, with the bytes from `OUT_LEN` on unchanged, or `OutputTooSmall`, with the bytes from
`OUT_CAP` on unchanged. The host's operands and `IN` are unchanged, and with `OUT_CAP` 0 it always fails. -/
def Obligations.CompressEnds : Prop :=
  ∀ (i : Instr) (s : State), IsCompress i → Launchable s → CellsHoldPositions s →
    (i = .lz4fCompress → s.inLen ≤ 0x7E000000) → (i = .snCompress → s.inLen < 2 ^ 32) →
    ∃ t, exec i s = .next t ∧ OperandsSame s t ∧ encode i = [t.cmd] ∧
      ((∃ n, Completed n 0 t ∧ n ≤ s.outCap ∧ OutSameOutside 0 n s t) ∨
       (Raised .outputTooSmall t ∧ OutSameOutside 0 s.outCap s t)) ∧
      (s.outCap = 0 → Raised .outputTooSmall t)

/-- The LZ4 bound law (42_lz4_block.md rule R111), where the bound does not saturate: the command succeeds within it. -/
def Obligations.Lz4BlockBound : Prop :=
  ∀ s : State, s.params.Admissible → Launchable s → CellsHoldPositions s →
    s.inLen + s.inLen / 255 + 16 ≤ s.params.sizeMax → lz4BlockMax s.params s.inLen ≤ s.outCap →
    ∃ t n, exec .lz4bCompress s = .next t ∧ Completed n 0 t ∧ n ≤ s.inLen + s.inLen / 255 + 16

/-- The frame bound law (43_lz4_frame.md rule R127): the command succeeds within the bound for every `OPTS`. -/
def Obligations.Lz4FrameBound : Prop :=
  ∀ s : State, s.params.Admissible → Launchable s → CellsHoldPositions s → s.inLen ≤ 0x7E000000 →
    lz4FrameMax s.params s.inLen ≤ s.outCap →
    ∃ t n, exec .lz4fCompress s = .next t ∧ Completed n 0 t ∧ n ≤ s.inLen + s.inLen / 255 + 43

/-- The Snappy bound law (44_snappy.md rule R152), where the bound does not saturate. -/
def Obligations.SnappyBound : Prop :=
  ∀ s : State, Launchable s → CellsHoldPositions s → s.inLen < 2 ^ 32 →
    32 + s.inLen + s.inLen / 6 ≤ s.params.sizeMax → snMaxSize s.params s.inLen ≤ s.outCap →
    ∃ t n, exec .snCompress s = .next t ∧ Completed n 0 t ∧ n ≤ 32 + s.inLen + s.inLen / 6

/-- A compress command fails exactly when the complete output is longer than `OUT_CAP`, and gives the same bytes for every
`OUT_CAP` at least that long (20_memory.md rule R38). -/
def Obligations.CompressCapacity : Prop :=
  ∀ (i : Instr) (s t : State) (n c : Nat), IsCompress i → s.status ≠ .busy → Memory.wf s.outMem →
    exec i s = .next t → Completed n 0 t → c ≤ s.bufs.outSize →
    (n ≤ c → ∃ v, exec i { s with outCap := c } = .next v ∧ Completed n 0 v ∧ outBytes v 0 n = outBytes t 0 n) ∧
    (c < n → ∃ v, exec i { s with outCap := c } = .next v ∧ Raised .outputTooSmall v)

/-- The outcome of a compress command depends on the input bytes, `IN_LEN`, `OUT_CAP`, `OPTS`, `CONTENT_SIZE` and the
parameters, which 00_scope.md rule R4 constrains, alone: not on `HT`, not on any working register, not on `MAX_OUT`,
not on earlier results (10_state.md rule R29, 70_reset_and_hazards.md rule R208). -/
def Obligations.CompressDependsOnOperands : Prop :=
  ∀ (i : Instr) (s u t v : State), s.params.Admissible → IsCompress i → s.status ≠ .busy → u.status ≠ .busy →
    Memory.wf s.outMem → Memory.wf u.outMem → u.params = s.params → u.inLen = s.inLen → u.outCap = s.outCap →
    u.opts = s.opts → u.contentSize = s.contentSize →
    (∀ a, a < s.inLen → Memory.read u.inMem a = Memory.read s.inMem a) →
    exec i s = .next t → exec i u = .next v →
    v.status = t.status ∧ v.err = t.err ∧ v.outLen = t.outLen ∧ v.result = t.result ∧
      outBytes v 0 t.outLen = outBytes t 0 t.outLen

/-- A frame is the header, the size and the bytes of the LZ4 block of the same input, the end mark, and the checksum of
the input if `OPTS.CCHK` says so (43_lz4_frame.md rules R121, R122, 30_encoding.md rules R57 to R65). -/
def Obligations.FrameWrapsBlock : Prop :=
  ∀ s t : State, s.status ≠ .busy → Memory.wf s.outMem → exec .lz4fCompress s = .next t → t.status = .done →
    let desc : List Byte := flgByte true (optCsize s) (optCchk s) :: 0x70 ::
      (if optCsize s = true then leBytes 8 s.contentSize.toNat else [])
    ∃ b, exec .lz4bCompress s = .next b ∧ b.status = .done ∧
      t.outLen = 11 + 8 * (optCsize s).toNat + 4 + b.outLen + 4 * (optCchk s).toNat ∧
      outBytes t 0 t.outLen =
        [0x04, 0x22, 0x4D, 0x18] ++ desc ++ [headerChecksum desc] ++ leBytes 4 b.outLen ++ outBytes b 0 b.outLen ++
          [0, 0, 0, 0] ++ (if optCchk s = true then leBytes 4 (xxh32 (inBytes s 0 s.inLen) 0).toNat else [])

/-- `SN.SIZE` of what `SN.COMPRESS` wrote is the input's length (44_snappy.md rule R153). -/
def Obligations.SizeOfCompressed : Prop :=
  ∀ s t u : State, s.status ≠ .busy → Memory.wf s.outMem → exec .snCompress s = .next t → t.status = .done →
    Launchable u → u.inLen = t.outLen →
    inBytes u 0 u.inLen = outBytes t 0 t.outLen →
    ∃ v, exec .snSize u = .next v ∧ Completed 0 s.inLen v

/-- LZ4 block round trip (42_lz4_block.md rule R112): what `LZ4B.COMPRESS` wrote, `LZ4B.DECOMPRESS` with room for it turns
back into the input. -/
def Obligations.Lz4BlockRoundTrip : Prop :=
  ∀ s t u : State, s.params.Admissible → s.status ≠ .busy → Memory.wf s.outMem →
    exec .lz4bCompress s = .next t → t.status = .done →
    Launchable u → Memory.wf u.outMem → u.host = [] → u.inLen = t.outLen →
    inBytes u 0 u.inLen = outBytes t 0 t.outLen → s.inLen ≤ u.outCap → s.inLen ≤ u.maxOut →
    ∃ d v k, exec .lz4bDecompress u = .next d ∧ core.run k d = .next v ∧ Completed s.inLen 0 v ∧
      outBytes v 0 s.inLen = inBytes s 0 s.inLen

/-- Snappy round trip (44_snappy.md rule R153). -/
def Obligations.SnappyRoundTrip : Prop :=
  ∀ s t u : State, s.status ≠ .busy → Memory.wf s.outMem → exec .snCompress s = .next t → t.status = .done →
    Launchable u → Memory.wf u.outMem → u.host = [] → u.inLen = t.outLen →
    inBytes u 0 u.inLen = outBytes t 0 t.outLen → s.inLen ≤ u.outCap → s.inLen ≤ u.maxOut →
    ∃ d v k, exec .snDecompress u = .next d ∧ core.run k d = .next v ∧ Completed s.inLen 0 v ∧
      outBytes v 0 s.inLen = inBytes s 0 s.inLen

/-! ### Elements -/

/-- `LZ4.LAST` (42_lz4_block.md rule R114): the literals are appended and the block is finished; a bare block ends the
command, a frame's block is followed by the next block size word. -/
def Obligations.Lz4Last : Prop :=
  ∀ (ml : BitVec 4) (lits : List Byte) (s : State), Memory.wf s.outMem →
    s.phase = .block ∨ s.phase = .frameBlock → s.op + lits.length ≤ s.maxOut → s.op + lits.length ≤ s.outCap →
    s.endIdx = s.ip + (Instr.lz4Last ml lits).size →
    ∃ t, exec (.lz4Last ml lits) s = .next t ∧ HostSideSame s t ∧ t.ht = s.ht ∧
      OutHolds s.op lits t ∧ OutSameOutside s.op (s.op + lits.length) s t ∧
      if s.phase = .frameBlock then
        t = { s with token := lz4Token lits.length ml.toNat, lit := lits.length, ip := s.endIdx,
                     op := s.op + lits.length, phase := .bsw, outMem := t.outMem }
      else Completed (s.op + lits.length) 0 t

/-- `LZ4.SEQ` (42_lz4_block.md rule R113): the literals are appended, then the match, each byte a copy of the one `offset`
before it; the next sequence follows, or the block ends with this match (rule R108). -/
def Obligations.Lz4Sequence : Prop :=
  ∀ (lits : List Byte) (offset : BitVec 16) (mlen : Nat) (s : State), 4 ≤ mlen → Memory.wf s.outMem →
    s.phase = .block ∨ s.phase = .frameBlock →
    s.op + lits.length + mlen ≤ s.maxOut → s.op + lits.length + mlen ≤ s.outCap →
    offset ≠ 0 → offset.toNat ≤ s.op + lits.length - s.base →
    let n := lits.length
    let ip := s.ip + (Instr.lz4Seq lits offset mlen).size
    let op := s.op + n + mlen
    ∃ t, exec (.lz4Seq lits offset mlen) s = .next t ∧ HostSideSame s t ∧ t.ht = s.ht ∧
      OutHolds s.op lits t ∧ OutRepeats (s.op + n) offset.toNat mlen t ∧ OutSameOutside s.op op s t ∧
      if s.endIdx ≤ ip ∧ s.phase = .block then Completed op 0 t
      else
        t = { s with token := lz4Token n (mlen - 4), lit := n, offset := BitVec.ofNat 32 offset.toNat,
                     ml := mlen - 4, mlen := mlen, ip := ip, op := op,
                     phase := if s.endIdx ≤ ip then .bsw else s.phase, outMem := t.outMem }

/-- The tests of an LZ4 sequence in their order (42_lz4_block.md rules R113, R114, 60_exceptions.md rules R190, R198):
`OutputTooLarge`, `OutputTooSmall` for the literals, then the offset, then the same two for the match. A run that
fails its test is not written. What `OUT` holds after the error is as 20_memory.md rule R46 says
(notes/assumptions/8.md). -/
def Obligations.Lz4TestOrder : Prop :=
  ∀ (lits : List Byte) (offset : BitVec 16) (mlen : Nat) (ml : BitVec 4) (s : State), s.status = .busy →
    Memory.wf s.outMem →
    let n := lits.length
    let literalsOnly (t : State) : Prop := OutHolds s.op lits t ∧ OutSameOutside s.op (s.op + n) s t
    (∃ t, exec (.lz4Last ml lits) s = .next t ∧ HostSideSame s t ∧
      if s.maxOut - s.op < n then Raised .outputTooLarge t ∧ OutSame s t
      else if s.outCap - s.op < n then Raised .outputTooSmall t ∧ OutSame s t
      else t.status ≠ .error) ∧
    (∃ t, exec (.lz4Seq lits offset mlen) s = .next t ∧ HostSideSame s t ∧
      if s.maxOut - s.op < n then Raised .outputTooLarge t ∧ OutSame s t
      else if s.outCap - s.op < n then Raised .outputTooSmall t ∧ OutSame s t
      else if offset = 0 ∨ s.op + n - s.base < offset.toNat then Raised .invalidData t ∧ literalsOnly t
      else if s.maxOut - (s.op + n) < mlen then Raised .outputTooLarge t ∧ literalsOnly t
      else if s.outCap - (s.op + n) < mlen then Raised .outputTooSmall t ∧ literalsOnly t
      else t.status ≠ .error)

/-- `SN.LEN` (44_snappy.md rules R145, R150): the two limits, `OutputTooLarge` first; then the elements, or the end of the
stream, which is complete exactly when nothing is declared. Nothing is written.
What `OUT` holds after an error is as 20_memory.md rule R46 says (notes/assumptions/8.md). -/
def Obligations.SnappyLength : Prop :=
  ∀ (value : BitVec 32) (nbytes : Nat) (s : State), (Instr.snLen value nbytes).wf = true →
    let v := value.toNat
    ∃ t, exec (.snLen value nbytes) s = .next t ∧ HostSideSame s t ∧ OutSame s t ∧
      if s.maxOut < v then Raised .outputTooLarge t
      else if s.outCap < v then Raised .outputTooSmall t
      else if 0 < v ∧ s.ip + nbytes < s.curLen then
        t = { s with declared := BitVec.ofNat 64 v, ip := s.ip + nbytes, op := 0, phase := .snTag }
      else if v = 0 then Completed 0 0 t ∧ t.ht = s.ht
      else Raised .invalidData t

/-- The five Snappy literals (44_snappy.md rules R145, R146, R150): a literal that passes the declared length is
`InvalidData` and writes nothing; else its bytes are appended, and the next element follows, or the stream ends, which
is an error if the declared length is not reached. What `OUT` holds after the error is as 20_memory.md rule R46 says
(notes/assumptions/8.md). -/
def Obligations.SnappyLiterals : Prop :=
  ∀ (i : Instr) (tag : Byte) (lits : List Byte) (s : State),
    (i = .snLit lits ∧ tag = BitVec.ofNat 8 (4 * (lits.length - 1))) ∨ (i = .snLit1 lits ∧ tag = 0xF0) ∨
      (i = .snLit2 lits ∧ tag = 0xF4) ∨ (i = .snLit3 lits ∧ tag = 0xF8) ∨ (i = .snLit4 lits ∧ tag = 0xFC) →
    i.wf = true → Memory.wf s.outMem →
    let n := lits.length
    ∃ t, exec i s = .next t ∧ HostSideSame s t ∧
      if s.declared.toNat - s.op < n then Raised .invalidData t ∧ OutSame s t
      else
        OutHolds s.op lits t ∧ OutSameOutside s.op (s.op + n) s t ∧
        if s.ip + i.size < s.curLen ∧ s.op + n < s.declared.toNat then
          t = { s with tag := tag, len := n, ip := s.ip + i.size, op := s.op + n, phase := .snTag,
                       outMem := t.outMem }
        else if s.op + n = s.declared.toNat then Completed (s.op + n) 0 t ∧ t.ht = s.ht
        else Raised .invalidData t

/-- The three Snappy copies (44_snappy.md rules R147, R148, R149, R150): the offset is tested, then the length; else each
byte is a copy of the one `offset` before it.
What `OUT` holds after the error is as 20_memory.md rule R46 says (notes/assumptions/8.md). -/
def Obligations.SnappyCopies : Prop :=
  ∀ (i : Instr) (tag : Byte) (offset len : Nat) (s : State),
    (∃ l o, i = .snCopy1 l o ∧ offset = o.toNat ∧ len = 4 + l.toNat ∧
      tag = BitVec.ofNat 8 (1 + 4 * l.toNat + 32 * (o.toNat / 256))) ∨
    (∃ l o, i = .snCopy2 l o ∧ offset = o.toNat ∧ len = l.toNat + 1 ∧ tag = BitVec.ofNat 8 (2 + 4 * l.toNat)) ∨
    (∃ l o, i = .snCopy4 l o ∧ offset = o.toNat ∧ len = l.toNat + 1 ∧ tag = BitVec.ofNat 8 (3 + 4 * l.toNat)) →
    Memory.wf s.outMem →
    ∃ t, exec i s = .next t ∧ HostSideSame s t ∧
      if offset = 0 ∨ s.op < offset then Raised .invalidData t ∧ OutSame s t
      else if s.declared.toNat - s.op < len then Raised .invalidData t ∧ OutSame s t
      else
        OutRepeats s.op offset len t ∧ OutSameOutside s.op (s.op + len) s t ∧
        if s.ip + i.size < s.curLen ∧ s.op + len < s.declared.toNat then
          t = { s with tag := tag, len := len, offset := BitVec.ofNat 32 offset, ip := s.ip + i.size,
                       op := s.op + len, phase := .snTag, outMem := t.outMem }
        else if s.op + len = s.declared.toNat then Completed (s.op + len) 0 t ∧ t.ht = s.ht
        else Raised .invalidData t

/-- The five header fields of a frame (43_lz4_frame.md rule R123, 30_encoding.md rules R59 to R62): what each sets, and
where a truncated header and the guard on the declared size are refused. No field writes `OUT`.
What `OUT` holds after an error is as 20_memory.md rule R46 says (notes/assumptions/8.md). -/
def Obligations.FrameHeader : Prop :=
  ∀ s : State,
    (∃ t, exec .lz4fMagic s = .next t ∧ HostSideSame s t ∧ OutSame s t ∧
      if s.curLen < 7 then Raised .invalidData t else t = { s with ip := s.ip + 4, phase := .flg }) ∧
    (∀ bIndep cSize cChecksum, exec (.lz4fFlg bIndep cSize cChecksum) s =
      .next { s with flg := flgByte bIndep cSize cChecksum, hdrLen := if cSize = true then 15 else 7, ip := s.ip + 1,
                     phase := .bd }) ∧
    (∀ classM4, ∃ t, exec (.lz4fBd classM4) s = .next t ∧ HostSideSame s t ∧ OutSame s t ∧
      if s.curLen < s.hdrLen.toNat then Raised .invalidData t
      else t = { s with bd := BitVec.ofNat 8 (0x40 + 16 * classM4.toNat), ip := s.ip + 1,
                        phase := if s.flg.getLsbD 3 = true then .csize else .hc }) ∧
    (∀ size, ∃ t, exec (.lz4fCsize size) s = .next t ∧ HostSideSame s t ∧ OutSame s t ∧
      if s.maxOut < size.toNat then Raised .outputTooLarge t
      else t = { s with declared := size, ip := s.ip + 8, phase := .hc }) ∧
    (∀ hc, exec (.lz4fHc hc) s = .next { s with ip := s.ip + 1, op := 0, phase := .bsw })

/-- `LZ4F.END` and `LZ4F.BLOCK` (43_lz4_frame.md rules R124, R125): the end mark leads to the checksum if `FLG` has one,
else ends the command; a block must be within the input and sets how far back its matches may reach. `OUT` is not
written. What `OUT` holds after an error is as 20_memory.md rule R46 says (notes/assumptions/8.md). -/
def Obligations.FrameBlockWords : Prop :=
  ∀ s : State,
    (∃ t, exec .lz4fEnd s = .next t ∧ HostSideSame s t ∧ OutSame s t ∧ t.ht = s.ht ∧
      if s.flg.getLsbD 2 = true then t = { s with bs := 0, ip := s.ip + 4, phase := .cchk }
      else Completed s.op 0 t) ∧
    (∀ blen : BitVec 31, blen ≠ 0 → ∃ t, exec (.lz4fBlock blen) s = .next t ∧ HostSideSame s t ∧ OutSame s t ∧
      if s.curLen - (s.ip + 4) < blen.toNat then Raised .unexpectedEof t
      else t = { s with bs := BitVec.ofNat 32 blen.toNat, stored := false, blen := blen, ip := s.ip + 4,
                        base := if s.flg.getLsbD 5 = true then s.op else 0, endIdx := s.ip + 4 + blen.toNat,
                        phase := .frameBlock })

/-- `LZ4F.STORED` (43_lz4_frame.md rule R124): the block must be within the input and fit both limits; its bytes are
copied as they stand. What `OUT` holds after the error is as 20_memory.md rule R46 says (notes/assumptions/8.md). -/
def Obligations.FrameStored : Prop :=
  ∀ (blen : BitVec 31) (s : State), Memory.wf s.outMem →
    let n := blen.toNat
    ∃ t, exec (.lz4fStored blen) s = .next t ∧ HostSideSame s t ∧
      if s.curLen - (s.ip + 4) < n then Raised .unexpectedEof t ∧ OutSame s t
      else if s.maxOut - s.op < n then Raised .outputTooLarge t ∧ OutSame s t
      else if s.outCap - s.op < n then Raised .outputTooSmall t ∧ OutSame s t
      else
        OutHolds s.op (inBytes s (s.ip + 4) n) t ∧ OutSameOutside s.op (s.op + n) s t ∧
        t = { s with bs := BitVec.ofNat 32 (n + 2 ^ 31), stored := true, blen := blen, ip := s.ip + 4 + n,
                     op := s.op + n, phase := .bsw, outMem := t.outMem }

/-- `LZ4F.CCHK` (43_lz4_frame.md rule R125): the command is done if the checksum is that of the output, else
`ChecksumMismatch`; bytes after it are not looked at (rule R126). `OUT` is not written.
What `OUT` holds after an error is as 20_memory.md rule R46 says (notes/assumptions/8.md). -/
def Obligations.FrameChecksum : Prop :=
  ∀ (checksum : BitVec 32) (s : State),
    ∃ t, exec (.lz4fCchk checksum) s = .next t ∧ HostSideSame s t ∧ OutSame s t ∧
      if xxh32 (outBytes s 0 s.op) 0 = checksum then Completed s.op 0 t ∧ t.ht = s.ht
      else Raised .checksumMismatch t

/-! ### Rules about the whole machine -/

/-- No stream element can change a register of the host's, `IN`, or start a command (45_commands.md rule R175). -/
def Obligations.ElementsLeaveHostSide : Prop :=
  ∀ (i : Instr) (s : State), IsElement i → ∃ t, exec i s = .next t ∧ HostSideSame s t

/-- Each element advances `ip` by its own encoded length, a stored block's bytes counted, and nothing moves it elsewhere
(45_commands.md rule R173, 10_state.md rule R12). -/
def Obligations.ElementsAdvanceCursor : Prop :=
  ∀ (i : Instr) (s t : State), IsElement i → i.wf = true → s.status = .busy → exec i s = .next t → t.status = .busy →
    (∀ blen, i = .lz4fStored blen → t.ip = s.ip + 4 + blen.toNat) ∧
    ((∀ blen, i ≠ .lz4fStored blen) → t.ip = s.ip + (encode i).length) ∧ s.ip < t.ip

/-- An element writes `OUT` from `op` on and nothing below it, an element that raises too; what it leaves from the new `op`
on, or from `OUT_LEN` on when the command is done, is unchanged (10_state.md rule R13, 20_memory.md rule R46). What is above
the old `op` after an error is not said here. What `OUT` holds below it then is as rule R46 says (notes/assumptions/8.md). -/
def Obligations.ElementsWriteAtCursor : Prop :=
  ∀ (i : Instr) (s t : State), IsElement i → s.status = .busy → exec i s = .next t →
    (∀ a, a < s.op → Memory.read t.outMem a = Memory.read s.outMem a) ∧
    (t.status = .busy → ∀ a, t.op ≤ a → Memory.read t.outMem a = Memory.read s.outMem a) ∧
    (t.status = .done → ∀ a, t.outLen ≤ a → Memory.read t.outMem a = Memory.read s.outMem a)

/-- Whatever the engine does, it never writes `OUT[k]` for `k >= OUT_CAP`, never `IN`, and never a register the host
writes (10_state.md rules R17, R21, R27): whenever it moves in a running command, while it is idle, and when a write
to `CMD` starts a command. -/
def Obligations.EngineStaysInside : Prop :=
  ∀ s s0 t : State, Inv s →
    EngineMoves s s0 ∨ (s.status ≠ .busy ∧ s.host = [] ∧ s0 = s) ∨
      (∃ v r, s.host = .writeReg .cmd v :: r ∧ s0 = { s with host := r }) → step s = .next t →
    (∀ a, s.outCap ≤ a → Memory.read t.outMem a = Memory.read s.outMem a) ∧ OperandsSame s0 t

/-- Every step keeps the three memories in canonical form. -/
def Obligations.StepKeepsMemoriesCanonical : Prop :=
  ∀ s t : State, MemoriesCanonical s → step s = .next t → MemoriesCanonical t

/-- Every step keeps it true that a decompress command is at some place of its pseudocode exactly while `BUSY`
(10_state.md rule R19; the place is the model's, notes/assumptions/2.md). -/
def Obligations.StepKeepsPhase : Prop :=
  ∀ s t : State, StatusMatchesPhase s → step s = .next t → StatusMatchesPhase t

/-- Every step keeps `ERR`, `OUT_LEN` and `RESULT` in agreement with `STATUS` (10_state.md rules R19, R20, R24). -/
def Obligations.StepKeepsResults : Prop :=
  ∀ s t : State, ResultsConsistent s → step s = .next t → ResultsConsistent t

/-- Every step keeps the invariant: the cursors of a running command within their bounds, the registers within their
widths, the memories canonical (10_state.md rules R12, R13, R17, 20_memory.md rules R37, R39, 44_snappy.md rule R145). -/
def Obligations.StepKeepsInvariant : Prop :=
  ∀ s t : State, Inv s → step s = .next t → Inv t

/-- `OutOfMemory` has its code and is never raised (60_exceptions.md rule R186). -/
def Obligations.OutOfMemoryNeverRaised : Prop :=
  ErrKind.outOfMemory.code = 6 ∧ State.reset.err ≠ some .outOfMemory ∧
  ∀ s t : State, s.err ≠ some .outOfMemory → step s = .next t → t.err ≠ some .outOfMemory

/-- `ChecksumMismatch` has one cause: a content checksum that differs from `XXH32` of the output produced
(60_exceptions.md rule R182). No other instruction raises it, and no other step, whatever the host does and whatever bytes
stand at `ip`. -/
def Obligations.ChecksumMismatchCause : Prop :=
  (∀ (i : Instr) (s t : State), exec i s = .next t → s.err ≠ some .checksumMismatch → t.err = some .checksumMismatch →
    ∃ checksum, i = .lz4fCchk checksum ∧ xxh32 (outBytes s 0 s.op) 0 ≠ checksum) ∧
  (∀ s t : State, step s = .next t → s.err ≠ some .checksumMismatch → t.err = some .checksumMismatch →
    ∃ s0 checksum rest, EngineMoves s s0 ∧ s.phase = .cchk ∧
      decode .cchk32 (fetchBytes s) = .ok (.lz4fCchk checksum, rest) ∧ xxh32 (outBytes s 0 s.op) 0 ≠ checksum)

/-- Every decompress command finishes, in at most one step per byte of input left and one more (70_reset_and_hazards.md
rule R210). -/
def Obligations.CommandsFinish : Prop :=
  ∀ s : State, Inv s → s.status = .busy → s.host = [] →
    ∃ t, core.run (s.curLen - s.ip + 1) s = .next t ∧ (t.status = .done ∨ t.status = .error)

/-- What a step of a decompress command does depends on the rest of its input, its output so far, its limits and its place
alone (10_state.md rule R29): not on the hash table, not on `OPTS` or `CONTENT_SIZE`, not on earlier results. -/
def Obligations.DecompressDependsOnOperands : Prop :=
  ∀ s u s' : State, Inv s → Memory.wf u.outMem → s.host = [] → u.host = [] → DecompressAgree s u →
    step s = .next s' →
    ∃ u', step u = .next u' ∧ (s'.status = .busy → DecompressAgree s' u') ∧
      (s'.status ≠ .busy → u'.status = s'.status ∧ u'.err = s'.err ∧ u'.outLen = s'.outLen ∧
        u'.result = s'.result ∧ ∀ a, a < s'.outLen → Memory.read u'.outMem a = Memory.read s'.outMem a)

/-! ### Shared operations -/

/-- `MatchCopy(offset, n)` writes the `offset`-byte pattern before `op`, repeated to length `n`, and nothing else
(41_match_finder.md rule R97). -/
def Obligations.MatchCopyRepeatsPattern : Prop :=
  ∀ (offset n : Nat) (s : State), Memory.wf s.outMem → 1 ≤ offset → offset ≤ s.op →
    let t := matchCopy offset n s
    (∀ k, k < n → Memory.read t.outMem (s.op + k) = Memory.read s.outMem (s.op - offset + k % offset)) ∧
    OutSameOutside s.op (s.op + n) s t ∧ t = { s with op := s.op + n, outMem := t.outMem }

/-- `MatchExtend(a, b, max)` is the length of the longest common prefix, at most `max` (41_match_finder.md rule R95). -/
def Obligations.MatchExtendIsLongest : Prop :=
  ∀ (m : Memory) (a b max : Nat),
    let k := matchExtend m a b max
    k ≤ max ∧ (∀ j, j < k → Memory.read m (a + j) = Memory.read m (b + j)) ∧
    (k < max → Memory.read m (a + k) ≠ Memory.read m (b + k))

/-- `FindMatch` (41_match_finder.md rules R92, R93): the cell of the word's hash becomes `i + 1` and no other cell
changes; a candidate is an earlier position, at most 65535 back, with the same four bytes, and is found unless the
cell is empty, too far back or of another word. -/
def Obligations.FindMatchResult : Prop :=
  ∀ (mult : BitVec 32) (s : State), HashTable.wf s.ht → (∀ h, HashTable.cell s.ht h ≤ s.i) →
    let w := Memory.readLE s.inMem s.i 4
    let h := (hash4 (BitVec.ofNat 32 w) mult).toNat
    let old := HashTable.cell s.ht h
    let t := (findMatch mult s).1
    t = { s with w := t.w, h := t.h, cand := old, c := t.c, ht := t.ht } ∧ t.w.toNat = w ∧ t.h.toNat = h ∧
    (∀ k, HashTable.cell t.ht k = if k = h then s.i + 1 else HashTable.cell s.ht k) ∧
    (∀ c, (findMatch mult s).2 = some c →
      old = c + 1 ∧ c < s.i ∧ s.i - c ≤ 65535 ∧ Memory.readLE s.inMem c 4 = w) ∧
    ((findMatch mult s).2 = none →
      old = 0 ∨ 65535 < s.i - (old - 1) ∨ Memory.readLE s.inMem (old - 1) 4 ≠ w)

/-- `CheckRoom(n)`: `MAX_OUT` is tested before `OUT_CAP`, and the test changes nothing (20_memory.md rule R39). -/
def Obligations.CheckRoomOrder : Prop :=
  ∀ (n : Nat) (s : State), s.op ≤ s.maxOut → s.op ≤ s.outCap →
    checkRoom n s =
      if s.maxOut < s.op + n then .raise .outputTooLarge s
      else if s.outCap < s.op + n then .raise .outputTooSmall s
      else .ok s

/-- `Hash4(w, mult)` is bits 31:18 of the product modulo `2^32`; the examples of 41_match_finder.md rule R90. -/
def Obligations.HashIndex : Prop :=
  (∀ w mult : BitVec 32, (hash4 w mult).toNat = w.toNat * mult.toNat % 2 ^ 32 / 2 ^ 18) ∧
  hash4 0x41414141 lz4Mult = 1595 ∧ hash4 0x64636261 lz4Mult = 6339 ∧ hash4 0x64636261 snappyMult = 11176 ∧
  hash4 0x41414141 snappyMult = 14284 ∧ hash4 0xFFFFFFFF lz4Mult = 6258 ∧ hash4 1 lz4Mult = 10125 ∧
  hash4 1 snappyMult = 1933

/-- The check values of `XXH32` and of the header checksum (43_lz4_frame.md rules R120, R121; 95_test_vectors.md section
2.6): the empty input, tails alone, one stripe alone and with a tail, two stripes alone and with a tail. -/
def Obligations.ChecksumValues : Prop :=
  xxh32 [] 0 = 0x02CC5D05 ∧ xxh32 [0x61] 0 = 0x550D7456 ∧ xxh32 [0x61, 0x62, 0x63] 0 = 0x32D153FF ∧
  xxh32 [0x58] 0 = 0x164A5CD1 ∧ xxh32 [0x61, 0x62, 0x63, 0x64] 0 = 0xA3643705 ∧
  xxh32 ((List.range 15).map (BitVec.ofNat 8)) 0 = 0x57C01ECE ∧
  xxh32 ((List.range 16).map (BitVec.ofNat 8)) 0 = 0xB72837F4 ∧
  xxh32 ((List.range 17).map (BitVec.ofNat 8)) 0 = 0x7C77ADC2 ∧
  xxh32 ((List.range 32).map (BitVec.ofNat 8)) 0 = 0x830741C1 ∧
  xxh32 [0x4E, 0x6F, 0x62, 0x6F, 0x64, 0x79, 0x20, 0x69, 0x6E, 0x73, 0x70, 0x65, 0x63, 0x74, 0x73, 0x20, 0x74, 0x68, 0x65,
    0x20, 0x73, 0x70, 0x61, 0x6D, 0x6D, 0x69, 0x73, 0x68, 0x20, 0x72, 0x65, 0x70, 0x65, 0x74, 0x69, 0x74, 0x69, 0x6F,
    0x6E] 0 = 0xE2293B2F ∧ xxh32 [0x64, 0x70] 0 = 0xBB36B9B7 ∧ headerChecksum [0x64, 0x70] = 0xB9 ∧
  headerChecksum [0x60, 0x70] = 0x73 ∧ headerChecksum [0x64, 0x40] = 0xA7 ∧
  headerChecksum [0x6C, 0x70, 0x90, 0x01, 0, 0, 0, 0, 0, 0] = 0xF2
end

