-- ==== Sys2Proof/Laws/Memory.lean ====
section
/-! SUPPORT. The laws of the byte buffers and of the hash table: a read after a write, and that every operation keeps
the canonical form. -/

namespace Sys2Proof.Machine

theorem sparseGet_of_all_above {α : Type} {d : α} {m : List (Nat × α)} {a : Nat} (h : ∀ x ∈ m, a < x.1) : sparseGet d m a = d := by
  induction m with
  | nil => rfl
  | cons x r ih =>
    obtain ⟨k, v⟩ := x
    have hk : a < k := h (k, v) (by simp)
    rw [sparseGet, if_neg (by omega), ih fun y hy => h y (by simp [hy])]

section Sparse
variable {α : Type} [DecidableEq α] {d : α}

theorem sparseGet_sparseSet_self {m : List (Nat × α)} (hm : m.Pairwise fun x y => x.1 < y.1) (a : Nat) (v : α) :
    sparseGet d (sparseSet d m a v) a = v := by
  induction m with
  | nil =>
    simp only [sparseSet]
    split
    · next h => simp [sparseGet, h]
    · simp [sparseGet]
  | cons x r ih =>
    obtain ⟨k, x⟩ := x
    obtain ⟨hk, hr⟩ := List.pairwise_cons.mp hm
    simp only [sparseSet]
    split
    · next hlt =>
      split
      · next hv =>
        rw [sparseGet, if_neg (by omega), hv]
        exact sparseGet_of_all_above fun y hy => by have := hk y hy; simp at this; omega
      · simp [sparseGet]
    · split
      · next heq =>
        subst heq
        split
        · next hv => rw [hv]; exact sparseGet_of_all_above fun y hy => hk y hy
        · simp [sparseGet]
      · next hne => rw [sparseGet, if_neg hne, ih hr]

theorem sparseGet_sparseSet_ne (m : List (Nat × α)) {a b : Nat} (hab : b ≠ a) (v : α) :
    sparseGet d (sparseSet d m a v) b = sparseGet d m b := by
  induction m with
  | nil =>
    simp only [sparseSet]
    split <;> simp [sparseGet, hab]
  | cons x r ih =>
    obtain ⟨k, x⟩ := x
    simp only [sparseSet]
    split
    · split
      · rfl
      · simp [sparseGet, hab]
    · split
      · next heq =>
        subst heq
        split <;> simp [sparseGet, hab]
      · simp only [sparseGet, ih]

theorem mem_sparseSet {m : List (Nat × α)} {a : Nat} {v : α} {x : Nat × α} (h : x ∈ sparseSet d m a v) :
    x = (a, v) ∨ x ∈ m := by
  induction m with
  | nil =>
    simp only [sparseSet] at h
    split at h <;> simp_all
  | cons y r ih =>
    obtain ⟨k, y⟩ := y
    simp only [sparseSet] at h
    split at h
    · split at h
      · exact .inr h
      · simpa using h
    · split at h
      · split at h
        · exact .inr (by simp [h])
        · rcases List.mem_cons.mp h with h | h <;> simp [h]
      · rcases List.mem_cons.mp h with h | h
        · simp [h]
        · rcases ih h with h | h <;> simp [h]

theorem sparseSet_wf {m : List (Nat × α)} (hm : SparseWf d m) (a : Nat) (v : α) : SparseWf d (sparseSet d m a v) := by
  obtain ⟨hs, hd⟩ := hm
  induction m with
  | nil =>
    simp only [sparseSet]
    split
    · exact ⟨List.Pairwise.nil, by simp⟩
    · next h => exact ⟨by simp, by simpa using h⟩
  | cons y r ih =>
    obtain ⟨k, y⟩ := y
    obtain ⟨hk, hr⟩ := List.pairwise_cons.mp hs
    have ih := ih hr fun x hx => hd x (by simp [hx])
    simp only [sparseSet]
    split
    · next hlt =>
      split
      · exact ⟨hs, hd⟩
      · next hv =>
        refine ⟨List.pairwise_cons.mpr ⟨fun x hx => ?_, hs⟩, fun x hx => ?_⟩
        · rcases List.mem_cons.mp hx with rfl | hx
          · exact hlt
          · exact Nat.lt_trans hlt (hk x hx)
        · rcases List.mem_cons.mp hx with rfl | hx
          · exact hv
          · exact hd x hx
    · next hlt =>
      split
      · next heq =>
        subst heq
        split
        · exact ⟨hr, fun x hx => hd x (by simp [hx])⟩
        · next hv =>
          refine ⟨List.pairwise_cons.mpr ⟨fun x hx => hk x hx, hr⟩, fun x hx => ?_⟩
          rcases List.mem_cons.mp hx with rfl | hx
          · exact hv
          · exact hd x (by simp [hx])
      · next hne =>
        refine ⟨List.pairwise_cons.mpr ⟨fun x hx => ?_, ih.1⟩, fun x hx => ?_⟩
        · rcases mem_sparseSet hx with rfl | hx
          · show k < a
            omega
          · exact hk x hx
        · rcases List.mem_cons.mp hx with rfl | hx
          · exact hd _ (by simp)
          · exact ih.2 x hx

end Sparse

/-! ### Buffers -/

theorem Memory_read_write_self {m : Memory} (hm : Memory.wf m) (a : Nat) (b : Byte) :
    Memory.read (Memory.write m a b) a = b :=
  sparseGet_sparseSet_self hm.1 a b

theorem Memory_read_write_ne (m : Memory) {a k : Nat} (h : k ≠ a) (b : Byte) :
    Memory.read (Memory.write m a b) k = Memory.read m k :=
  sparseGet_sparseSet_ne m h b

theorem Memory_write_wf {m : Memory} (hm : Memory.wf m) (a : Nat) (b : Byte) : Memory.wf (Memory.write m a b) :=
  sparseSet_wf hm a b

theorem Memory_writeBytes_wf {m : Memory} (hm : Memory.wf m) (a : Nat) (bs : List Byte) :
    Memory.wf (Memory.writeBytes m a bs) := by
  induction bs generalizing m a with
  | nil => exact hm
  | cons b r ih => exact ih (Memory_write_wf hm a b) (a + 1)

theorem Memory_read_writeBytes_outside (m : Memory) {a k : Nat} (bs : List Byte) (h : k < a ∨ a + bs.length ≤ k) :
    Memory.read (Memory.writeBytes m a bs) k = Memory.read m k := by
  induction bs generalizing m a with
  | nil => rfl
  | cons b r ih =>
    simp only [List.length_cons] at h
    rw [Memory.writeBytes, ih (a := a + 1) _ (by omega), Memory_read_write_ne m (by omega)]

theorem Memory_read_writeBytes {m : Memory} (hm : Memory.wf m) (a : Nat) (bs : List Byte) {k : Nat}
    (h : k < bs.length) : Memory.read (Memory.writeBytes m a bs) (a + k) = bs.getD k 0 := by
  induction bs generalizing m a k with
  | nil => simp at h
  | cons b r ih =>
    cases k with
    | zero =>
      rw [Memory.writeBytes, Memory_read_writeBytes_outside _ _ (by omega), Nat.add_zero, Memory_read_write_self hm]
      rfl
    | succ k =>
      simp only [List.length_cons] at h
      have := ih (Memory_write_wf hm a b) (a + 1) (k := k) (by omega)
      rw [Memory.writeBytes, show a + (k + 1) = a + 1 + k by omega, this]
      rfl

@[simp] theorem Memory_slice_length (m : Memory) (a n : Nat) : (Memory.slice m a n).length = n := by
  simp [Memory.slice]

theorem Memory_slice_getD (m : Memory) (a n : Nat) {k : Nat} (h : k < n) :
    (Memory.slice m a n).getD k 0 = Memory.read m (a + k) := by
  simp [Memory.slice, List.getD, h]

/-! ### Hash table -/

theorem HashTable_cell_setCell_self {t : HashTable} (ht : HashTable.wf t) (h v : Nat) :
    HashTable.cell (HashTable.setCell t h v) h = v :=
  sparseGet_sparseSet_self ht.1.1 h v

theorem HashTable_cell_setCell_ne (t : HashTable) {h k : Nat} (hk : k ≠ h) (v : Nat) :
    HashTable.cell (HashTable.setCell t h v) k = HashTable.cell t k :=
  sparseGet_sparseSet_ne t hk v

theorem HashTable_setCell_wf {t : HashTable} (ht : HashTable.wf t) {h : Nat} (hh : h < 16384) (v : Nat) :
    HashTable.wf (HashTable.setCell t h v) :=
  ⟨sparseSet_wf ht.1 h v, fun _ hx => (mem_sparseSet hx).elim (fun e => e ▸ hh) (ht.2 _)⟩

theorem HashTable_nil_wf : HashTable.wf [] := ⟨⟨List.Pairwise.nil, by simp⟩, by simp⟩

theorem HashTable_tableOf_wf (posBits : Nat) (cells : List (Nat × Nat)) : HashTable.wf (tableOf posBits cells) := by
  induction cells with
  | nil => exact HashTable_nil_wf
  | cons x r ih => exact HashTable_setCell_wf ih (Nat.mod_lt _ (by decide)) _

end Sys2Proof.Machine
end

