-- ==== Sys2Proof/Laws/State.lean ====
section
/-! SUPPORT. One lemma per field for each named update of State, so that no later proof unfolds a record update. -/

namespace Sys2Proof.Machine

/-! ### `State_freeTable` -/

@[simp] theorem State_freeTable_params (s : State) : s.freeTable.params = s.params := rfl
@[simp] theorem State_freeTable_cmd (s : State) : s.freeTable.cmd = s.cmd := rfl
@[simp] theorem State_freeTable_status (s : State) : s.freeTable.status = s.status := rfl
@[simp] theorem State_freeTable_err (s : State) : s.freeTable.err = s.err := rfl
@[simp] theorem State_freeTable_inLen (s : State) : s.freeTable.inLen = s.inLen := rfl
@[simp] theorem State_freeTable_outCap (s : State) : s.freeTable.outCap = s.outCap := rfl
@[simp] theorem State_freeTable_maxOut (s : State) : s.freeTable.maxOut = s.maxOut := rfl
@[simp] theorem State_freeTable_opts (s : State) : s.freeTable.opts = s.opts := rfl
@[simp] theorem State_freeTable_contentSize (s : State) : s.freeTable.contentSize = s.contentSize := rfl
@[simp] theorem State_freeTable_outLen (s : State) : s.freeTable.outLen = s.outLen := rfl
@[simp] theorem State_freeTable_result (s : State) : s.freeTable.result = s.result := rfl
@[simp] theorem State_freeTable_ip (s : State) : s.freeTable.ip = s.ip := rfl
@[simp] theorem State_freeTable_op (s : State) : s.freeTable.op = s.op := rfl
@[simp] theorem State_freeTable_i (s : State) : s.freeTable.i = s.i := rfl
@[simp] theorem State_freeTable_anchor (s : State) : s.freeTable.anchor = s.anchor := rfl
@[simp] theorem State_freeTable_curLen (s : State) : s.freeTable.curLen = s.curLen := rfl
@[simp] theorem State_freeTable_endIdx (s : State) : s.freeTable.endIdx = s.endIdx := rfl
@[simp] theorem State_freeTable_base (s : State) : s.freeTable.base = s.base := rfl
@[simp] theorem State_freeTable_token (s : State) : s.freeTable.token = s.token := rfl
@[simp] theorem State_freeTable_tag (s : State) : s.freeTable.tag = s.tag := rfl
@[simp] theorem State_freeTable_lit (s : State) : s.freeTable.lit = s.lit := rfl
@[simp] theorem State_freeTable_ml (s : State) : s.freeTable.ml = s.ml := rfl
@[simp] theorem State_freeTable_mlen (s : State) : s.freeTable.mlen = s.mlen := rfl
@[simp] theorem State_freeTable_len (s : State) : s.freeTable.len = s.len := rfl
@[simp] theorem State_freeTable_offset (s : State) : s.freeTable.offset = s.offset := rfl
@[simp] theorem State_freeTable_declared (s : State) : s.freeTable.declared = s.declared := rfl
@[simp] theorem State_freeTable_w (s : State) : s.freeTable.w = s.w := rfl
@[simp] theorem State_freeTable_h (s : State) : s.freeTable.h = s.h := rfl
@[simp] theorem State_freeTable_cand (s : State) : s.freeTable.cand = s.cand := rfl
@[simp] theorem State_freeTable_c (s : State) : s.freeTable.c = s.c := rfl
@[simp] theorem State_freeTable_bs (s : State) : s.freeTable.bs = s.bs := rfl
@[simp] theorem State_freeTable_blen (s : State) : s.freeTable.blen = s.blen := rfl
@[simp] theorem State_freeTable_stored (s : State) : s.freeTable.stored = s.stored := rfl
@[simp] theorem State_freeTable_flg (s : State) : s.freeTable.flg = s.flg := rfl
@[simp] theorem State_freeTable_bd (s : State) : s.freeTable.bd = s.bd := rfl
@[simp] theorem State_freeTable_hdrLen (s : State) : s.freeTable.hdrLen = s.hdrLen := rfl
@[simp] theorem State_freeTable_slot (s : State) : s.freeTable.slot = s.slot := rfl
@[simp] theorem State_freeTable_inMem (s : State) : s.freeTable.inMem = s.inMem := rfl
@[simp] theorem State_freeTable_outMem (s : State) : s.freeTable.outMem = s.outMem := rfl
@[simp] theorem State_freeTable_bufs (s : State) : s.freeTable.bufs = s.bufs := rfl
@[simp] theorem State_freeTable_phase (s : State) : s.freeTable.phase = s.phase := rfl
@[simp] theorem State_freeTable_host (s : State) : s.freeTable.host = s.host := rfl
@[simp] theorem State_freeTable_hostData (s : State) : s.freeTable.hostData = s.hostData := rfl
@[simp] theorem State_freeTable_unread (s : State) : s.freeTable.unread = s.unread := rfl
@[simp] theorem State_freeTable_free (s : State) : s.freeTable.free = s.free + 1 := rfl

/-! ### `State_fail` -/

@[simp] theorem State_fail_params (k : ErrKind) (s : State) : (s.fail k).params = s.params := rfl
@[simp] theorem State_fail_cmd (k : ErrKind) (s : State) : (s.fail k).cmd = s.cmd := rfl
@[simp] theorem State_fail_status (k : ErrKind) (s : State) : (s.fail k).status = .error := rfl
@[simp] theorem State_fail_err (k : ErrKind) (s : State) : (s.fail k).err = some k := rfl
@[simp] theorem State_fail_inLen (k : ErrKind) (s : State) : (s.fail k).inLen = s.inLen := rfl
@[simp] theorem State_fail_outCap (k : ErrKind) (s : State) : (s.fail k).outCap = s.outCap := rfl
@[simp] theorem State_fail_maxOut (k : ErrKind) (s : State) : (s.fail k).maxOut = s.maxOut := rfl
@[simp] theorem State_fail_opts (k : ErrKind) (s : State) : (s.fail k).opts = s.opts := rfl
@[simp] theorem State_fail_contentSize (k : ErrKind) (s : State) : (s.fail k).contentSize = s.contentSize := rfl
@[simp] theorem State_fail_outLen (k : ErrKind) (s : State) : (s.fail k).outLen = 0 := rfl
@[simp] theorem State_fail_result (k : ErrKind) (s : State) : (s.fail k).result = 0 := rfl
@[simp] theorem State_fail_inMem (k : ErrKind) (s : State) : (s.fail k).inMem = s.inMem := rfl
@[simp] theorem State_fail_outMem (k : ErrKind) (s : State) : (s.fail k).outMem = s.outMem := rfl
@[simp] theorem State_fail_bufs (k : ErrKind) (s : State) : (s.fail k).bufs = s.bufs := rfl
@[simp] theorem State_fail_phase (k : ErrKind) (s : State) : (s.fail k).phase = .none := rfl
@[simp] theorem State_fail_host (k : ErrKind) (s : State) : (s.fail k).host = s.host := rfl
@[simp] theorem State_fail_hostData (k : ErrKind) (s : State) : (s.fail k).hostData = s.hostData := rfl
@[simp] theorem State_fail_unread (k : ErrKind) (s : State) : (s.fail k).unread = s.unread := rfl
@[simp] theorem State_fail_free (k : ErrKind) (s : State) : (s.fail k).free = s.free + 2 := rfl

/-! ### `State_complete` -/

@[simp] theorem State_complete_params (n : Nat) (s : State) : (s.complete n).params = s.params := rfl
@[simp] theorem State_complete_cmd (n : Nat) (s : State) : (s.complete n).cmd = s.cmd := rfl
@[simp] theorem State_complete_status (n : Nat) (s : State) : (s.complete n).status = .done := rfl
@[simp] theorem State_complete_err (n : Nat) (s : State) : (s.complete n).err = none := rfl
@[simp] theorem State_complete_inLen (n : Nat) (s : State) : (s.complete n).inLen = s.inLen := rfl
@[simp] theorem State_complete_outCap (n : Nat) (s : State) : (s.complete n).outCap = s.outCap := rfl
@[simp] theorem State_complete_maxOut (n : Nat) (s : State) : (s.complete n).maxOut = s.maxOut := rfl
@[simp] theorem State_complete_opts (n : Nat) (s : State) : (s.complete n).opts = s.opts := rfl
@[simp] theorem State_complete_contentSize (n : Nat) (s : State) : (s.complete n).contentSize = s.contentSize := rfl
@[simp] theorem State_complete_outLen (n : Nat) (s : State) : (s.complete n).outLen = s.op := rfl
@[simp] theorem State_complete_result (n : Nat) (s : State) : (s.complete n).result = n := rfl
@[simp] theorem State_complete_ht (n : Nat) (s : State) : (s.complete n).ht = s.ht := rfl
@[simp] theorem State_complete_inMem (n : Nat) (s : State) : (s.complete n).inMem = s.inMem := rfl
@[simp] theorem State_complete_outMem (n : Nat) (s : State) : (s.complete n).outMem = s.outMem := rfl
@[simp] theorem State_complete_bufs (n : Nat) (s : State) : (s.complete n).bufs = s.bufs := rfl
@[simp] theorem State_complete_phase (n : Nat) (s : State) : (s.complete n).phase = .none := rfl
@[simp] theorem State_complete_host (n : Nat) (s : State) : (s.complete n).host = s.host := rfl
@[simp] theorem State_complete_hostData (n : Nat) (s : State) : (s.complete n).hostData = s.hostData := rfl
@[simp] theorem State_complete_unread (n : Nat) (s : State) : (s.complete n).unread = s.unread := rfl
@[simp] theorem State_complete_free (n : Nat) (s : State) : (s.complete n).free = s.free + 1 := rfl

/-! ### `State_start` -/

@[simp] theorem State_start_params (v : BitVec 8) (s : State) : (s.start v).params = s.params := rfl
@[simp] theorem State_start_cmd (v : BitVec 8) (s : State) : (s.start v).cmd = v := rfl
@[simp] theorem State_start_status (v : BitVec 8) (s : State) : (s.start v).status = .busy := rfl
@[simp] theorem State_start_err (v : BitVec 8) (s : State) : (s.start v).err = s.err := rfl
@[simp] theorem State_start_inLen (v : BitVec 8) (s : State) : (s.start v).inLen = s.inLen := rfl
@[simp] theorem State_start_outCap (v : BitVec 8) (s : State) : (s.start v).outCap = s.outCap := rfl
@[simp] theorem State_start_maxOut (v : BitVec 8) (s : State) : (s.start v).maxOut = s.maxOut := rfl
@[simp] theorem State_start_opts (v : BitVec 8) (s : State) : (s.start v).opts = s.opts := rfl
@[simp] theorem State_start_contentSize (v : BitVec 8) (s : State) : (s.start v).contentSize = s.contentSize := rfl
@[simp] theorem State_start_outLen (v : BitVec 8) (s : State) : (s.start v).outLen = s.outLen := rfl
@[simp] theorem State_start_result (v : BitVec 8) (s : State) : (s.start v).result = s.result := rfl
@[simp] theorem State_start_ip (v : BitVec 8) (s : State) : (s.start v).ip = 0 := rfl
@[simp] theorem State_start_op (v : BitVec 8) (s : State) : (s.start v).op = 0 := rfl
@[simp] theorem State_start_i (v : BitVec 8) (s : State) : (s.start v).i = s.i := rfl
@[simp] theorem State_start_anchor (v : BitVec 8) (s : State) : (s.start v).anchor = s.anchor := rfl
@[simp] theorem State_start_curLen (v : BitVec 8) (s : State) : (s.start v).curLen = s.inLen := rfl
@[simp] theorem State_start_endIdx (v : BitVec 8) (s : State) : (s.start v).endIdx = s.endIdx := rfl
@[simp] theorem State_start_base (v : BitVec 8) (s : State) : (s.start v).base = s.base := rfl
@[simp] theorem State_start_token (v : BitVec 8) (s : State) : (s.start v).token = s.token := rfl
@[simp] theorem State_start_tag (v : BitVec 8) (s : State) : (s.start v).tag = s.tag := rfl
@[simp] theorem State_start_lit (v : BitVec 8) (s : State) : (s.start v).lit = s.lit := rfl
@[simp] theorem State_start_ml (v : BitVec 8) (s : State) : (s.start v).ml = s.ml := rfl
@[simp] theorem State_start_mlen (v : BitVec 8) (s : State) : (s.start v).mlen = s.mlen := rfl
@[simp] theorem State_start_len (v : BitVec 8) (s : State) : (s.start v).len = s.len := rfl
@[simp] theorem State_start_offset (v : BitVec 8) (s : State) : (s.start v).offset = s.offset := rfl
@[simp] theorem State_start_declared (v : BitVec 8) (s : State) : (s.start v).declared = s.declared := rfl
@[simp] theorem State_start_w (v : BitVec 8) (s : State) : (s.start v).w = s.w := rfl
@[simp] theorem State_start_h (v : BitVec 8) (s : State) : (s.start v).h = s.h := rfl
@[simp] theorem State_start_cand (v : BitVec 8) (s : State) : (s.start v).cand = s.cand := rfl
@[simp] theorem State_start_c (v : BitVec 8) (s : State) : (s.start v).c = s.c := rfl
@[simp] theorem State_start_bs (v : BitVec 8) (s : State) : (s.start v).bs = s.bs := rfl
@[simp] theorem State_start_blen (v : BitVec 8) (s : State) : (s.start v).blen = s.blen := rfl
@[simp] theorem State_start_stored (v : BitVec 8) (s : State) : (s.start v).stored = s.stored := rfl
@[simp] theorem State_start_flg (v : BitVec 8) (s : State) : (s.start v).flg = s.flg := rfl
@[simp] theorem State_start_bd (v : BitVec 8) (s : State) : (s.start v).bd = s.bd := rfl
@[simp] theorem State_start_hdrLen (v : BitVec 8) (s : State) : (s.start v).hdrLen = s.hdrLen := rfl
@[simp] theorem State_start_slot (v : BitVec 8) (s : State) : (s.start v).slot = s.slot := rfl
@[simp] theorem State_start_ht (v : BitVec 8) (s : State) : (s.start v).ht = s.ht := rfl
@[simp] theorem State_start_inMem (v : BitVec 8) (s : State) : (s.start v).inMem = s.inMem := rfl
@[simp] theorem State_start_outMem (v : BitVec 8) (s : State) : (s.start v).outMem = s.outMem := rfl
@[simp] theorem State_start_bufs (v : BitVec 8) (s : State) : (s.start v).bufs = s.bufs := rfl
@[simp] theorem State_start_phase (v : BitVec 8) (s : State) : (s.start v).phase = s.phase := rfl
@[simp] theorem State_start_host (v : BitVec 8) (s : State) : (s.start v).host = s.host := rfl
@[simp] theorem State_start_hostData (v : BitVec 8) (s : State) : (s.start v).hostData = s.hostData := rfl
@[simp] theorem State_start_unread (v : BitVec 8) (s : State) : (s.start v).unread = true := rfl
@[simp] theorem State_start_free (v : BitVec 8) (s : State) : (s.start v).free = s.free := rfl

/-! ### `State_putByte` -/

@[simp] theorem State_putByte_params (b : Byte) (s : State) : (s.putByte b).params = s.params := rfl
@[simp] theorem State_putByte_cmd (b : Byte) (s : State) : (s.putByte b).cmd = s.cmd := rfl
@[simp] theorem State_putByte_status (b : Byte) (s : State) : (s.putByte b).status = s.status := rfl
@[simp] theorem State_putByte_err (b : Byte) (s : State) : (s.putByte b).err = s.err := rfl
@[simp] theorem State_putByte_inLen (b : Byte) (s : State) : (s.putByte b).inLen = s.inLen := rfl
@[simp] theorem State_putByte_outCap (b : Byte) (s : State) : (s.putByte b).outCap = s.outCap := rfl
@[simp] theorem State_putByte_maxOut (b : Byte) (s : State) : (s.putByte b).maxOut = s.maxOut := rfl
@[simp] theorem State_putByte_opts (b : Byte) (s : State) : (s.putByte b).opts = s.opts := rfl
@[simp] theorem State_putByte_contentSize (b : Byte) (s : State) : (s.putByte b).contentSize = s.contentSize := rfl
@[simp] theorem State_putByte_outLen (b : Byte) (s : State) : (s.putByte b).outLen = s.outLen := rfl
@[simp] theorem State_putByte_result (b : Byte) (s : State) : (s.putByte b).result = s.result := rfl
@[simp] theorem State_putByte_ip (b : Byte) (s : State) : (s.putByte b).ip = s.ip := rfl
@[simp] theorem State_putByte_op (b : Byte) (s : State) : (s.putByte b).op = s.op + 1 := rfl
@[simp] theorem State_putByte_i (b : Byte) (s : State) : (s.putByte b).i = s.i := rfl
@[simp] theorem State_putByte_anchor (b : Byte) (s : State) : (s.putByte b).anchor = s.anchor := rfl
@[simp] theorem State_putByte_curLen (b : Byte) (s : State) : (s.putByte b).curLen = s.curLen := rfl
@[simp] theorem State_putByte_endIdx (b : Byte) (s : State) : (s.putByte b).endIdx = s.endIdx := rfl
@[simp] theorem State_putByte_base (b : Byte) (s : State) : (s.putByte b).base = s.base := rfl
@[simp] theorem State_putByte_token (b : Byte) (s : State) : (s.putByte b).token = s.token := rfl
@[simp] theorem State_putByte_tag (b : Byte) (s : State) : (s.putByte b).tag = s.tag := rfl
@[simp] theorem State_putByte_lit (b : Byte) (s : State) : (s.putByte b).lit = s.lit := rfl
@[simp] theorem State_putByte_ml (b : Byte) (s : State) : (s.putByte b).ml = s.ml := rfl
@[simp] theorem State_putByte_mlen (b : Byte) (s : State) : (s.putByte b).mlen = s.mlen := rfl
@[simp] theorem State_putByte_len (b : Byte) (s : State) : (s.putByte b).len = s.len := rfl
@[simp] theorem State_putByte_offset (b : Byte) (s : State) : (s.putByte b).offset = s.offset := rfl
@[simp] theorem State_putByte_declared (b : Byte) (s : State) : (s.putByte b).declared = s.declared := rfl
@[simp] theorem State_putByte_w (b : Byte) (s : State) : (s.putByte b).w = s.w := rfl
@[simp] theorem State_putByte_h (b : Byte) (s : State) : (s.putByte b).h = s.h := rfl
@[simp] theorem State_putByte_cand (b : Byte) (s : State) : (s.putByte b).cand = s.cand := rfl
@[simp] theorem State_putByte_c (b : Byte) (s : State) : (s.putByte b).c = s.c := rfl
@[simp] theorem State_putByte_bs (b : Byte) (s : State) : (s.putByte b).bs = s.bs := rfl
@[simp] theorem State_putByte_blen (b : Byte) (s : State) : (s.putByte b).blen = s.blen := rfl
@[simp] theorem State_putByte_stored (b : Byte) (s : State) : (s.putByte b).stored = s.stored := rfl
@[simp] theorem State_putByte_flg (b : Byte) (s : State) : (s.putByte b).flg = s.flg := rfl
@[simp] theorem State_putByte_bd (b : Byte) (s : State) : (s.putByte b).bd = s.bd := rfl
@[simp] theorem State_putByte_hdrLen (b : Byte) (s : State) : (s.putByte b).hdrLen = s.hdrLen := rfl
@[simp] theorem State_putByte_slot (b : Byte) (s : State) : (s.putByte b).slot = s.slot := rfl
@[simp] theorem State_putByte_ht (b : Byte) (s : State) : (s.putByte b).ht = s.ht := rfl
@[simp] theorem State_putByte_inMem (b : Byte) (s : State) : (s.putByte b).inMem = s.inMem := rfl
@[simp] theorem State_putByte_outMem (b : Byte) (s : State) : (s.putByte b).outMem = Memory.write s.outMem s.op b := rfl
@[simp] theorem State_putByte_bufs (b : Byte) (s : State) : (s.putByte b).bufs = s.bufs := rfl
@[simp] theorem State_putByte_phase (b : Byte) (s : State) : (s.putByte b).phase = s.phase := rfl
@[simp] theorem State_putByte_host (b : Byte) (s : State) : (s.putByte b).host = s.host := rfl
@[simp] theorem State_putByte_hostData (b : Byte) (s : State) : (s.putByte b).hostData = s.hostData := rfl
@[simp] theorem State_putByte_unread (b : Byte) (s : State) : (s.putByte b).unread = s.unread := rfl
@[simp] theorem State_putByte_free (b : Byte) (s : State) : (s.putByte b).free = s.free := rfl

/-! ### `hostRead` -/

@[simp] theorem hostRead_hostData (r : Reg) (s : State) : (hostRead r s).hostData = readReg r s := rfl
@[simp] theorem hostRead_status (r : Reg) (s : State) : (hostRead r s).status = s.status := rfl

/-- A register read changes only what the host knows. -/
theorem hostRead_eq (r : Reg) (s : State) :
    hostRead r s = { s with hostData := readReg r s, unread := (hostRead r s).unread } := rfl

/-- Only a read of `STATUS` that is not `BUSY` ends the host's wait. -/
theorem hostRead_unread (r : Reg) (s : State) :
    (hostRead r s).unread = if r = .status ∧ s.status ≠ .busy then false else s.unread := rfl

end Sys2Proof.Machine
end

