-- ==== Sys2Proof/Laws/Ops.lean ====
section
/-! SUPPORT. One lemma per shared operation: everything it can do, so that a proof cites it instead of unfolding it. -/

namespace Sys2Proof.Machine

/-! ### Runs -/

@[simp] theorem Run_andThen_ok (s : State) (f : State → Run) : (Run.ok s).andThen f = f s := rfl

@[simp] theorem Run_andThen_raise (k : ErrKind) (s : State) (f : State → Run) :
    (Run.raise k s).andThen f = .raise k s := rfl

@[simp] theorem Run_settle_ok (s : State) : (Run.ok s).settle = s := rfl

@[simp] theorem Run_settle_raise (k : ErrKind) (s : State) : (Run.raise k s).settle = s.fail k := rfl

theorem Run_finish_ok (s : State) :
    (Run.ok s).finish = if s.curLen < smallInput then s.complete 0 else s.freeTable.complete 0 := rfl

@[simp] theorem Run_finish_raise (k : ErrKind) (s : State) : (Run.raise k s).finish = s.fail k := rfl

theorem Run_andThen_eq_ok {r : Run} {f : State → Run} {t : State} :
    r.andThen f = .ok t ↔ ∃ s, r = .ok s ∧ f s = .ok t := by
  cases r <;> simp

theorem Run_andThen_eq_raise {r : Run} {f : State → Run} {k : ErrKind} {t : State} :
    r.andThen f = .raise k t ↔ r = .raise k t ∨ ∃ s, r = .ok s ∧ f s = .raise k t := by
  cases r <;> simp

/-! ### Writing `OUT` -/

theorem putBytes_eq (bytes : List Byte) (s : State) :
    putBytes bytes s = { s with outMem := Memory.writeBytes s.outMem s.op bytes, op := s.op + bytes.length } := by
  induction bytes generalizing s with
  | nil => rfl
  | cons b r ih => simp [putBytes, ih, Memory.writeBytes, State.putByte, Nat.add_assoc, Nat.add_comm 1]

theorem literalCopy_eq (lits : List Byte) (s : State) :
    literalCopy lits s = { s with outMem := Memory.writeBytes s.outMem s.op lits, op := s.op + lits.length,
                                  ip := s.ip + lits.length } := by
  simp [literalCopy, putBytes_eq]

/-- The buffer `MatchCopy(offset, n)` leaves when it starts at index `op`. -/
def matchMem (offset : Nat) : Nat → Memory → Nat → Memory
  | 0, m, _ => m
  | n + 1, m, op => matchMem offset n (Memory.write m op (Memory.read m (op - offset))) (op + 1)

theorem matchCopy_eq (offset n : Nat) (s : State) :
    matchCopy offset n s = { s with outMem := matchMem offset n s.outMem s.op, op := s.op + n } := by
  induction n generalizing s with
  | zero => rfl
  | succ n ih => simp [matchCopy, ih, matchMem, State.putByte, Nat.add_assoc, Nat.add_comm 1]

theorem matchMem_wf {m : Memory} (hm : Memory.wf m) (offset n op : Nat) : Memory.wf (matchMem offset n m op) := by
  induction n generalizing m op with
  | zero => exact hm
  | succ n ih => exact ih (Memory_write_wf hm _ _) _

theorem matchMem_outside (offset n : Nat) (m : Memory) {op a : Nat} (h : a < op ∨ op + n ≤ a) :
    Memory.read (matchMem offset n m op) a = Memory.read m a := by
  induction n generalizing m op with
  | zero => rfl
  | succ n ih =>
    rw [matchMem, ih _ (by omega), Memory_read_write_ne _ (by omega)]

/-- Every byte a match copy writes equals the byte `offset` places before it, overlapping or not. -/
theorem matchMem_repeats {offset : Nat} (hoff : 1 ≤ offset) (n : Nat) {m : Memory} (hm : Memory.wf m) {op k : Nat}
    (hop : offset ≤ op) (h : k < n) :
    Memory.read (matchMem offset n m op) (op + k) = Memory.read (matchMem offset n m op) (op + k - offset) := by
  induction n generalizing m op k with
  | zero => omega
  | succ n ih =>
    rw [matchMem]
    cases k with
    | zero =>
      rw [matchMem_outside _ _ _ (by omega), matchMem_outside _ _ _ (by omega)]
      exact (Memory_read_write_self hm op _).trans (Memory_read_write_ne m (by omega) _).symm
    | succ k =>
      have := ih (Memory_write_wf hm op (Memory.read m (op - offset))) (op := op + 1) (k := k) (by omega) (by omega)
      rwa [show op + 1 + k = op + (k + 1) by omega] at this

/-- `EmitByte` for each byte: it fits and is appended, or the bytes that fit are appended and `OutputTooSmall` is
raised. -/
theorem emitBytes_eq (bytes : List Byte) (s : State) (h : s.op ≤ s.outCap) :
    emitBytes bytes s =
      if s.op + bytes.length ≤ s.outCap then .ok (putBytes bytes s)
      else .raise .outputTooSmall (putBytes (bytes.take (s.outCap - s.op)) s) := by
  induction bytes generalizing s with
  | nil => simp [emitBytes, putBytes, h]
  | cons b r ih =>
    simp only [emitBytes, emitByte, List.length_cons]
    by_cases hlt : s.outCap ≤ s.op
    · rw [if_pos hlt, if_neg (by omega), show s.outCap - s.op = 0 by omega]
      rfl
    · rw [if_neg hlt, Run_andThen_ok, ih (s.putByte b) (by simp; omega)]
      by_cases hfit : s.op + (r.length + 1) ≤ s.outCap
      · rw [if_pos hfit, if_pos (by simp; omega)]
        rfl
      · rw [if_neg hfit, if_neg (by simp; omega), show s.outCap - s.op = (s.outCap - (s.op + 1)) + 1 by omega]
        rfl

theorem emitByte_eq_emitBytes (b : Byte) (s : State) : emitByte b s = emitBytes [b] s := by
  simp only [emitBytes]
  cases emitByte b s <;> rfl

/-- `CheckRoom` raises `OutputTooLarge`, else `OutputTooSmall`, else passes and changes nothing. -/
theorem checkRoom_cases (n : Nat) (s : State) :
    (s.maxOut - s.op < n ∧ checkRoom n s = .raise .outputTooLarge s) ∨
    (n ≤ s.maxOut - s.op ∧ s.outCap - s.op < n ∧ checkRoom n s = .raise .outputTooSmall s) ∨
    (n ≤ s.maxOut - s.op ∧ n ≤ s.outCap - s.op ∧ checkRoom n s = .ok s) := by
  unfold checkRoom
  split
  · next h => exact .inl ⟨h, rfl⟩
  · split
    · next h h' => exact .inr (.inl ⟨by omega, h', rfl⟩)
    · next h h' => exact .inr (.inr ⟨by omega, by omega, rfl⟩)

/-! ### Elements -/

/-- The literals of a sequence: the room test fails, or they are appended and `ip` stands after them. -/
theorem lz4Literals_eq (token : Byte) (lits : List Byte) (s : State) :
    lz4Literals token lits s =
      (checkRoom lits.length
        { s with token := token, lit := lits.length, ip := s.ip + 1 + lz4FieldExtSize lits.length }).andThen
          fun s2 => .ok { s2 with outMem := Memory.writeBytes s2.outMem s2.op lits, op := s2.op + lits.length,
                                  ip := s2.ip + lits.length } := by
  simp only [lz4Literals, literalCopy_eq]

/-- The offset of a sequence: `InvalidData`, or `ip` stands after it. -/
theorem lz4Offset_cases (offset : BitVec 16) (s : State) :
    let s1 := { s with offset := BitVec.ofNat 32 offset.toNat, ip := s.ip + 2 }
    ((offset = 0 ∨ s.op - s.base < offset.toNat) ∧ lz4Offset offset s = .raise .invalidData s1) ∨
    (offset ≠ 0 ∧ offset.toNat ≤ s.op - s.base ∧ lz4Offset offset s = .ok s1) := by
  intro s1
  by_cases h : offset = 0 ∨ s.op - s.base < offset.toNat
  · exact .inl ⟨h, if_pos h⟩
  · refine .inr ⟨fun h0 => h (.inl h0), ?_, if_neg h⟩
    by_contra hlt
    exact h (.inr (by omega))

/-- The Snappy element loop: it goes on at the next tag, or the command ends with the declared length reached, or the
input ran out first. -/
theorem snLoop_cases (s : State) :
    ((s.ip < s.curLen ∧ s.op < s.declared.toNat) ∧ snLoop s = .ok { s with phase := .snTag }) ∨
    (¬(s.ip < s.curLen ∧ s.op < s.declared.toNat) ∧ s.op = s.declared.toNat ∧ snLoop s = .ok (s.complete 0)) ∨
    (¬(s.ip < s.curLen ∧ s.op < s.declared.toNat) ∧ s.op ≠ s.declared.toNat ∧
      snLoop s = .raise .invalidData s) := by
  unfold snLoop
  split
  · next h => exact .inl ⟨h, rfl⟩
  · next h =>
    split
    · next h' => exact .inr (.inl ⟨h, h', rfl⟩)
    · next h' => exact .inr (.inr ⟨h, h', rfl⟩)

/-- The block loop: it goes on at the next token, or the block ends inside its frame, or the command ends. -/
theorem blockLoop_cases (s : State) :
    (s.ip < s.endIdx ∧ blockLoop s = s) ∨
    (s.endIdx ≤ s.ip ∧ s.phase = .frameBlock ∧ blockLoop s = { s with phase := .bsw }) ∨
    (s.endIdx ≤ s.ip ∧ s.phase ≠ .frameBlock ∧ blockLoop s = s.complete 0) := by
  unfold blockLoop blockEnd
  split
  · next h => exact .inl ⟨h, rfl⟩
  · next h =>
    split
    · next h' => exact .inr (.inl ⟨by omega, h', rfl⟩)
    · next h' => exact .inr (.inr ⟨by omega, h', rfl⟩)

/-! ### The match finder -/

/-- `FindMatch` probes the table, sets `c` unless the cell is empty, and names a candidate only where the cell is not
empty, the distance fits and the four bytes agree. -/
theorem findMatch_cases (mult : BitVec 32) (s : State) :
    ((probe mult s).cand = 0 ∧ findMatch mult s = (probe mult s, none)) ∨
    ((probe mult s).cand ≠ 0 ∧
      findMatch mult s = ({ probe mult s with c := (probe mult s).cand - 1 }, none)) ∨
    ((probe mult s).cand ≠ 0 ∧ s.i - ((probe mult s).cand - 1) ≤ maxOffset ∧
      Memory.readLE s.inMem ((probe mult s).cand - 1) 4 = (probe mult s).w.toNat ∧
      findMatch mult s =
        ({ probe mult s with c := (probe mult s).cand - 1 }, some ((probe mult s).cand - 1))) := by
  unfold findMatch
  by_cases h0 : (probe mult s).cand = 0
  · exact .inl ⟨h0, by simp [h0]⟩
  · by_cases h1 : maxOffset < s.i - ((probe mult s).cand - 1)
    · refine .inr (.inl ⟨h0, ?_⟩)
      simp only [h0, if_false]
      exact if_pos h1
    · by_cases h2 : Memory.readLE s.inMem ((probe mult s).cand - 1) 4 = (probe mult s).w.toNat
      · refine .inr (.inr ⟨h0, by omega, h2, ?_⟩)
        simp only [h0, if_false]
        exact (if_neg h1).trans (if_pos h2)
      · refine .inr (.inl ⟨h0, ?_⟩)
        simp only [h0, if_false]
        exact (if_neg h1).trans (if_neg h2)

theorem matchExtend_le (m : Memory) (a b n : Nat) : matchExtend m a b n ≤ n := by
  induction n generalizing a b with
  | zero => simp [matchExtend]
  | succ n ih =>
    unfold matchExtend
    split
    · exact Nat.succ_le_succ (ih _ _)
    · omega

/-- The two regions agree over the length `MatchExtend` returns. -/
theorem matchExtend_agree (m : Memory) (a b n : Nat) {k : Nat} (h : k < matchExtend m a b n) :
    Memory.read m (a + k) = Memory.read m (b + k) := by
  induction n generalizing a b k with
  | zero => simp [matchExtend] at h
  | succ n ih =>
    unfold matchExtend at h
    split at h
    · next heq =>
      cases k with
      | zero => exact heq
      | succ k =>
        have := ih (a + 1) (b + 1) (k := k) (by omega)
        rwa [show a + 1 + k = a + (k + 1) by omega, show b + 1 + k = b + (k + 1) by omega] at this
    · omega

/-! ### Launching -/

/-- A launch is ignored, refused, or runs the command's body from the started state. -/
theorem launch_cases (code : BitVec 8) (refusal : State → Option Refusal) (body : State → State) (s : State) :
    (s.status = .busy ∧ launch code refusal body s = .next s) ∨
    (s.status ≠ .busy ∧ ∃ r, refusal s = some r ∧ launch code refusal body s = .refused r) ∨
    (s.status ≠ .busy ∧ refusal s = none ∧ launch code refusal body s = .next (body (s.start code))) := by
  unfold launch
  split
  · next h => exact .inl ⟨h, rfl⟩
  · next h =>
    split
    · next r hr => exact .inr (.inl ⟨h, r, hr, rfl⟩)
    · next hr => exact .inr (.inr ⟨h, hr, rfl⟩)

theorem launch_next {code : BitVec 8} {refusal : State → Option Refusal} {body : State → State} {s t : State}
    (h : launch code refusal body s = .next t) :
    (s.status = .busy ∧ t = s) ∨ (s.status ≠ .busy ∧ refusal s = none ∧ t = body (s.start code)) := by
  rcases launch_cases code refusal body s with ⟨hb, e⟩ | ⟨hb, r, hr, e⟩ | ⟨hb, hr, e⟩ <;> rw [e] at h
  · exact .inl ⟨hb, by cases h; rfl⟩
  · cases h
  · exact .inr ⟨hb, hr, by cases h; rfl⟩

/-- Every command is accepted only over disjoint ranges and with `OUT_CAP` within its own; a bound query always then. -/
theorem launchRefusal_eq_none (s : State) :
    launchRefusal s = none ↔ buffersOverlap s.bufs = false ∧ s.outCap ≤ s.bufs.outSize := by
  unfold launchRefusal
  split
  · simp_all
  · split <;> simp_all

/-- A command that reads `IN` is accepted exactly when both registers are within disjoint ranges. -/
theorem buffersRefusal_eq_none (s : State) :
    buffersRefusal s = none ↔
      (buffersOverlap s.bufs = false ∧ s.outCap ≤ s.bufs.outSize) ∧ s.inLen ≤ s.bufs.inSize := by
  simp [buffersRefusal, Option.or_eq_none_iff, launchRefusal_eq_none]

/-! ### The host's access -/

/-- An access of the host is refused with its hands off, done where the byte exists, and else the fault. -/
theorem hostAccess_cases (size a : Nat) (s s' : State) :
    (HandsOff s ∧ hostAccess size a s s' = .refused .hostWhileBusy) ∨
    (¬ HandsOff s ∧ a < size ∧ hostAccess size a s s' = .next s') ∨
    (¬ HandsOff s ∧ size ≤ a ∧ hostAccess size a s s' = .fault .noSuchByte) := by
  unfold hostAccess
  split
  · next h => exact .inl ⟨h, rfl⟩
  · next h =>
    split
    · next ha => exact .inr (.inl ⟨h, ha, rfl⟩)
    · next ha => exact .inr (.inr ⟨h, Nat.le_of_not_lt ha, rfl⟩)

end Sys2Proof.Machine
end

