-- ==== Sys2Proof/Laws/PerInstr.lean ====
section
/-! SUPPORT. A statement made of every instruction as syntax: its encoded length is `Instr.size`, by which the machine
advances `ip` (30_encoding.md rule R73). -/

namespace Sys2Proof

@[simp] theorem leBytes_length (n v : Nat) : (leBytes n v).length = n := by
  induction n generalizing v with
  | zero => rfl
  | succ n ih => simp [leBytes, ih]

@[simp] theorem lz4FieldExt_length (n : Nat) : (lz4FieldExt n).length = lz4FieldExtSize n := by
  unfold lz4FieldExt lz4FieldExtSize lz4LenExt
  split <;> simp

@[simp] theorem varintBytes_length (n v : Nat) : (varintBytes n v).length = n := by
  induction n, v using varintBytes.induct with
  | case1 v => rfl
  | case2 v => rfl
  | case3 n v ih => simp [varintBytes, ih]

end Sys2Proof

namespace Sys2Proof.Laws.EncodedLength

/-- The encoder writes exactly `size` bytes. -/
def Statement (i : Instr) : Prop := (encode i).length = i.size

theorem lz4bCompress : Statement .lz4bCompress := rfl

theorem lz4bDecompress : Statement .lz4bDecompress := rfl

theorem lz4fCompress : Statement .lz4fCompress := rfl

theorem lz4fDecompress : Statement .lz4fDecompress := rfl

theorem snCompress : Statement .snCompress := rfl

theorem snDecompress : Statement .snDecompress := rfl

theorem lz4bMax : Statement .lz4bMax := rfl

theorem lz4fMax : Statement .lz4fMax := rfl

theorem snMax : Statement .snMax := rfl

theorem snSize : Statement .snSize := rfl

theorem lz4Seq (lits : List Byte) (offset : BitVec 16) (mlen : Nat) : Statement (.lz4Seq lits offset mlen) := by
  simp [Statement, encode, Instr.size]; omega

theorem lz4Last (ml : BitVec 4) (lits : List Byte) : Statement (.lz4Last ml lits) := by
  simp [Statement, encode, Instr.size]; omega

theorem snLen (value : BitVec 32) (nbytes : Nat) : Statement (.snLen value nbytes) := by
  simp [Statement, encode, Instr.size]

theorem snLit (lits : List Byte) : Statement (.snLit lits) := by
  simp [Statement, encode, Instr.size]; omega

theorem snLit1 (lits : List Byte) : Statement (.snLit1 lits) := by
  simp [Statement, encode, Instr.size, snLitBytes]; omega

theorem snLit2 (lits : List Byte) : Statement (.snLit2 lits) := by
  simp [Statement, encode, Instr.size, snLitBytes]; omega

theorem snLit3 (lits : List Byte) : Statement (.snLit3 lits) := by
  simp [Statement, encode, Instr.size, snLitBytes]; omega

theorem snLit4 (lits : List Byte) : Statement (.snLit4 lits) := by
  simp [Statement, encode, Instr.size, snLitBytes]; omega

theorem snCopy1 (lenM4 : BitVec 3) (offset : BitVec 11) : Statement (.snCopy1 lenM4 offset) := by
  simp [Statement, encode, Instr.size]

theorem snCopy2 (lenM1 : BitVec 6) (offset : BitVec 16) : Statement (.snCopy2 lenM1 offset) := by
  simp [Statement, encode, Instr.size]

theorem snCopy4 (lenM1 : BitVec 6) (offset : BitVec 32) : Statement (.snCopy4 lenM1 offset) := by
  simp [Statement, encode, Instr.size]

theorem lz4fMagic : Statement .lz4fMagic := by
  simp [Statement, encode, Instr.size]

theorem lz4fFlg (bIndep : Bool) (cSize : Bool) (cChecksum : Bool) : Statement (.lz4fFlg bIndep cSize cChecksum) := rfl

theorem lz4fBd (classM4 : BitVec 2) : Statement (.lz4fBd classM4) := rfl

theorem lz4fCsize (size : BitVec 64) : Statement (.lz4fCsize size) := by
  simp [Statement, encode, Instr.size]

theorem lz4fHc (hc : Byte) : Statement (.lz4fHc hc) := rfl

theorem lz4fEnd : Statement .lz4fEnd := by
  simp [Statement, encode, Instr.size]

theorem lz4fBlock (blen : BitVec 31) : Statement (.lz4fBlock blen) := by
  simp [Statement, encode, Instr.size]

theorem lz4fStored (blen : BitVec 31) : Statement (.lz4fStored blen) := by
  simp [Statement, encode, Instr.size]

theorem lz4fCchk (checksum : BitVec 32) : Statement (.lz4fCchk checksum) := by
  simp [Statement, encode, Instr.size]

end Sys2Proof.Laws.EncodedLength
end

