-- ==== Sys2Proof/Laws/Step.lean ====
section
/-! SUPPORT. What a step can be, said once: who moves, and what the engine meets at `ip`. -/

namespace Sys2Proof.Machine

/-- The next event is the engine's move, a wait that ends or has nothing to wait for, or the host's oldest action. -/
theorem nextEvent_cases (s : State) :
    (∃ s0, EngineMoves s s0 ∧ nextEvent s = engineEvent s0) ∨
    (s.status ≠ .busy ∧ s.host = [] ∧ nextEvent s = .out (.next s)) ∨
    (s.status ≠ .busy ∧ ∃ r, s.host = .tick :: r ∧ nextEvent s = .out (.next { s with host := r })) ∨
    (s.status ≠ .busy ∧ ∃ r, s.host = .poll :: r ∧ nextEvent s = .out (.next (hostRead .status { s with host := r }))) ∨
    (∃ a r, s.host = a :: r ∧ a ≠ .tick ∧ a ≠ .poll ∧ nextEvent s = hostAct a { s with host := r }) := by
  unfold nextEvent engineTurn
  split
  · next h =>
    split
    · next hb => exact .inl ⟨s, ⟨hb, .inl ⟨h, rfl⟩⟩, rfl⟩
    · next hb => exact .inr (.inl ⟨hb, h, rfl⟩)
  · next r h =>
    split
    · next hb => exact .inl ⟨_, ⟨hb, .inr (.inl ⟨r, h, rfl⟩)⟩, rfl⟩
    · next hb => exact .inr (.inr (.inl ⟨hb, r, h, rfl⟩))
  · next r h =>
    split
    · next hb => exact .inl ⟨s, ⟨hb, .inr (.inr ⟨r, h, rfl⟩)⟩, rfl⟩
    · next hb => exact .inr (.inr (.inr (.inl ⟨hb, r, h, rfl⟩)))
  · next a r hp ht h => exact .inr (.inr (.inr (.inr ⟨a, r, h, hp, ht, rfl⟩)))

/-- At its place in the stream the engine meets an instruction, or bytes that are none; outside a command it is at no
place. -/
theorem engineEvent_cases (s : State) :
    (phaseFormat s.phase = none ∧ engineEvent s = .out (.next s)) ∨
    (∃ f i rest, phaseFormat s.phase = some f ∧ decode f (fetchBytes s) = .ok (i, rest) ∧ engineEvent s = .run i s) ∨
    (∃ f e, phaseFormat s.phase = some f ∧ decode f (fetchBytes s) = .error e ∧
      engineEvent s = .out (.next (badElement e s))) := by
  unfold engineEvent
  split
  · next h => exact .inl ⟨h, rfl⟩
  · next f h =>
    split
    · next i rest hd => exact .inr (.inl ⟨f, i, rest, h, hd, rfl⟩)
    · next e hd => exact .inr (.inr ⟨f, e, h, hd, rfl⟩)

/-- Where the engine's move starts from differs in the pending actions alone. -/
theorem EngineMoves_eq {s s0 : State} (h : EngineMoves s s0) : s0 = { s with host := s0.host } := by
  obtain ⟨-, ⟨-, rfl⟩ | ⟨r, -, rfl⟩ | ⟨r, -, rfl⟩⟩ := h <;> rfl

/-- When the engine moves, the step is what it meets at `ip`. -/
theorem nextEvent_of_EngineMoves {s s0 : State} (h : EngineMoves s s0) : nextEvent s = engineEvent s0 := by
  obtain ⟨hb, ⟨hh, rfl⟩ | ⟨r, hh, rfl⟩ | ⟨r, hh, rfl⟩⟩ := h <;> simp [nextEvent, engineTurn, hh, hb]

end Sys2Proof.Machine
end

