-- ==== Sys2Proof/Tests/Slice0.lean ====
section
/-! SUPPORT. Small tests, their expected results taken from the spec's rules and from spec/95_test_vectors.md, and for
each statement a witness that its hypotheses can be met. -/

namespace Sys2Proof.Tests

open Sys2Proof Sys2Proof.Machine

/-! ### Small states -/

/-- No command runs; `IN` holds the bytes and `IN_LEN` is their number; `OUT` is `cap` bytes. -/
def loaded (bytes : List Byte) (cap : Nat) : State :=
  { State.reset with
    inMem := Memory.writeBytes [] 0 bytes, inLen := bytes.length, outCap := cap
    bufs := { inBase := 0, inSize := bytes.length, outBase := bytes.length, outSize := cap } }

/-- A decompress command runs and is about to fetch an object in the phase; `IN` holds the bytes from `ip` 0 on, `OUT` the
bytes before `op`; there is room for 64 more. -/
def running (phase : Phase) (bytes out : List Byte) : State :=
  { loaded bytes (out.length + 64) with
    status := .busy, unread := true, phase := phase, curLen := bytes.length, endIdx := bytes.length, op := out.length
    outMem := Memory.writeBytes [] 0 out, maxOut := out.length + 64, declared := BitVec.ofNat 64 (out.length + 64) }

/-- The outcome is a next state with the property. -/
def nextIs (o : Host.Outcome State Fault Refusal) (p : State → Bool) : Bool :=
  match o with
  | .next t => p t
  | .fault _ => false
  | .refused _ => false

/-- The next state of an outcome that has one. -/
def nextOf (o : Host.Outcome State Fault Refusal) : State :=
  match o with
  | .next t => t
  | .fault _ => State.reset
  | .refused _ => State.reset

/-- `OUT` holds exactly these bytes from index 0 on, and they are the result. -/
def result (bytes : List Byte) (t : State) : Bool :=
  t.status == .done && t.outLen == bytes.length && outBytes t 0 bytes.length == bytes

/-- The decoder reads the instruction and leaves the rest. -/
def reads (f : Format) (bytes : List Byte) (i : Instr) (rest : List Byte) : Bool :=
  match decode f bytes with
  | .ok p => p == (i, rest)
  | .error _ => false

/-- The decoder refuses the bytes for this reason. -/
def rejects (f : Format) (bytes : List Byte) (e : DecodeError) : Bool :=
  match decode f bytes with
  | .ok _ => false
  | .error e' => e' == e

/-- The invariant of a small state, in two parts that `decide` takes. -/
theorem inv_of_parts {s : State} (a : s.params.Admissible ∧ MemoriesCanonical s ∧ StatusMatchesPhase s)
    (b : BusyIsHandsOff s ∧ RegistersFit s ∧ CursorsInBounds s) : Inv s :=
  ⟨a.1, a.2.1, a.2.2, b⟩

/-! ### WellFormed refuses what no encoding holds (30_encoding.md rules R52, R63, R67, R69) -/

theorem test_wf_match_below_four : (Instr.lz4Seq [] 1 3).wf = false := by decide
theorem test_wf_preamble_of_no_byte : (Instr.snLen 0 0).wf = false := by decide
theorem test_wf_preamble_of_six_bytes : (Instr.snLen 0 6).wf = false := by decide
theorem test_wf_preamble_too_short : (Instr.snLen 128 1).wf = false := by decide
theorem test_wf_literal_empty : (Instr.snLit []).wf = false := by decide
theorem test_wf_literal_of_61 : (Instr.snLit (List.replicate 61 0)).wf = false := by decide
theorem test_wf_literal1_empty : (Instr.snLit1 []).wf = false := by decide
theorem test_wf_literal1_of_257 : (Instr.snLit1 (List.replicate 257 0)).wf = false := by
  simp only [Instr.wf, List.length_replicate]; decide
theorem test_wf_literal2_empty : (Instr.snLit2 []).wf = false := by decide
theorem test_wf_literal2_too_long : (Instr.snLit2 (List.replicate 65537 0)).wf = false := by
  simp only [Instr.wf, List.length_replicate]; decide
theorem test_wf_literal3_empty : (Instr.snLit3 []).wf = false := by decide
theorem test_wf_literal3_too_long : (Instr.snLit3 (List.replicate 16777217 0)).wf = false := by
  simp only [Instr.wf, List.length_replicate]; decide
theorem test_wf_literal4_empty : (Instr.snLit4 []).wf = false := by decide
theorem test_wf_literal4_too_long : (Instr.snLit4 (List.replicate 4294967297 0)).wf = false := by
  simp only [Instr.wf, List.length_replicate]; decide
theorem test_wf_block_of_no_byte : (Instr.lz4fBlock 0).wf = false := by decide

/-! ### Every constructor decodes from a word written out from the tables of 30_encoding.md -/

-- `CMD8` (rule R75): bits 7:0 are the code.
theorem test_decode_lz4bCompress : reads .cmd8 [0x01] .lz4bCompress [] = true := by decide
theorem test_decode_lz4bDecompress : reads .cmd8 [0x02] .lz4bDecompress [] = true := by decide
theorem test_decode_lz4fCompress : reads .cmd8 [0x03] .lz4fCompress [] = true := by decide
theorem test_decode_lz4fDecompress : reads .cmd8 [0x04] .lz4fDecompress [] = true := by decide
theorem test_decode_snCompress : reads .cmd8 [0x05] .snCompress [] = true := by decide
theorem test_decode_snDecompress : reads .cmd8 [0x06] .snDecompress [] = true := by decide
theorem test_decode_lz4bMax : reads .cmd8 [0x07] .lz4bMax [] = true := by decide
theorem test_decode_lz4fMax : reads .cmd8 [0x08] .lz4fMax [] = true := by decide
theorem test_decode_snMax : reads .cmd8 [0x09] .snMax [] = true := by decide
theorem test_decode_snSize : reads .cmd8 [0x0A] .snSize [] = true := by decide
-- Token `1F` is LL 1, ML 15; literal 41; offset 01 00; extension FF 7D is 380 (42_lz4_block.md rule R113).
theorem test_decode_lz4Seq :
    reads .lz4Tok [0b00011111, 0x41, 0x01, 0x00, 0xFF, 0x7D, 0x00] (.lz4Seq [0x41] 1 399) [0x00] = true := by decide
-- The literals end the block (rule R55); the low nibble is kept.
theorem test_decode_lz4Last : reads .lz4Tok [0b00101001, 0x61, 0x62] (.lz4Last 9 [0x61, 0x62]) [] = true := by decide
-- `90 03` is 16 + 3 * 128 (rule R67).
theorem test_decode_snLen : reads .snVarint [0b10010000, 0b00000011, 0x00] (.snLen 400 2) [0x00] = true := by decide
-- Tag bits 7:2 are 2, so three literals (rule R69).
theorem test_decode_snLit : reads .snTag [0b00001000, 0x61, 0x62, 0x63, 0x09] (.snLit [0x61, 0x62, 0x63]) [0x09] = true := by
  decide
theorem test_decode_snLit1 : reads .snTag [0xF0, 0x01, 0x61, 0x62] (.snLit1 [0x61, 0x62]) [] = true := by decide
theorem test_decode_snLit2 : reads .snTag [0xF4, 0x02, 0x00, 0x61, 0x62, 0x63] (.snLit2 [0x61, 0x62, 0x63]) [] = true := by
  decide
theorem test_decode_snLit3 :
    reads .snTag [0xF8, 0x02, 0x00, 0x00, 0x61, 0x62, 0x63] (.snLit3 [0x61, 0x62, 0x63]) [] = true := by decide
theorem test_decode_snLit4 :
    reads .snTag [0xFC, 0x02, 0x00, 0x00, 0x00, 0x61, 0x62, 0x63] (.snLit4 [0x61, 0x62, 0x63]) [] = true := by decide
-- Offset bits 10:8 are tag bits 7:5, length minus 4 is tag bits 4:2 (rule R70).
theorem test_decode_snCopy1 : reads .snTag [0b10110101, 0x23] (.snCopy1 5 0x523) [] = true := by decide
-- Length minus 1 is tag bits 7:2 (rules R71, R72).
theorem test_decode_snCopy2 : reads .snTag [0b00001110, 0x00, 0x08] (.snCopy2 3 2048) [] = true := by decide
theorem test_decode_snCopy4 :
    reads .snTag [0b11111111, 0x01, 0x02, 0x03, 0x04] (.snCopy4 63 0x04030201) [] = true := by decide
theorem test_decode_lz4fMagic : reads .magic32 [0x04, 0x22, 0x4D, 0x18] .lz4fMagic [] = true := by decide
-- Version 01, `BIndep` 1, `CSize` 0, `CChecksum` 1 (rule R59).
theorem test_decode_lz4fFlg : reads .flg8 [0b01100100] (.lz4fFlg true false true) [] = true := by decide
-- Class 5 (rule R60).
theorem test_decode_lz4fBd : reads .bd8 [0b01010000] (.lz4fBd 1) [] = true := by decide
theorem test_decode_lz4fCsize :
    reads .csize64 [0x90, 0x01, 0, 0, 0, 0, 0, 0x80] (.lz4fCsize 0x8000000000000190) [] = true := by decide
theorem test_decode_lz4fHc : reads .hc8 [0xB9] (.lz4fHc 0xB9) [] = true := by decide
theorem test_decode_lz4fEnd : reads .bsw [0, 0, 0, 0] .lz4fEnd [] = true := by decide
theorem test_decode_lz4fBlock : reads .bsw [0x07, 0, 0, 0x40] (.lz4fBlock 0x40000007) [] = true := by decide
theorem test_decode_lz4fStored : reads .bsw [0x02, 0, 0, 0x80] (.lz4fStored 2) [] = true := by decide
theorem test_decode_lz4fCchk : reads .cchk32 [0x68, 0xE0, 0xD0, 0xB1] (.lz4fCchk 0xB1D0E068) [] = true := by decide

-- What is refused, by name (rules R74, R76, R77; 40_varint_length_codecs.md rule R81).
theorem test_reject_code_0 : rejects .cmd8 [0x00] .reservedCommand = true := by decide
theorem test_reject_code_11 : rejects .cmd8 [0x0B] .reservedCommand = true := by decide
theorem test_reject_legacy_magic : rejects .magic32 [0x02, 0x21, 0x4C, 0x18] .badMagic = true := by decide
theorem test_reject_dict_id : rejects .flg8 [0x65] .badFlg = true := by decide
theorem test_reject_class_3 : rejects .bd8 [0x30] .badBd = true := by decide
theorem test_reject_varint_of_33_bits : rejects .snVarint [0xFF, 0xFF, 0xFF, 0xFF, 0x10] .badVarint = true := by decide
theorem test_cut_offset : rejects .lz4Tok [0x10, 0x58, 0x01] (.cutOffset 0x10 [0x58]) = true := by decide
theorem test_cut_match_extension : rejects .lz4Tok [0x1F, 0x58, 0x01, 0x00, 0xFF] (.cutMatchExt 0x1F [0x58] 1) = true := by
  decide

/-! ### The opcode table's words -/

theorem test_table_word_command : decodeTableWord 8 6 = some .snDecompress := by decide
theorem test_table_word_literal1 : decodeTableWord 8 0xF0 = some (.snLit1 [0]) := by decide
theorem test_table_word_stored : decodeTableWord 32 0x80000000 = some (.lz4fStored 0) := by decide
theorem test_table_word_size : decodeTableWord 64 5 = some (.lz4fCsize 5) := by decide
theorem test_fetch_word_command : nextIs (step (State.reset.withFetchWord 8 7)) (fun t => t.result == 16) = true := by decide
theorem test_fetch_word_element : nextIs (step (State.reset.withFetchWord 8 0x40)) (fun t => t.phase == .hc) = true := by
  decide

/-! ### One step of each instruction -/

-- 42_lz4_block.md rule R105, 95_test_vectors.md scenario 2.
theorem test_lz4bCompress_x :
    nextIs (exec .lz4bCompress (loaded [0x58] 17)) (result [0x10, 0x58]) = true := by decide
-- 45_commands.md rule R161: with no room every input fails.
theorem test_lz4bCompress_no_room :
    nextIs (exec .lz4bCompress (loaded [] 0)) (fun t => t.err == some .outputTooSmall) = true := by decide
-- 45_commands.md rule R162: the empty block succeeds.
theorem test_lz4bDecompress_empty :
    nextIs (exec .lz4bDecompress (loaded [] 0)) (fun t => t.status == .done && t.outLen == 0) = true := by decide
theorem test_lz4bDecompress_starts :
    nextIs (exec .lz4bDecompress (loaded [0x10, 0x58] 1))
      (fun t => t.status == .busy && t.phase == .block && t.endIdx == 2) = true := by decide
-- 43_lz4_frame.md rule R122: `IN` = "X", default options.
theorem test_lz4fCompress_x :
    nextIs (exec .lz4fCompress (loaded [0x58] 44))
      (result [0x04, 0x22, 0x4D, 0x18, 0x64, 0x70, 0xB9, 0x02, 0, 0, 0, 0x10, 0x58, 0, 0, 0, 0, 0xD1, 0x5C, 0x4A, 0x16]) =
      true := by decide
-- 95_test_vectors.md program 4.
theorem test_lz4fCompress_size :
    nextIs (exec .lz4fCompress { loaded [0x58] 44 with opts := 3, contentSize := 1 })
      (result [0x04, 0x22, 0x4D, 0x18, 0x6C, 0x70, 0x01, 0, 0, 0, 0, 0, 0, 0, 0x74, 0x02, 0, 0, 0, 0x10, 0x58, 0, 0, 0, 0,
        0xD1, 0x5C, 0x4A, 0x16]) = true := by decide
theorem test_lz4fDecompress_starts :
    nextIs (exec .lz4fDecompress (loaded [0xFF] 1)) (fun t => t.status == .busy && t.phase == .magic) = true := by decide
-- 44_snappy.md rule R144: the empty input, and fifteen bytes of one value.
theorem test_snCompress_empty : nextIs (exec .snCompress (loaded [] 1)) (result [0x00]) = true := by decide
theorem test_snCompress_run :
    nextIs (exec .snCompress (loaded (List.replicate 15 0x41) 40)) (result [0x0F, 0x00, 0x41, 0x36, 0x01, 0x00]) =
      true := by decide
theorem test_snDecompress_starts :
    nextIs (exec .snDecompress (loaded [0x00] 0)) (fun t => t.status == .busy && t.phase == .snLen) = true := by decide
-- 95_test_vectors.md section 2.11.
theorem test_lz4bMax_400 : nextIs (exec .lz4bMax { State.reset with inLen := 400 }) (fun t => t.result == 417) = true := by
  decide
theorem test_lz4bMax_saturates :
    nextIs (exec .lz4bMax { State.reset with inLen := 0xFFFFFFFFFFFFFF9B }) (fun t => t.result == 0xFFFFFFFFFFFFFFFF) =
      true := by decide
theorem test_lz4fMax_400 : nextIs (exec .lz4fMax { State.reset with inLen := 400 }) (fun t => t.result == 444) = true := by
  decide
theorem test_lz4fMax_saturates :
    nextIs (exec .lz4fMax { State.reset with inLen := 0xFFFFFFFFFFFFFF9B }) (fun t => t.result == 0xFFFFFFFFFFFFFFFF) =
      true := by decide
theorem test_snMax_400 : nextIs (exec .snMax { State.reset with inLen := 400 }) (fun t => t.result == 498) = true := by
  decide
theorem test_snMax_saturates :
    nextIs (exec .snMax { State.reset with inLen := 0xFFFFFFFFFFFFFF9B }) (fun t => t.result == 0xFFFFFFFFFFFFFFFF) =
      true := by decide
-- 44_snappy.md rule R151.
theorem test_snSize_400 :
    nextIs (exec .snSize (loaded [0x90, 0x03, 0x00] 0)) (fun t => t.result == 400 && t.outLen == 0) = true := by decide
theorem test_snSize_empty : nextIs (exec .snSize (loaded [] 0)) (fun t => t.err == some .invalidData) = true := by decide
-- 95_test_vectors.md program 5: a match that copies its own literal, and an offset that is too large.
theorem test_lz4Seq_repeats :
    nextIs (step (running .block [0x10, 0x58, 0x01, 0x00] [])) (result [0x58, 0x58, 0x58, 0x58, 0x58]) = true := by decide
theorem test_lz4Seq_offset_too_large :
    nextIs (step (running .block [0x10, 0x58, 0x02, 0x00] [])) (fun t => t.err == some .invalidData && t.outLen == 0) =
      true := by decide
-- 45_commands.md rule R162: `10 58`, and the same with `MAX_OUT = 0`, where both limits fail.
theorem test_lz4Last_x : nextIs (step (running .block [0x10, 0x58] [])) (result [0x58]) = true := by decide
theorem test_lz4Last_too_large :
    nextIs (step { running .block [0x10, 0x58] [] with maxOut := 0, outCap := 0 })
      (fun t => t.err == some .outputTooLarge) = true := by decide
-- 44_snappy.md rule R145; 95_test_vectors.md section 2.10: `00` is complete at once, a cut preamble is `InvalidData`.
theorem test_snLen_zero : nextIs (step (running .snLen [0x00, 0xFF] [])) (result []) = true := by decide
theorem test_snLen_cut : nextIs (step (running .snLen [0x80] [])) (fun t => t.err == some .invalidData) = true := by decide
-- 44_snappy.md rule R146, with `declared = 5`.
theorem test_snLit_five :
    nextIs (step { running .snTag [0x10, 0x31, 0x32, 0x33, 0x34, 0x35] [] with declared := 5 })
      (result [0x31, 0x32, 0x33, 0x34, 0x35]) = true := by decide
theorem test_snLit_cut :
    nextIs (step { running .snTag [0x10, 0x31, 0x32, 0x33, 0x34] [] with declared := 5 })
      (fun t => t.err == some .unexpectedEof) = true := by decide
theorem test_snLit1_five :
    nextIs (step { running .snTag [0xF0, 0x04, 0x31, 0x32, 0x33, 0x34, 0x35] [] with declared := 5 })
      (result [0x31, 0x32, 0x33, 0x34, 0x35]) = true := by decide
-- 95_test_vectors.md section 2.10: the classes 61, 62, 63, and a literal that passes the declared length.
theorem test_snLit2_three :
    nextIs (step { running .snTag [0xF4, 0x02, 0x00, 0x61, 0x62, 0x63] [] with declared := 3 })
      (result [0x61, 0x62, 0x63]) = true := by decide
theorem test_snLit3_three :
    nextIs (step { running .snTag [0xF8, 0x02, 0x00, 0x00, 0x61, 0x62, 0x63] [] with declared := 3 })
      (result [0x61, 0x62, 0x63]) = true := by decide
theorem test_snLit4_three :
    nextIs (step { running .snTag [0xFC, 0x02, 0x00, 0x00, 0x00, 0x61, 0x62, 0x63] [] with declared := 3 })
      (result [0x61, 0x62, 0x63]) = true := by decide
theorem test_snLit4_passes_declared :
    nextIs (step { running .snTag [0xFC, 0x02, 0x00, 0x00, 0x00, 0x61, 0x62, 0x63] [] with declared := 2 })
      (fun t => t.err == some .invalidData) = true := by decide
-- 44_snappy.md rule R147, with `declared = 10`, `OUT[0] = 61`, `op = 1`.
theorem test_snCopy1_overlap :
    nextIs (step { running .snTag [0x15, 0x01] [0x61] with declared := 10 }) (result (List.replicate 10 0x61)) = true := by
  decide
theorem test_snCopy1_passes_declared :
    nextIs (step { running .snTag [0x1D, 0x01] [0x61] with declared := 10 }) (fun t => t.err == some .invalidData) =
      true := by decide
-- 44_snappy.md rules R148, R149.
theorem test_snCopy2_three :
    nextIs (step { running .snTag [0x0A, 0x01, 0x00] [0x61] with declared := 4 }) (result [0x61, 0x61, 0x61, 0x61]) =
      true := by decide
theorem test_snCopy2_cut :
    nextIs (step { running .snTag [0x0A, 0x01] [0x61] with declared := 4 }) (fun t => t.err == some .unexpectedEof) =
      true := by decide
theorem test_snCopy4_four :
    nextIs (step { running .snTag [0x0F, 0x04, 0, 0, 0] [0x61, 0x62, 0x63, 0x64] with declared := 8 })
      (result [0x61, 0x62, 0x63, 0x64, 0x61, 0x62, 0x63, 0x64]) = true := by decide
theorem test_snCopy4_offset_too_large :
    nextIs (step { running .snTag [0x0F, 0x05, 0, 0, 0] [0x61, 0x62, 0x63, 0x64] with declared := 8 })
      (fun t => t.err == some .invalidData) = true := by decide
-- 43_lz4_frame.md rule R123.
theorem test_lz4fMagic_seven :
    nextIs (step (running .magic [0x04, 0x22, 0x4D, 0x18, 0x64, 0x70, 0xB9] [])) (fun t => t.phase == .flg && t.ip == 4) =
      true := by decide
theorem test_lz4fMagic_six :
    nextIs (step (running .magic [0x04, 0x22, 0x4D, 0x18, 0x64, 0x70] [])) (fun t => t.err == some .invalidData) =
      true := by decide
theorem test_lz4fFlg_size : nextIs (step (running .flg [0x6C] [])) (fun t => t.flg == 0x6C && t.hdrLen == 15) = true := by
  decide
theorem test_lz4fFlg_version : nextIs (step (running .flg [0xA4] [])) (fun t => t.err == some .invalidData) = true := by decide
theorem test_lz4fBd_class_7 :
    nextIs (step { running .bd [0x70] [] with flg := 0x64 }) (fun t => t.bd == 0x70 && t.phase == .hc) = true := by decide
theorem test_lz4fBd_cut_header :
    nextIs (step { running .bd [0x70] [] with flg := 0x6C, hdrLen := 15 }) (fun t => t.err == some .invalidData) =
      true := by decide
theorem test_lz4fCsize_at_limit :
    nextIs (step { running .csize [0x01, 0, 0, 0, 0, 0, 0, 0] [] with maxOut := 1 })
      (fun t => t.declared == 1 && t.phase == .hc) = true := by decide
theorem test_lz4fCsize_above_limit :
    nextIs (step { running .csize [0x01, 0, 0, 0, 0, 0, 0, 0] [] with maxOut := 0 })
      (fun t => t.err == some .outputTooLarge) = true := by decide
theorem test_lz4fHc_wrong : nextIs (step (running .hc [0x00] [])) (fun t => t.phase == .bsw && t.ip == 1) = true := by decide
-- 43_lz4_frame.md rules R124, R125.
theorem test_lz4fEnd_done :
    nextIs (step { running .bsw [0, 0, 0, 0] [0x61] with flg := 0x60 }) (result [0x61]) = true := by decide
theorem test_lz4fEnd_checksum :
    nextIs (step { running .bsw [0, 0, 0, 0] [0x61] with flg := 0x64 }) (fun t => t.phase == .cchk && t.ip == 4) = true := by
  decide
theorem test_lz4fBlock_independent :
    nextIs (step { running .bsw [1, 0, 0, 0, 0x00] [0x61] with flg := 0x60 })
      (fun t => t.phase == .frameBlock && t.base == 1 && t.ip == 4 && t.endIdx == 5) = true := by decide
theorem test_lz4fBlock_cut :
    nextIs (step (running .bsw [2, 0, 0, 0, 0x00] [])) (fun t => t.err == some .unexpectedEof) = true := by decide
theorem test_lz4fStored_empty :
    nextIs (step (running .bsw [0, 0, 0, 0x80] [])) (fun t => t.phase == .bsw && t.ip == 4 && t.op == 0) = true := by decide
theorem test_lz4fStored_two :
    nextIs (step (running .bsw [2, 0, 0, 0x80, 0x61, 0x62] []))
      (fun t => t.ip == 6 && t.op == 2 && outBytes t 0 2 == [0x61, 0x62]) = true := by decide
-- `XXH32("X")` is `0x164A5CD1` (43_lz4_frame.md rule R120).
theorem test_lz4fCchk_right : nextIs (step (running .cchk [0xD1, 0x5C, 0x4A, 0x16] [0x58])) (result [0x58]) = true := by decide
theorem test_lz4fCchk_wrong :
    nextIs (step (running .cchk [0xD1, 0x5C, 0x4A, 0x17] [0x58])) (fun t => t.err == some .checksumMismatch) = true := by
  decide

/-! ### The host (95_test_vectors.md section 2.12) -/

theorem test_host_reserved_code :
    nextIs (step { State.reset with host := [.writeReg .cmd 200] })
      (fun t => readReg .cmd t == 200 && readReg .status t == 3 && readReg .err t == 7) = true := by decide
theorem test_host_code_truncated :
    nextIs (step { State.reset with inLen := 400, host := [.writeReg .cmd 0x107] })
      (fun t => readReg .cmd t == 7 && readReg .status t == 2 && readReg .result t == 417) = true := by decide
theorem test_host_opts_truncated :
    nextIs (step { State.reset with host := [.writeReg .opts 0xFF] }) (fun t => t.opts == 3) = true := by decide
-- 70_reset_and_hazards.md rule R205, 20_memory.md rule R41: until the host has read `STATUS != BUSY`.
theorem test_host_unread :
    nextIs (step { loaded [0x58] 2 with host := [.writeReg .cmd 1] })
      (fun t => t.status == .done && decide (HandsOff t)) = true := by decide
theorem test_host_unread_refused :
    step { loaded [0x58] 2 with status := .done, unread := true, host := [.readOut 0] } = .refused .hostWhileBusy := by rfl
theorem test_host_status_read :
    nextIs (step { loaded [0x58] 2 with status := .done, unread := true, host := [.readReg .status] })
      (fun t => t.hostData == 2 && !decide (HandsOff t)) = true := by decide
theorem test_host_poll_ends :
    nextIs (step { loaded [0x58] 2 with status := .error, unread := true, host := [.poll] })
      (fun t => t.hostData == 3 && !decide (HandsOff t) && t.host == []) = true := by decide
theorem test_host_other_read :
    nextIs (step { loaded [0x58] 2 with status := .done, unread := true, host := [.readReg .err] })
      (fun t => decide (HandsOff t)) = true := by decide
-- 20_memory.md rule R35: overlapping ranges are refused for every command.
theorem test_snSize_overlap :
    exec .snSize { loaded [0x00] 0 with bufs := ⟨0, 2, 1, 1⟩ } = .refused .buffersOverlap := by rfl
theorem test_lz4bMax_overlap :
    exec .lz4bMax { State.reset with bufs := ⟨0, 2, 1, 1⟩ } = .refused .buffersOverlap := by rfl
-- 70_reset_and_hazards.md rule R206: `OUT_CAP` beyond its range is refused for every command.
theorem test_snSize_out_cap :
    exec .snSize { loaded [0x00] 0 with outCap := 1 } = .refused .beyondBuffers := by rfl
theorem test_snMax_out_cap : exec .snMax { State.reset with outCap := 1 } = .refused .beyondBuffers := by rfl
theorem test_host_busy : step { running .hc [0x00] [] with host := [.readIn 0] } = .refused .hostWhileBusy := by rfl

/-! ### Witnesses: for each statement, states and operands that meet its hypotheses, each clause at its boundary -/

theorem witness_DecodeInvertsEncode :
    ((Instr.lz4Seq [] 0 4).wf = true ∧ ∀ ml lits, Instr.lz4Seq [] 0 4 = .lz4Last ml lits → [0x00] = ([] : List Byte)) ∧
    ((Instr.lz4Last 15 []).wf = true ∧ ∀ ml lits, Instr.lz4Last 15 [] = .lz4Last ml lits → ([] : List Byte) = []) ∧
    (Instr.snLen 0xFFFFFFFF 5).wf = true ∧ (Instr.snLit (List.replicate 60 0)).wf = true ∧ (Instr.lz4fBlock 1).wf = true :=
  ⟨⟨rfl, nofun⟩, ⟨rfl, fun _ _ _ => rfl⟩, rfl, rfl, rfl⟩

theorem witness_EncodeInvertsDecode :
    decode .lz4Tok [0x0F] = .ok (.lz4Last 15 [], []) ∧ decode .snVarint [0x80, 0x00, 0x07] = .ok (.snLen 0 2, [0x07]) :=
  ⟨rfl, rfl⟩

theorem witness_ReservedEncodingsRejected :
    decode .flg8 [0x6C] ≠ .error .badFlg ∧ decode .bd8 [0x40] ≠ .error .badBd := ⟨nofun, nofun⟩

theorem witness_LengthCodecLaws :
    2 ^ 32 - 1 < 2 ^ 32 ∧ readLz4LenExt [0xFF, 0x00] = some (255, []) ∧ 2 ^ 32 ≤ 2 ^ 64 - 1 ∧ 2 ^ 64 - 1 < 2 ^ 64 ∧
    (loaded [] 0).status ≠ .busy ∧ 2 ^ 32 ≤ { loaded [] 0 with inLen := 2 ^ 32 }.inLen := by decide

theorem witness_StepRunsDecodedInstruction :
    (let s := running .hc [0xB9] []
     s.status = .busy ∧ phaseFormat s.phase = some .hc8 ∧ decode .hc8 (fetchBytes s) = .ok (.lz4fHc 0xB9, []) ∧
     s.host = [] ∧ { s with host := [.tick] }.host = .tick :: [] ∧ { s with host := [.poll] }.host = .poll :: []) ∧
    (State.reset.status ≠ .busy ∧ { State.reset with host := [.writeReg .cmd 0x107] }.host = .writeReg .cmd 0x107 :: [] ∧
     decode .cmd8 [BitVec.ofNat 8 0x107] = .ok (.lz4bMax, [])) :=
  ⟨⟨rfl, rfl, rfl, rfl, rfl, rfl⟩, by decide, rfl, rfl⟩

theorem witness_BadObjectKind :
    (let s := running .hc [] []
     EngineMoves s s ∧ phaseFormat s.phase = some .hc8 ∧ decode .hc8 (fetchBytes s) = .error .cut) ∧
    (let s := { running .bsw [0, 0, 0] [] with host := [.tick, .poll] }
     EngineMoves s { s with host := [.poll] } ∧ phaseFormat s.phase = some .bsw ∧ decode .bsw (fetchBytes s) = .error .cut) ∧
    (let s := { running .snLen [0xFF, 0xFF, 0xFF, 0xFF, 0x10] [] with host := [.poll] }
     EngineMoves s s ∧ phaseFormat s.phase = some .snVarint ∧
     decode .snVarint (fetchBytes s) = .error .badVarint) ∧
    decode .magic32 (fetchBytes (running .magic [0x05, 0x22, 0x4D, 0x18] [])) = .error .badMagic ∧
    decode .flg8 (fetchBytes (running .flg [0x41] [])) = .error .badFlg ∧
    decode .bd8 (fetchBytes (running .bd [0x80] [])) = .error .badBd :=
  ⟨⟨⟨rfl, .inl ⟨rfl, rfl⟩⟩, rfl, rfl⟩, ⟨⟨rfl, .inr (.inl ⟨_, rfl, rfl⟩)⟩, rfl, rfl⟩,
    ⟨⟨rfl, .inr (.inr ⟨_, rfl, rfl⟩)⟩, rfl, rfl⟩, rfl, rfl, rfl⟩

theorem witness_CutSequenceEffects :
    (let s := { running .block [0x10, 0x58, 0x01] [] with host := [.tick] }
     EngineMoves s { s with host := [] } ∧ phaseFormat s.phase = some .lz4Tok ∧ Memory.wf s.outMem ∧
     decode .lz4Tok (fetchBytes s) = .error (.cutOffset 0x10 [0x58])) ∧
    (let s := running .frameBlock [0x1F, 0x58, 0x01, 0x00, 0xFF] [0x61]
     EngineMoves s s ∧ phaseFormat s.phase = some .lz4Tok ∧ Memory.wf s.outMem ∧
     decode .lz4Tok (fetchBytes s) = .error (.cutMatchExt 0x1F [0x58] 1)) :=
  ⟨⟨⟨rfl, .inr (.inl ⟨_, rfl, rfl⟩)⟩, rfl, by decide, rfl⟩, ⟨⟨rfl, .inl ⟨rfl, rfl⟩⟩, rfl, by decide, rfl⟩⟩

theorem witness_ResetShowsTheTable :
    (loaded [0x58] 1).status ≠ .busy ∧ { loaded [0x58] 1 with host := [.reset] }.host = .reset :: [] := by decide

theorem witness_ResetDuringCommand :
    ((running .hc [0x00] []).status = .busy ∧ { running .hc [0x00] [] with host := [.reset] }.host = .reset :: []) ∧
    ((loaded [0x58] 17).status ≠ .busy ∧ { loaded [0x58] 17 with host := [.abandon 1] }.host = .abandon 1 :: [] ∧
     decodeCommand (BitVec.ofNat 8 1) = some .lz4bCompress ∧
     commandRefusal .lz4bCompress { loaded [0x58] 17 with host := [] } = none) := by decide

theorem witness_ResetMeetsInvariant :
    Params.default.Admissible ∧
    Params.Admissible { sizeBits := 32, posBits := 32, lz4MfLimit := 12, lz4LastLiterals := 5 } := by decide

theorem witness_IgnoredWrites :
    (let s := { running .hc [0x00] [] with host := [.writeReg .cmd 1] }
     s.status = .busy ∧ s.host = .writeReg .cmd 1 :: []) ∧
    { State.reset with host := [.writeReg .result 9] }.host = .writeReg .result 9 :: [] ∧
    (let s := { running .hc [0x00] [] with host := [.writeReg .opts 1] }
     HandsOff s ∧ s.host = .writeReg .opts 1 :: []) ∧
    HandsOff { State.reset with status := .done, unread := true, host := [.writeReg .opts 1] } := by decide

theorem witness_ReservedCommandCodes :
    State.reset.status ≠ .busy ∧ { State.reset with host := [.writeReg .cmd 256] }.host = .writeReg .cmd 256 :: [] ∧
    (256 % 256 = 0 ∨ 11 ≤ 256 % 256) ∧ (11 % 256 = 0 ∨ 11 ≤ 11 % 256) ∧ (255 % 256 = 0 ∨ 11 ≤ 255 % 256) := by decide

theorem witness_ArgumentWrites :
    ¬ HandsOff State.reset ∧
    { State.reset with host := [.writeReg .inLen (2 ^ 64)] }.host = .writeReg .inLen (2 ^ 64) :: [] ∧
    { State.reset with host := [.writeReg .outCap 1] }.host = .writeReg .outCap 1 :: [] ∧
    { State.reset with host := [.writeReg .maxOut 1] }.host = .writeReg .maxOut 1 :: [] ∧
    { State.reset with host := [.writeReg .opts 4] }.host = .writeReg .opts 4 :: [] ∧
    { State.reset with host := [.writeReg .contentSize 1] }.host = .writeReg .contentSize 1 :: [] := by decide

theorem witness_RegisterReads :
    { running .hc [0x00] [] with host := [.readReg .status] }.host = .readReg .status :: [] := by decide

theorem witness_HostBufferAccess :
    (let s := { loaded [0x58] 2 with host := [.writeIn 0 7] }
     ¬ HandsOff s ∧ 0 < s.bufs.inSize ∧ s.host = .writeIn 0 7 :: []) ∧
    { loaded [0x58] 2 with host := [.readIn 0] }.host = .readIn 0 :: [] ∧
    (let s := { loaded [0x58] 2 with host := [.writeOut 1 7] }
     ¬ HandsOff s ∧ 1 < s.bufs.outSize ∧ s.host = .writeOut 1 7 :: []) ∧
    { loaded [0x58] 2 with host := [.readOut 1] }.host = .readOut 1 :: [] ∧
    (let s := { loaded [0x58] 2 with host := [.readIn 1] }
     ¬ HandsOff s ∧ s.bufs.inSize ≤ 1 ∧ (s.host = .writeIn 1 7 :: [] ∨ s.host = .readIn 1 :: [])) ∧
    (let s := { loaded [0x58] 2 with host := [.writeOut 2 7] }
     ¬ HandsOff s ∧ s.bufs.outSize ≤ 2 ∧ (s.host = .writeOut 2 7 :: [] ∨ s.host = .readOut 2 :: [])) ∧
    (let s := { running .hc [0x00] [] with host := [.readOut 0] }
     HandsOff s ∧ s.host = .readOut 0 :: []) := by decide

theorem witness_HostBufferAccess_ranges :
    (let s := { State.reset with host := [.provide 0 1 1 2] }
     s.host = .provide 0 1 1 2 :: [] ∧ ¬ HandsOff s) ∧
    (let s := { running .hc [0x00] [] with host := [.provide 0 1 1 2] }
     s.host = .provide 0 1 1 2 :: [] ∧ HandsOff s) := by decide

theorem witness_HandsOffUntilStatusRead :
    (let s := { loaded [0x58] 2 with host := [.writeReg .cmd 1] }
     s.status ≠ .busy ∧ s.host = .writeReg .cmd 1 :: [] ∧ ∃ t, step s = .next t) ∧
    (let s := { loaded [0x58] 2 with status := .done, unread := true, host := [.poll] }
     BusyIsHandsOff s ∧ HandsOff s ∧ s.status ≠ .busy ∧ s.host = .poll :: [] ∧ ∃ t, step s = .next t ∧ ¬ HandsOff t) ∧
    (let s := { running .hc [0x00] [] with host := [.reset] }
     BusyIsHandsOff s ∧ HandsOff s ∧ ∃ t, step s = .next t ∧ ¬ HandsOff t) ∧
    (let s := running .hc [0x00] []
     BusyIsHandsOff s ∧ ∃ t, step s = .next t) :=
  ⟨⟨by decide, rfl, _, rfl⟩, ⟨by decide, by decide, by decide, rfl, _, rfl, by decide⟩,
    ⟨by decide, by decide, _, rfl, by decide⟩, by decide, _, rfl⟩

theorem witness_LaunchLimits :
    (loaded [0x58] 2).status ≠ .busy ∧ buffersOverlap (loaded [0x58] 2).bufs = false ∧
    buffersOverlap { inBase := 0, inSize := 2, outBase := 1, outSize := 1 } = true ∧
    (running .hc [0x00] []).status = .busy ∧ Instr.lz4bMax.format = .cmd8 := by decide

/-- Two ranges with one byte in common, and two that only touch. -/
theorem witness_LaunchLimits_bytes :
    SomeByteInBoth ⟨0, 2, 1, 1⟩ ∧ ¬ SomeByteInBoth ⟨0, 1, 1, 1⟩ :=
  ⟨⟨1, by decide⟩, fun ⟨_, h⟩ => by simp only at h; omega⟩

theorem witness_BoundQueries :
    State.reset.status ≠ .busy ∧ buffersOverlap State.reset.bufs = false ∧ State.reset.outCap ≤ State.reset.bufs.outSize ∧
    buffersOverlap { inBase := 0, inSize := 2, outBase := 2, outSize := 1 } = false := by decide

theorem witness_SizeQuery :
    (let s := loaded [0x90, 0x03] 0
     Launchable s ∧
     readVarint 0 (inBytes s 0 s.inLen) = .ok (400, 2, [])) ∧
    (let s := loaded [0x80] 0
     Launchable s ∧
     readVarint 0 (inBytes s 0 s.inLen) = .error .cut) ∧
    (let s := loaded [] 0
     Launchable s ∧ s.inLen = 0) :=
  ⟨⟨by decide, rfl⟩, ⟨by decide, rfl⟩, by decide⟩

theorem witness_DecompressStarts :
    (Launchable (loaded [0x00] 1) ∧ 0 < (loaded [0x00] 1).inLen) ∧ (Launchable (loaded [] 0) ∧ (loaded [] 0).inLen = 0) := by
  decide

theorem witness_SmallInputs :
    (let s := loaded (List.replicate 14 0x41) 15
     Launchable s ∧ CellsHoldPositions s ∧ Memory.wf s.outMem ∧ s.inLen < 15 ∧ s.inLen + 1 ≤ s.outCap) ∧
    (let s := loaded [] 1
     Launchable s ∧ CellsHoldPositions s ∧ Memory.wf s.outMem ∧ s.inLen < 15 ∧ s.inLen = 0 ∧ 1 ≤ s.outCap) ∧
    (let s := loaded [0x41] 3
     Launchable s ∧ CellsHoldPositions s ∧ Memory.wf s.outMem ∧ s.inLen < 15 ∧ 0 < s.inLen ∧ s.inLen + 2 ≤ s.outCap) := by
  decide

theorem witness_CompressEnds :
    (let s := loaded [0x41] 3
     Launchable s ∧ CellsHoldPositions s ∧ IsCompress .lz4bCompress ∧ IsCompress .lz4fCompress ∧
     IsCompress .snCompress ∧ s.inLen ≤ 0x7E000000 ∧ s.inLen < 2 ^ 32) ∧
    (let s := loaded [] 0
     Launchable s ∧ CellsHoldPositions s ∧ s.outCap = 0) := by decide

theorem witness_Lz4BlockBound :
    let s := loaded [0x41] 17
    s.params.Admissible ∧ Launchable s ∧ CellsHoldPositions s ∧ s.inLen + s.inLen / 255 + 16 ≤ s.params.sizeMax ∧
    lz4BlockMax s.params s.inLen ≤ s.outCap := by decide

theorem witness_Lz4FrameBound :
    let s := loaded [0x41] 44
    s.params.Admissible ∧ Launchable s ∧ CellsHoldPositions s ∧ s.inLen ≤ 0x7E000000 ∧
    lz4FrameMax s.params s.inLen ≤ s.outCap := by decide

theorem witness_SnappyBound :
    let s := loaded [0x41] 33
    Launchable s ∧ CellsHoldPositions s ∧ s.inLen < 2 ^ 32 ∧ 32 + s.inLen + s.inLen / 6 ≤ s.params.sizeMax ∧
    snMaxSize s.params s.inLen ≤ s.outCap := by decide

/-- "X" compressed. -/
def xBlock : State := nextOf (exec .lz4bCompress (loaded [0x58] 2))
def xFrame : State := nextOf (exec .lz4fCompress (loaded [0x58] 21))
def xSnappy : State := nextOf (exec .snCompress (loaded [0x58] 3))

theorem witness_CompressCapacity :
    let s := loaded [0x58] 2
    IsCompress .lz4bCompress ∧ s.status ≠ .busy ∧ Memory.wf s.outMem ∧ exec .lz4bCompress s = .next xBlock ∧
    Completed 2 0 xBlock ∧ 2 ≤ s.bufs.outSize ∧ 1 ≤ s.bufs.outSize ∧ 1 < 2 :=
  ⟨by decide, by decide, by decide, rfl, by decide, by decide, by decide, by decide⟩

theorem witness_CompressDependsOnOperands :
    let s := loaded [0x58] 2
    let u := { s with ht := [(5, 7)], i := 3, maxOut := 0, outLen := 4, status := .error }
    s.params.Admissible ∧ IsCompress .lz4bCompress ∧ s.status ≠ .busy ∧ u.status ≠ .busy ∧ Memory.wf s.outMem ∧ Memory.wf u.outMem ∧
    u.params = s.params ∧ u.inLen = s.inLen ∧ u.outCap = s.outCap ∧ u.opts = s.opts ∧
    u.contentSize = s.contentSize ∧ (∀ a, a < s.inLen → Memory.read u.inMem a = Memory.read s.inMem a) ∧
    exec .lz4bCompress s = .next xBlock ∧ ∃ v, exec .lz4bCompress u = .next v :=
  ⟨by decide, by decide, by decide, by decide, by decide, by decide, rfl, rfl, rfl, rfl, rfl, fun _ _ => rfl, rfl, _, rfl⟩

theorem witness_FrameWrapsBlock :
    let s := loaded [0x58] 21
    s.status ≠ .busy ∧ Memory.wf s.outMem ∧ exec .lz4fCompress s = .next xFrame ∧ xFrame.status = .done :=
  ⟨by decide, by decide, rfl, by decide⟩

theorem witness_SizeOfCompressed :
    let s := loaded [0x58] 3
    let u := loaded [0x01, 0x00, 0x58] 0
    s.status ≠ .busy ∧ Memory.wf s.outMem ∧ exec .snCompress s = .next xSnappy ∧ xSnappy.status = .done ∧
    Launchable u ∧ u.inLen = xSnappy.outLen ∧
    inBytes u 0 u.inLen = outBytes xSnappy 0 xSnappy.outLen :=
  ⟨by decide, by decide, rfl, by decide, by decide, by decide, by decide⟩

theorem witness_Lz4BlockRoundTrip :
    let s := loaded [0x58] 2
    let u := { loaded [0x10, 0x58] 1 with maxOut := 1 }
    s.params.Admissible ∧ s.status ≠ .busy ∧ Memory.wf s.outMem ∧ exec .lz4bCompress s = .next xBlock ∧
    xBlock.status = .done ∧ Launchable u ∧ Memory.wf u.outMem ∧ u.host = [] ∧ u.inLen = xBlock.outLen ∧
    inBytes u 0 u.inLen = outBytes xBlock 0 xBlock.outLen ∧ s.inLen ≤ u.outCap ∧ s.inLen ≤ u.maxOut :=
  ⟨by decide, by decide, by decide, rfl, by decide, by decide, by decide, rfl, by decide, by decide, by decide, by decide⟩

theorem witness_SnappyRoundTrip :
    let s := loaded [0x58] 3
    let u := { loaded [0x01, 0x00, 0x58] 1 with maxOut := 1 }
    s.status ≠ .busy ∧ Memory.wf s.outMem ∧ exec .snCompress s = .next xSnappy ∧ xSnappy.status = .done ∧
    Launchable u ∧ Memory.wf u.outMem ∧ u.host = [] ∧ u.inLen = xSnappy.outLen ∧
    inBytes u 0 u.inLen = outBytes xSnappy 0 xSnappy.outLen ∧ s.inLen ≤ u.outCap ∧ s.inLen ≤ u.maxOut :=
  ⟨by decide, by decide, rfl, by decide, by decide, by decide, rfl, by decide, by decide, by decide, by decide⟩

theorem witness_Lz4Last :
    (let s := { running .block [0x10, 0x58] [] with outCap := 1, maxOut := 1 }
     Memory.wf s.outMem ∧ (s.phase = .block ∨ s.phase = .frameBlock) ∧ s.op + 1 ≤ s.maxOut ∧ s.op + 1 ≤ s.outCap ∧
     s.endIdx = s.ip + (Instr.lz4Last 0 [0x58]).size) ∧
    (let s := { running .frameBlock [0x00] [0x61] with outCap := 1, maxOut := 1 }
     Memory.wf s.outMem ∧ (s.phase = .block ∨ s.phase = .frameBlock) ∧ s.op + 0 ≤ s.maxOut ∧ s.op + 0 ≤ s.outCap ∧
     s.endIdx = s.ip + (Instr.lz4Last 0 []).size) := by decide

theorem witness_Lz4Sequence :
    (let s := { running .block [0x10, 0x58, 0x01, 0x00] [] with outCap := 5, maxOut := 5 }
     4 ≤ 4 ∧ Memory.wf s.outMem ∧ (s.phase = .block ∨ s.phase = .frameBlock) ∧ s.op + 1 + 4 ≤ s.maxOut ∧
     s.op + 1 + 4 ≤ s.outCap ∧ (1 : BitVec 16) ≠ 0 ∧ (1 : BitVec 16).toNat ≤ s.op + 1 - s.base ∧
     s.endIdx ≤ s.ip + (Instr.lz4Seq [0x58] 1 4).size) ∧
    (let s := running .frameBlock [0x00, 0x02, 0x00, 0x00] [0x61, 0x62]
     4 ≤ 4 ∧ Memory.wf s.outMem ∧ (s.phase = .block ∨ s.phase = .frameBlock) ∧ s.op + 0 + 4 ≤ s.maxOut ∧
     s.op + 0 + 4 ≤ s.outCap ∧ (2 : BitVec 16) ≠ 0 ∧ (2 : BitVec 16).toNat ≤ s.op + 0 - s.base ∧
     s.ip + (Instr.lz4Seq [] 2 4).size < s.endIdx) := by decide

theorem witness_Lz4TestOrder :
    let s := running .block [0x10, 0x58, 0x01, 0x00] []
    s.status = .busy ∧ Memory.wf s.outMem ∧
    { s with maxOut := 0 }.maxOut - s.op < 1 ∧ { s with outCap := 0 }.outCap - s.op < 1 ∧
    ((2 : BitVec 16) = 0 ∨ s.op + 1 - s.base < (2 : BitVec 16).toNat) ∧
    { s with maxOut := 4 }.maxOut - (s.op + 1) < 4 ∧ { s with outCap := 4 }.outCap - (s.op + 1) < 4 ∧
    ¬ { s with outCap := 5 }.outCap - (s.op + 1) < 4 := by decide

theorem witness_SnappyLength :
    (Instr.snLen 400 2).wf = true ∧ (Instr.snLen 0 5).wf = true ∧
    (let s := { running .snLen [0x01, 0x00] [] with maxOut := 0 }
     s.maxOut < (1 : BitVec 32).toNat) ∧
    (let s := { running .snLen [0x01, 0x00] [] with outCap := 0 }
     ¬ s.maxOut < (1 : BitVec 32).toNat ∧ s.outCap < (1 : BitVec 32).toNat) ∧
    (let s := { running .snLen [0x01, 0x00] [] with maxOut := 1, outCap := 1 }
     ¬ s.maxOut < (1 : BitVec 32).toNat ∧ ¬ s.outCap < (1 : BitVec 32).toNat ∧ s.ip + 1 < s.curLen) ∧
    (let s := running .snLen [0x01] []
     ¬ (0 < (1 : BitVec 32).toNat ∧ s.ip + 1 < s.curLen)) := by decide

theorem witness_SnappyLiterals :
    (Instr.snLit [0x61]).wf = true ∧ (Instr.snLit1 [0x61]).wf = true ∧ (Instr.snLit2 [0x61]).wf = true ∧
    (Instr.snLit3 [0x61]).wf = true ∧ (Instr.snLit4 [0x61]).wf = true ∧
    (let s := { running .snTag [0x00, 0x61] [] with declared := 1 }
     Memory.wf s.outMem ∧ ¬ s.declared.toNat - s.op < 1 ∧ s.declared.toNat - s.op < 2 ∧ s.op + 1 = s.declared.toNat) ∧
    (let s := running .snTag [0x00, 0x61, 0x00] []
     Memory.wf s.outMem ∧ s.ip + (Instr.snLit [0x61]).size < s.curLen ∧ s.op + 1 < s.declared.toNat) ∧
    (let s := running .snTag [0x00, 0x61] []
     Memory.wf s.outMem ∧ ¬ s.ip + (Instr.snLit [0x61]).size < s.curLen ∧ s.op + 1 ≠ s.declared.toNat) := by decide

theorem witness_SnappyCopies :
    let s := { running .snTag [0x01, 0x01] [0x61] with declared := 5 }
    Memory.wf s.outMem ∧ (0 = 0 ∨ s.op < 0) ∧ s.op < 2 ∧ ¬ ((1 : Nat) = 0 ∨ s.op < 1) ∧ s.declared.toNat - s.op < 5 ∧
    ¬ s.declared.toNat - s.op < 4 ∧ s.op + 4 = s.declared.toNat := by decide

theorem witness_FrameHeader :
    (running .magic [0, 0, 0, 0, 0, 0] []).curLen < 7 ∧ ¬ (running .magic [0, 0, 0, 0, 0, 0, 0] []).curLen < 7 ∧
    (let s := { running .bd [0x40] [] with hdrLen := 7 }
     s.curLen < s.hdrLen.toNat) ∧
    (let s := { running .bd [0, 0, 0, 0, 0, 0, 0] [] with hdrLen := 7 }
     ¬ s.curLen < s.hdrLen.toNat) ∧
    { running .csize [] [] with maxOut := 0 }.maxOut < (1 : BitVec 64).toNat ∧
    ¬ { running .csize [] [] with maxOut := 1 }.maxOut < (1 : BitVec 64).toNat := by decide

theorem witness_FrameBlockWords :
    (1 : BitVec 31) ≠ 0 ∧ (running .bsw [1, 0, 0, 0] []).curLen - (0 + 4) < (1 : BitVec 31).toNat ∧
    ¬ (running .bsw [1, 0, 0, 0, 0] []).curLen - (0 + 4) < (1 : BitVec 31).toNat ∧
    { running .bsw [] [] with flg := 0x64 }.flg.getLsbD 2 = true ∧
    { running .bsw [] [] with flg := 0x60 }.flg.getLsbD 2 = false := by decide

theorem witness_FrameStored :
    let s := running .bsw [1, 0, 0, 0x80, 0x61] []
    Memory.wf s.outMem ∧ s.curLen - (s.ip + 4) < (2 : BitVec 31).toNat ∧ ¬ s.curLen - (s.ip + 4) < (1 : BitVec 31).toNat ∧
    { s with maxOut := 0 }.maxOut - s.op < (1 : BitVec 31).toNat ∧ { s with outCap := 0 }.outCap - s.op < (1 : BitVec 31).toNat ∧
    ¬ { s with outCap := 1 }.outCap - s.op < (1 : BitVec 31).toNat := by decide

theorem witness_FrameChecksum :
    let s := running .cchk [] [0x58]
    xxh32 (outBytes s 0 s.op) 0 = 0x164A5CD1 ∧ xxh32 (outBytes s 0 s.op) 0 ≠ 0x164A5CD0 := by decide

theorem witness_ElementsLeaveHostSide : IsElement (.lz4fHc 0) ∧ IsElement (.lz4Seq [] 0 4) := by decide

theorem witness_ElementsAdvanceCursor :
    (let s := running .hc [0x00] []
     IsElement (.lz4fHc 0) ∧ (Instr.lz4fHc 0).wf = true ∧ s.status = .busy ∧ ∃ t, exec (.lz4fHc 0) s = .next t ∧ t.status = .busy) ∧
    (let s := running .bsw [1, 0, 0, 0x80, 0x61] []
     IsElement (.lz4fStored 1) ∧ (Instr.lz4fStored 1).wf = true ∧ s.status = .busy ∧
     ∃ t, exec (.lz4fStored 1) s = .next t ∧ t.status = .busy) :=
  ⟨⟨by decide, by decide, rfl, _, rfl, rfl⟩, ⟨by decide, by decide, rfl, _, rfl, rfl⟩⟩

theorem witness_ElementsWriteAtCursor :
    (let s := running .snTag [0x00, 0x61, 0x00] [0x62]
     IsElement (.snLit [0x61]) ∧ s.status = .busy ∧ ∃ t, exec (.snLit [0x61]) s = .next t ∧ t.status = .busy) ∧
    (let s := running .block [0x10, 0x61] [0x62]
     IsElement (.lz4Last 0 [0x61]) ∧ s.status = .busy ∧ ∃ t, exec (.lz4Last 0 [0x61]) s = .next t ∧ t.status = .done) :=
  ⟨⟨by decide, rfl, _, rfl, by decide⟩, ⟨by decide, rfl, _, rfl, by decide⟩⟩

theorem witness_EngineStaysInside :
    (let s := running .block [0x10, 0x58] []
     Inv s ∧ EngineMoves s s ∧ ∃ t, step s = .next t) ∧
    (let s := { running .block [0x10, 0x58] [] with host := [.tick] }
     Inv s ∧ EngineMoves s { s with host := [] } ∧ ∃ t, step s = .next t) ∧
    (let s := { running .block [0x10, 0x58] [] with host := [.poll] }
     Inv s ∧ EngineMoves s s ∧ ∃ t, step s = .next t) ∧
    (Inv State.reset ∧ State.reset.status ≠ .busy ∧ State.reset.host = [] ∧ ∃ t, step State.reset = .next t) ∧
    (let s := { loaded [0x58] 2 with host := [.writeReg .cmd 1] }
     Inv s ∧ s.host = .writeReg .cmd 1 :: [] ∧ ∃ t, step s = .next t) :=
  ⟨⟨inv_of_parts (by decide) (by decide), ⟨rfl, .inl ⟨rfl, rfl⟩⟩, _, rfl⟩,
    ⟨inv_of_parts (by decide) (by decide), ⟨rfl, .inr (.inl ⟨_, rfl, rfl⟩)⟩, _, rfl⟩,
    ⟨inv_of_parts (by decide) (by decide), ⟨rfl, .inr (.inr ⟨_, rfl, rfl⟩)⟩, _, rfl⟩,
    ⟨inv_of_parts (by decide) (by decide), by decide, rfl, _, rfl⟩, inv_of_parts (by decide) (by decide), rfl, _, rfl⟩

/-- One state for the statements on every step: it meets every invariant, and its step is a next state. -/
theorem witness_StepKeepsInvariant :
    let s := running .snTag [0x00, 0x61, 0x00] [0x62]
    Inv s ∧ MemoriesCanonical s ∧ StatusMatchesPhase s ∧ ResultsConsistent s ∧ s.err ≠ some .outOfMemory ∧
    ∃ t, step s = .next t :=
  ⟨inv_of_parts (by decide) (by decide), by decide, by decide, by decide, by decide, _, rfl⟩

theorem witness_StepKeepsMemoriesCanonical :
    MemoriesCanonical (running .snTag [0x00, 0x61] [0x62]) ∧ ∃ t, step (running .snTag [0x00, 0x61] [0x62]) = .next t :=
  ⟨by decide, _, rfl⟩

theorem witness_StepKeepsPhase :
    StatusMatchesPhase (running .hc [0x00] []) ∧ ∃ t, step (running .hc [0x00] []) = .next t := ⟨by decide, _, rfl⟩

theorem witness_StepKeepsResults :
    ResultsConsistent (running .hc [0x00] []) ∧ ∃ t, step (running .hc [0x00] []) = .next t := ⟨by decide, _, rfl⟩

theorem witness_OutOfMemoryNeverRaised :
    (running .hc [] []).err ≠ some .outOfMemory ∧ ∃ t, step (running .hc [] []) = .next t := ⟨by decide, _, rfl⟩

theorem witness_ChecksumMismatchCause :
    let s := running .cchk [0, 0, 0, 0] [0x58]
    s.err ≠ some .checksumMismatch ∧ (∃ t, exec (.lz4fCchk 0) s = .next t ∧ t.err = some .checksumMismatch) ∧
    ∃ t, step s = .next t ∧ t.err = some .checksumMismatch :=
  ⟨by decide, ⟨_, rfl, by decide⟩, _, rfl, by decide⟩

theorem witness_CommandsFinish :
    let s := running .block [0x10, 0x58] []
    Inv s ∧ s.status = .busy ∧ s.host = [] := ⟨inv_of_parts (by decide) (by decide), rfl, rfl⟩

theorem witness_DecompressDependsOnOperands :
    let s := running .block [0x10, 0x58] [0x61]
    let u := { s with ht := [(1, 2)], opts := 2, result := 9, tag := 4 }
    Inv s ∧ Memory.wf u.outMem ∧ s.host = [] ∧ u.host = [] ∧ DecompressAgree s u ∧ ∃ s', step s = .next s' :=
  ⟨inv_of_parts (by decide) (by decide), by decide, rfl, rfl,
    ⟨rfl, rfl, rfl, rfl, rfl, rfl, rfl, rfl, rfl, rfl, rfl, rfl, rfl, fun _ _ => rfl, fun _ _ => rfl⟩, _, rfl⟩

theorem witness_MatchCopyRepeatsPattern :
    let s := running .block [] [0x61, 0x62, 0x63]
    Memory.wf s.outMem ∧ 1 ≤ 3 ∧ 3 ≤ s.op ∧ 1 ≤ 1 ∧ 1 ≤ s.op := by decide

theorem witness_FindMatchResult :
    HashTable.wf (tableReset State.reset).ht ∧ ∀ h, HashTable.cell (tableReset State.reset).ht h ≤ (tableReset State.reset).i :=
  ⟨by decide, fun _ => Nat.le_refl 0⟩

theorem witness_CheckRoomOrder :
    let s := { running .block [] [0x61] with maxOut := 2, outCap := 1 }
    s.op ≤ s.maxOut ∧ s.op ≤ s.outCap ∧ s.maxOut < s.op + 2 ∧ ¬ s.maxOut < s.op + 1 ∧ s.outCap < s.op + 1 ∧
    ¬ s.outCap < s.op + 0 := by decide

end Sys2Proof.Tests
end

section
/-! SUPPORT. What a stream element can do, said once: how it writes `OUT`, how far it moves `ip`, and the three ways it
can leave the command. -/

namespace Sys2Proof.Machine

/-! ### The effect of an element's body -/

/-- `op` stands within both limits, and so does the declared length for an object of the format `f` that is bounded by it
alone (44_snappy.md rule R145). -/
abbrev RoomFor (f : Format) (s : State) : Prop :=
  s.op ≤ s.outCap ∧ s.op ≤ s.maxOut ∧
    (f = .snTag → s.declared.toNat ≤ s.outCap ∧ s.declared.toNat ≤ s.maxOut)

/-- What the body of an element of format `f` may have changed when it stops in `u`, at its end or at a `raise`. -/
structure Wrote (f : Format) (s u : State) : Prop where
  hostSide : HostSideSame s u
  results : u.outLen = s.outLen ∧ u.result = s.result
  curLen : u.curLen = s.curLen
  ht : u.ht = s.ht
  outside : OutSameOutside s.op u.op s u
  wf : Memory.wf s.outMem → Memory.wf u.outMem
  room : RoomFor f s → u.op ≤ s.outCap ∧ u.op ≤ s.maxOut

/-- The bytes of `IN` an element takes beyond its encoding: a stored block's (43_lz4_frame.md rule R124). -/
def copiedBytes : Instr → Nat
  | .lz4fStored blen => blen.toNat
  | _ => 0

/-- `ip` has moved past the element, and past the bytes it copied, which were within the input. -/
abbrev Advanced (i : Instr) (s u : State) : Prop :=
  u.ip = s.ip + i.size + copiedBytes i ∧ copiedBytes i ≤ s.curLen - (s.ip + i.size)

/-- The block that is being decoded ends within the input, or where `ip` stands, and starts within the output (20_memory.md
rule R37). -/
abbrev BlockFits (s : State) : Prop := s.endIdx ≤ max s.ip s.curLen ∧ s.base ≤ s.op

/-- The phase of a single field: its object is fetched outside a block and outside the Snappy elements. -/
def isFieldPhase : Phase → Bool
  | .none => false
  | .block => false
  | .snTag => false
  | .frameBlock => false
  | _ => true

theorem isFieldPhase_ne {p : Phase} (h : isFieldPhase p = true) :
    p ≠ .none ∧ p ≠ .block ∧ p ≠ .frameBlock ∧ p ≠ .snTag := by
  cases p <;> simp_all [isFieldPhase]

/-- How the body of an element that ran in `s` closes: by a `raise`, the end of the command, the next field, the block
loop or the Snappy element loop. -/
inductive ElementBody (i : Instr) (s : State) : State → Prop
  | raises (k : ErrKind) (u : State) (h : Wrote i.format s u) : ElementBody i s (u.fail k)
  | completes (u : State) (h : Wrote i.format s u) : ElementBody i s (u.complete 0)
  | field (t : State) (h : Wrote i.format s t) (hb : t.status = s.status)
      (hip : Advanced i s t) (hp : isFieldPhase t.phase = true) : ElementBody i s t
  | inBlock (u : State) (h : Wrote i.format s u) (hb : u.status = s.status)
      (hip : Advanced i s u) (hp : u.phase = s.phase ∨ u.phase = .frameBlock)
      (hf : i.format ≠ .snTag) (hfits : (i.format = .lz4Tok → BlockFits s) → BlockFits u) :
      ElementBody i s (blockLoop u)
  | inSnappy (u : State) (h : Wrote i.format s u) (hb : u.status = s.status)
      (hip : Advanced i s u)
      (hd : RoomFor i.format s → u.declared.toNat ≤ s.outCap ∧ u.declared.toNat ≤ s.maxOut) :
      ElementBody i s (snLoop u).settle

/-- The three ways an element that ran in `s` can leave the machine: the command goes on, has ended, or has raised. -/
inductive ElementEnd (i : Instr) (s : State) : State → Prop
  | goesOn (t : State) (h : Wrote i.format s t) (hb : t.status = s.status) (hp : s.phase ≠ .none → t.phase ≠ .none)
      (hip : t.ip = s.ip + i.size + copiedBytes i) : ElementEnd i s t
  | completes (u : State) (h : Wrote i.format s u) : ElementEnd i s (u.complete 0)
  | raises (k : ErrKind) (u : State) (h : Wrote i.format s u) : ElementEnd i s (u.fail k)

/-- A body that leaves `OUT` and `op` alone, or starts `op` again at 0. -/
theorem Wrote.of_outMem_eq {f : Format} {s u : State} (hs : HostSideSame s u) (hc : u.curLen = s.curLen)
    (hh : u.ht = s.ht) (ho : u.outMem = s.outMem) (hop : u.op = s.op ∨ u.op = 0)
    (hres : u.outLen = s.outLen ∧ u.result = s.result := by exact ⟨rfl, rfl⟩) : Wrote f s u where
  hostSide := hs
  results := hres
  curLen := hc
  ht := hh
  outside := fun a _ => by rw [ho]
  wf := fun h => ho ▸ h
  room := fun ⟨h1, h2, _⟩ => by rcases hop with h | h <;> omega

/-- A body that appends the bytes `lits` within the limits. -/
theorem Wrote.of_writeBytes {f : Format} {s u : State} (lits : List Byte) (hs : HostSideSame s u)
    (hc : u.curLen = s.curLen) (hh : u.ht = s.ht) (ho : u.outMem = Memory.writeBytes s.outMem s.op lits)
    (hop : u.op = s.op + lits.length)
    (hroom : RoomFor f s → s.op + lits.length ≤ s.outCap ∧ s.op + lits.length ≤ s.maxOut)
    (hres : u.outLen = s.outLen ∧ u.result = s.result := by exact ⟨rfl, rfl⟩) : Wrote f s u where
  hostSide := hs
  results := hres
  curLen := hc
  ht := hh
  outside := fun a ha => by rw [ho]; exact Memory_read_writeBytes_outside _ _ (by omega)
  wf := fun h => ho ▸ Memory_writeBytes_wf h _ _
  room := fun h => hop ▸ hroom h

/-- A body that appends a match within the limits. -/
theorem Wrote.of_matchMem {f : Format} {s u : State} (offset n : Nat) (hs : HostSideSame s u)
    (hc : u.curLen = s.curLen) (hh : u.ht = s.ht) (ho : u.outMem = matchMem offset n s.outMem s.op)
    (hop : u.op = s.op + n) (hroom : RoomFor f s → s.op + n ≤ s.outCap ∧ s.op + n ≤ s.maxOut)
    (hres : u.outLen = s.outLen ∧ u.result = s.result := by exact ⟨rfl, rfl⟩) : Wrote f s u where
  hostSide := hs
  results := hres
  curLen := hc
  ht := hh
  outside := fun a ha => by rw [ho]; exact matchMem_outside _ _ _ (by omega)
  wf := fun h => ho ▸ matchMem_wf h _ _ _
  room := fun h => hop ▸ hroom h

theorem HostSideSame.refl (s : State) : HostSideSame s s :=
  ⟨rfl, rfl, rfl, rfl, rfl, rfl, rfl, rfl, rfl, rfl, rfl, rfl⟩

theorem HostSideSame.trans {s u v : State} (h : HostSideSame s u) (h' : HostSideSame u v) : HostSideSame s v := by
  obtain ⟨h1, h2, h3, h4, h5, h6, h7, h8, h9, h10, h11, h12⟩ := h
  obtain ⟨k1, k2, k3, k4, k5, k6, k7, k8, k9, k10, k11, k12⟩ := h'
  exact ⟨k1.trans h1, k2.trans h2, k3.trans h3, k4.trans h4, k5.trans h5, k6.trans h6, k7.trans h7, k8.trans h8,
    k9.trans h9, k10.trans h10, k11.trans h11, k12.trans h12⟩

section HostSide
variable {s t : State} (h : HostSideSame s t)
include h

theorem HostSideSame.operands : OperandsSame s t := h.2.2
theorem HostSideSame.unread : t.unread = s.unread := h.2.1
theorem HostSideSame.params : t.params = s.params := h.operands.1

theorem HostSideSame.inLen : t.inLen = s.inLen := by
  obtain ⟨-, e, -⟩ := h.operands
  exact e

theorem HostSideSame.outCap : t.outCap = s.outCap := by
  obtain ⟨-, -, e, -⟩ := h.operands
  exact e

theorem HostSideSame.maxOut : t.maxOut = s.maxOut := by
  obtain ⟨-, -, -, e, -⟩ := h.operands
  exact e

theorem HostSideSame.opts : t.opts = s.opts := by
  obtain ⟨-, -, -, -, e, -⟩ := h.operands
  exact e

theorem HostSideSame.contentSize : t.contentSize = s.contentSize := by
  obtain ⟨-, -, -, -, -, e, -⟩ := h.operands
  exact e

theorem HostSideSame.inMem : t.inMem = s.inMem := by
  obtain ⟨-, -, -, -, -, -, e, -⟩ := h.operands
  exact e

end HostSide

theorem OperandsSame.refl (s : State) : OperandsSame s s := (HostSideSame.refl s).operands

/-- Two bodies one after the other, both of which append. -/
theorem Wrote.trans {f : Format} {s u v : State} (h : Wrote f s u) (h' : Wrote f u v) (hsu : s.op ≤ u.op)
    (huv : u.op ≤ v.op) (hd : u.declared = s.declared) : Wrote f s v where
  hostSide := h.hostSide.trans h'.hostSide
  results := ⟨h'.results.1.trans h.results.1, h'.results.2.trans h.results.2⟩
  curLen := h'.curLen.trans h.curLen
  ht := h'.ht.trans h.ht
  outside := fun a ha => (h'.outside a (by omega)).trans (h.outside a (by omega))
  wf := fun hw => h'.wf (h.wf hw)
  room := fun hr => by
    obtain ⟨hcap, hmax⟩ := h.room hr
    obtain ⟨-, -, hdecl⟩ := hr
    have hcapEq := h.hostSide.outCap
    have hmaxEq := h.hostSide.maxOut
    have hu : RoomFor f u := by
      rw [RoomFor, hd, hcapEq, hmaxEq]
      exact ⟨hcap, hmax, hdecl⟩
    have := h'.room hu
    rwa [hcapEq, hmaxEq] at this

/-! ### The pieces of an LZ4 sequence -/

/-- The state in which a sequence's literals are tested for room (42_lz4_block.md rule R108). -/
def atLiterals (token : Byte) (lits : List Byte) (s : State) : State :=
  { s with token := token, lit := lits.length, ip := s.ip + 1 + lz4FieldExtSize lits.length }

/-- The state after a sequence's literals. -/
def afterLiterals (token : Byte) (lits : List Byte) (s : State) : State :=
  { atLiterals token lits s with
    outMem := Memory.writeBytes s.outMem s.op lits, op := s.op + lits.length
    ip := s.ip + 1 + lz4FieldExtSize lits.length + lits.length }

/-- The state after a sequence's offset. -/
def afterOffset (offset : BitVec 16) (s : State) : State :=
  { s with offset := BitVec.ofNat 32 offset.toNat, ip := s.ip + 2 }

/-- The state in which a sequence's match is tested for room. -/
def atMatch (mlen : Nat) (s : State) : State :=
  { s with ml := mlen - 4, mlen := mlen, ip := s.ip + lz4FieldExtSize (mlen - 4) }

/-- The state after a sequence's match. -/
def afterMatch (mlen : Nat) (s : State) : State :=
  { atMatch mlen s with outMem := matchMem s.offset.toNat mlen s.outMem s.op, op := s.op + mlen }

/-- Work behind a room test: the test raises in place, or there is room and the work is done. -/
theorem checkRoom_andThen_cases (n : Nat) (s : State) (f : State → Run) :
    (∃ k, (checkRoom n s).andThen f = .raise k s) ∨
    (n ≤ s.maxOut - s.op ∧ n ≤ s.outCap - s.op ∧ (checkRoom n s).andThen f = f s) := by
  obtain ⟨-, e⟩ | ⟨-, -, e⟩ | ⟨hm, hc, e⟩ := checkRoom_cases n s
  · exact .inl ⟨_, by rw [e]; rfl⟩
  · exact .inl ⟨_, by rw [e]; rfl⟩
  · exact .inr ⟨hm, hc, by rw [e]; rfl⟩

theorem lz4Literals_cases (token : Byte) (lits : List Byte) (s : State) :
    (∃ k, lz4Literals token lits s = .raise k (atLiterals token lits s)) ∨
    (lits.length ≤ s.maxOut - s.op ∧ lits.length ≤ s.outCap - s.op ∧
      lz4Literals token lits s = .ok (afterLiterals token lits s)) := by
  rw [lz4Literals_eq]
  exact checkRoom_andThen_cases lits.length (atLiterals token lits s) _

theorem lz4Match_cases (mlen : Nat) (s : State) :
    (∃ k, lz4Match mlen s = .raise k (atMatch mlen s)) ∨
    (mlen ≤ s.maxOut - s.op ∧ mlen ≤ s.outCap - s.op ∧ lz4Match mlen s = .ok (afterMatch mlen s)) := by
  have h := checkRoom_andThen_cases mlen (atMatch mlen s) fun s2 => .ok (matchCopy s2.offset.toNat mlen s2)
  rw [matchCopy_eq] at h
  exact h

/-! ### `Wrote` of each piece -/

theorem Wrote.setPhase {f : Format} {s u : State} (h : Wrote f s u) (p : Phase) : Wrote f s { u with phase := p } :=
  ⟨h.hostSide, h.results, h.curLen, h.ht, h.outside, h.wf, h.room⟩

theorem Wrote.atLiterals (f : Format) (token : Byte) (lits : List Byte) (s : State) :
    Wrote f s (atLiterals token lits s) :=
  .of_outMem_eq (.refl s) rfl rfl rfl (.inl rfl)

theorem Wrote.afterLiterals (f : Format) (token : Byte) {lits : List Byte} {s : State}
    (hm : lits.length ≤ s.maxOut - s.op) (hc : lits.length ≤ s.outCap - s.op) :
    Wrote f s (afterLiterals token lits s) :=
  .of_writeBytes lits (.refl s) rfl rfl rfl rfl fun h => by omega

theorem Wrote.afterOffset (f : Format) (offset : BitVec 16) (s : State) : Wrote f s (afterOffset offset s) :=
  .of_outMem_eq (.refl s) rfl rfl rfl (.inl rfl)

theorem Wrote.atMatch (f : Format) (mlen : Nat) (s : State) : Wrote f s (atMatch mlen s) :=
  .of_outMem_eq (.refl s) rfl rfl rfl (.inl rfl)

theorem Wrote.afterMatch (f : Format) {mlen : Nat} {s : State} (hm : mlen ≤ s.maxOut - s.op)
    (hc : mlen ≤ s.outCap - s.op) : Wrote f s (afterMatch mlen s) :=
  .of_matchMem s.offset.toNat mlen (.refl s) rfl rfl rfl rfl fun h => by omega

/-- A header field whose value is tested once it is read. -/
theorem ElementBody.of_test {i : Instr} {s u : State} {c : Prop} [Decidable c] (k : ErrKind)
    (h : Wrote i.format s u) (hb : u.status = s.status) (hip : Advanced i s u)
    (hp : isFieldPhase u.phase = true) : ElementBody i s (if c then Run.raise k u else .ok u).settle := by
  split
  · exact .raises k u h
  · exact .field u h hb hip hp

/-! ### The elements of an LZ4 block -/

theorem Wrote.offset_after_literals (f : Format) (token : Byte) {lits : List Byte} (offset : BitVec 16) {s : State}
    (hm : lits.length ≤ s.maxOut - s.op) (hc : lits.length ≤ s.outCap - s.op) :
    Wrote f s (Machine.afterOffset offset (Machine.afterLiterals token lits s)) :=
  (Wrote.afterLiterals f token hm hc).trans (.afterOffset _ _ _) (Nat.le_add_right _ _) le_rfl rfl

theorem execLz4Seq_body (lits : List Byte) (offset : BitVec 16) (mlen : Nat) (s t : State)
    (h : execLz4Seq lits offset mlen s = .next t) : ElementBody (.lz4Seq lits offset mlen) s t := by
  obtain rfl := Host.Outcome.next.inj h
  obtain ⟨k, e⟩ | ⟨hm, hc, e⟩ := lz4Literals_cases (lz4Token lits.length (mlen - 4)) lits s
  · rw [e]; exact .raises k _ (.atLiterals _ _ _ _)
  rw [e, Run_andThen_ok]
  have h2 := Wrote.offset_after_literals .lz4Tok (lz4Token lits.length (mlen - 4)) offset hm hc
  obtain ⟨-, e⟩ | ⟨-, -, e⟩ := lz4Offset_cases offset (afterLiterals (lz4Token lits.length (mlen - 4)) lits s)
  · rw [e]; exact .raises _ _ h2
  rw [e, Run_andThen_ok]
  have hop := Nat.le_add_right s.op lits.length
  obtain ⟨k, e⟩ | ⟨hm, hc, e⟩ :=
    lz4Match_cases mlen (afterOffset offset (afterLiterals (lz4Token lits.length (mlen - 4)) lits s))
  · exact e ▸ .raises k _ (h2.trans (.atMatch _ _ _) hop le_rfl rfl)
  · rw [← afterOffset, e, Run_andThen_ok, Run_settle_ok]
    have hw := h2.trans (.afterMatch _ hm hc) hop (Nat.le_add_right _ _) rfl
    refine .inBlock _ hw ?_ ?_ (.inl ?_) (by simp [Instr.format]) fun hfits => ?_
    all_goals simp only [afterMatch, atMatch, afterOffset, afterLiterals, atLiterals]
    · exact ⟨by simp only [Instr.size, copiedBytes]; omega, Nat.zero_le _⟩
    · obtain ⟨hend, hbase⟩ := hfits rfl
      exact ⟨by dsimp only; omega, by dsimp only; omega⟩

theorem execLz4Last_body (ml : BitVec 4) (lits : List Byte) (s t : State)
    (h : execLz4Last ml lits s = .next t) : ElementBody (.lz4Last ml lits) s t := by
  obtain rfl := Host.Outcome.next.inj h
  obtain ⟨k, e⟩ | ⟨hm, hc, e⟩ := lz4Literals_cases (lz4Token lits.length ml.toNat) lits s
  · rw [e]; exact .raises k _ (.atLiterals _ _ _ _)
  · rw [e]
    refine .inBlock _ (.afterLiterals _ _ hm hc) rfl ?_ (.inl rfl) (by simp [Instr.format]) fun hfits => ?_
    all_goals simp only [afterLiterals, atLiterals]
    · exact ⟨by simp only [Instr.size, copiedBytes]; omega, Nat.zero_le _⟩
    · obtain ⟨hend, hbase⟩ := hfits rfl
      exact ⟨by dsimp only; omega, by dsimp only; omega⟩

/-! ### The Snappy elements -/

theorem execSnLen_body (value : BitVec 32) (nbytes : Nat) (s t : State)
    (h : execSnLen value nbytes s = .next t) : ElementBody (.snLen value nbytes) s t := by
  obtain rfl := Host.Outcome.next.inj h
  have hw : Wrote .snVarint s { s with declared := value.zeroExtend 64, ip := s.ip + nbytes } :=
    .of_outMem_eq (.refl s) rfl rfl rfl (.inl rfl)
  split
  · exact .raises _ _ hw
  · next hmax =>
    split
    · exact .raises _ _ hw
    · next hcap =>
      refine .inSnappy _ (.of_outMem_eq (.refl s) rfl rfl rfl (.inr rfl)) rfl ⟨rfl, Nat.zero_le _⟩ fun _ => ?_
      simp only [BitVec.toNat_setWidth_of_le (show 32 ≤ 64 by decide)] at hmax hcap ⊢
      omega

/-- A Snappy literal of any class, by the number of its length bytes (44_snappy.md rule R146). -/
theorem snLiteral_body {i : Instr} (tag : Byte) (lenBytes : Nat) (lits : List Byte) (s : State)
    (hf : i.format = .snTag) (hi : i.size = 1 + lenBytes + lits.length) (hc : copiedBytes i = 0) :
    ElementBody i s (snLiteral tag lenBytes lits s) := by
  unfold snLiteral
  dsimp only
  split
  · exact .raises _ _ (.of_outMem_eq (.refl s) rfl rfl rfl (.inl rfl))
  · next hlen =>
    rw [literalCopy_eq]
    refine .inSnappy _ (.of_writeBytes lits (.refl s) rfl rfl rfl rfl ?_) rfl
      ⟨by simp only [hi, hc]; omega, by omega⟩
      fun ⟨_, _, hd⟩ => hd hf
    rintro ⟨hcap, hmax, hdecl⟩
    have := hdecl hf
    omega

/-- A Snappy copy of any class, by its size (44_snappy.md rule R147). -/
theorem snCopyCommon_body {i : Instr} (tag : Byte) (size offset len : Nat) (s : State)
    (hf : i.format = .snTag) (hi : i.size = size) (hc : copiedBytes i = 0) :
    ElementBody i s (snCopyCommon tag size offset len s) := by
  have hw : Wrote i.format s { s with tag := tag, len := len, offset := BitVec.ofNat 32 offset, ip := s.ip + size } :=
    .of_outMem_eq (.refl s) rfl rfl rfl (.inl rfl)
  unfold snCopyCommon
  dsimp only
  split
  · exact .raises _ _ hw
  · split
    · exact .raises _ _ hw
    · next hlen =>
      rw [matchCopy_eq]
      refine .inSnappy _ (.of_matchMem offset len (.refl s) rfl rfl rfl rfl ?_) rfl
        ⟨by simp only [hi, hc]; omega, by omega⟩
        fun ⟨_, _, hd⟩ => hd hf
      rintro ⟨hcap, hmax, hdecl⟩
      have := hdecl hf
      omega

/-! ### The frame's elements -/

theorem execLz4fEnd_body (s t : State) (h : execLz4fEnd s = .next t) : ElementBody .lz4fEnd s t := by
  obtain rfl := Host.Outcome.next.inj h
  have hw : Wrote .bsw s { s with bs := 0, ip := s.ip + 4 } := .of_outMem_eq (.refl s) rfl rfl rfl (.inl rfl)
  split
  · exact .field _ (hw.setPhase _) rfl ⟨rfl, Nat.zero_le _⟩ rfl
  · exact .completes _ hw

/-- The state after a data block's size word (43_lz4_frame.md rule R124). -/
def afterBlockWord (stored : Bool) (blen : BitVec 31) (s : State) : State :=
  { s with bs := BitVec.ofNat 32 (blen.toNat + if stored then 0x80000000 else 0), stored := stored, blen := blen,
           ip := s.ip + 4 }

theorem lz4fBlockWord_cases (stored : Bool) (blen : BitVec 31) (s : State) :
    lz4fBlockWord stored blen s = .raise .unexpectedEof (afterBlockWord stored blen s) ∨
    (blen.toNat ≤ s.curLen - (s.ip + 4) ∧ lz4fBlockWord stored blen s = .ok (afterBlockWord stored blen s)) := by
  by_cases h : s.curLen - (s.ip + 4) < blen.toNat
  · exact .inl (if_pos h)
  · exact .inr ⟨Nat.le_of_not_lt h, if_neg h⟩

theorem Wrote.afterBlockWord (f : Format) (stored : Bool) (blen : BitVec 31) (s : State) :
    Wrote f s (afterBlockWord stored blen s) :=
  .of_outMem_eq (.refl s) rfl rfl rfl (.inl rfl)

theorem execLz4fBlock_body (blen : BitVec 31) (s t : State) (h : execLz4fBlock blen s = .next t) :
    ElementBody (.lz4fBlock blen) s t := by
  obtain rfl := Host.Outcome.next.inj h
  obtain e | ⟨hlen, e⟩ := lz4fBlockWord_cases false blen s
  · rw [e]; exact .raises _ _ (.afterBlockWord _ _ _ _)
  · rw [e]
    refine .inBlock _ (.of_outMem_eq (.refl s) rfl rfl rfl (.inl rfl)) rfl ⟨rfl, Nat.zero_le _⟩ (.inr rfl)
      (by simp [Instr.format]) fun _ => ?_
    have hbase (b : Bool) : (if b then s.op else 0) ≤ s.op := by cases b <;> simp
    exact ⟨by simp only [afterBlockWord]; omega, hbase _⟩

theorem execLz4fStored_body (blen : BitVec 31) (s t : State) (h : execLz4fStored blen s = .next t) :
    ElementBody (.lz4fStored blen) s t := by
  obtain rfl := Host.Outcome.next.inj h
  obtain e | ⟨hin, e⟩ := lz4fBlockWord_cases true blen s
  · rw [e]; exact .raises _ _ (.afterBlockWord _ _ _ _)
  rw [e, Run_andThen_ok]
  obtain ⟨k, e⟩ | ⟨hm, hc, e⟩ := checkRoom_andThen_cases blen.toNat (afterBlockWord true blen s) fun s2 =>
    .ok { literalCopy (inBytes s2 s2.ip blen.toNat) s2 with phase := .bsw }
  · rw [e]; exact .raises k _ (.afterBlockWord _ _ _ _)
  · rw [e, Run_settle_ok, literalCopy_eq]
    have hlen : (inBytes (afterBlockWord true blen s) (afterBlockWord true blen s).ip blen.toNat).length = blen.toNat :=
      Memory_slice_length _ _ _
    generalize inBytes (afterBlockWord true blen s) (afterBlockWord true blen s).ip blen.toNat = lits at hlen
    rw [← hlen] at hm hc
    refine .field _ (.of_writeBytes lits (.refl s) rfl rfl rfl rfl fun h => ?_) rfl ?_ rfl
    · simp only [afterBlockWord] at hm hc
      omega
    · exact ⟨by simp only [afterBlockWord, hlen, Instr.size, copiedBytes], hin⟩

theorem execLz4fCchk_body (checksum : BitVec 32) (s t : State) (h : execLz4fCchk checksum s = .next t) :
    ElementBody (.lz4fCchk checksum) s t := by
  obtain rfl := Host.Outcome.next.inj h
  split
  · exact .completes _ (.of_outMem_eq (.refl s) rfl rfl rfl (.inl rfl))
  · exact .raises _ _ (.of_outMem_eq (.refl s) rfl rfl rfl (.inl rfl))

/-- Every element's body closes in one of these ways, whatever state it runs in. -/
theorem exec_element_body {i : Instr} {s t : State} (hi : IsElement i) (h : exec i s = .next t) : ElementBody i s t := by
  cases i
  case lz4Seq lits offset mlen => exact execLz4Seq_body lits offset mlen s t h
  case lz4Last ml lits => exact execLz4Last_body ml lits s t h
  case snLen value nbytes => exact execSnLen_body value nbytes s t h
  case snLit lits => exact Host.Outcome.next.inj h ▸ snLiteral_body _ 0 lits s rfl rfl rfl
  case snLit1 lits => exact Host.Outcome.next.inj h ▸ snLiteral_body _ 1 lits s rfl rfl rfl
  case snLit2 lits => exact Host.Outcome.next.inj h ▸ snLiteral_body _ 2 lits s rfl rfl rfl
  case snLit3 lits => exact Host.Outcome.next.inj h ▸ snLiteral_body _ 3 lits s rfl rfl rfl
  case snLit4 lits => exact Host.Outcome.next.inj h ▸ snLiteral_body _ 4 lits s rfl rfl rfl
  case snCopy1 m o => exact Host.Outcome.next.inj h ▸ snCopyCommon_body _ 2 _ _ s rfl rfl rfl
  case snCopy2 m o => exact Host.Outcome.next.inj h ▸ snCopyCommon_body _ 3 _ _ s rfl rfl rfl
  case snCopy4 m o => exact Host.Outcome.next.inj h ▸ snCopyCommon_body _ 5 _ _ s rfl rfl rfl
  case lz4fMagic =>
    exact Host.Outcome.next.inj h ▸
      .of_test _ (.of_outMem_eq (.refl s) rfl rfl rfl (.inl rfl)) rfl ⟨rfl, Nat.zero_le _⟩ rfl
  case lz4fFlg b c k =>
    exact Host.Outcome.next.inj h ▸
      .field _ (.of_outMem_eq (.refl s) rfl rfl rfl (.inl rfl)) rfl ⟨rfl, Nat.zero_le _⟩ rfl
  case lz4fBd c =>
    exact Host.Outcome.next.inj h ▸
      .of_test _ (.of_outMem_eq (.refl s) rfl rfl rfl (.inl rfl)) rfl ⟨rfl, Nat.zero_le _⟩ (by dsimp only; split <;> rfl)
  case lz4fCsize size =>
    exact Host.Outcome.next.inj h ▸
      .of_test _ (.of_outMem_eq (.refl s) rfl rfl rfl (.inl rfl)) rfl ⟨rfl, Nat.zero_le _⟩ rfl
  case lz4fHc hc =>
    exact Host.Outcome.next.inj h ▸
      .field _ (.of_outMem_eq (.refl s) rfl rfl rfl (.inr rfl)) rfl ⟨rfl, Nat.zero_le _⟩ rfl
  case lz4fEnd => exact execLz4fEnd_body s t h
  case lz4fBlock blen => exact execLz4fBlock_body blen s t h
  case lz4fStored blen => exact execLz4fStored_body blen s t h
  case lz4fCchk checksum => exact execLz4fCchk_body checksum s t h
  all_goals exact absurd rfl hi

/-- Every element leaves the machine in one of the three ways. -/
theorem ElementBody.toEnd {i : Instr} {s t : State} (h : ElementBody i s t) : ElementEnd i s t := by
  cases h with
  | raises k u h => exact .raises k u h
  | completes u h => exact .completes u h
  | field _ h hb hip hp => exact .goesOn t h hb (fun _ => (isFieldPhase_ne hp).1) hip.1
  | inBlock u h hb hip hp hf hfits =>
    obtain ⟨-, e⟩ | ⟨-, -, e⟩ | ⟨-, -, e⟩ := blockLoop_cases u
    all_goals rw [e]
    · refine .goesOn u h hb (fun hs => ?_) hip.1
      rcases hp with hp | hp <;> rw [hp]
      · exact hs
      · simp
    · exact .goesOn _ (h.setPhase _) hb (fun _ => by simp) hip.1
    · exact .completes u h
  | inSnappy u h hb hip hd =>
    obtain ⟨-, e⟩ | ⟨-, -, e⟩ | ⟨-, -, e⟩ := snLoop_cases u
    all_goals rw [e]
    · exact .goesOn _ (h.setPhase _) hb (fun _ => by simp) hip.1
    · exact .completes u h
    · exact .raises _ u h

/-- Bytes that are no whole element raise a kind, after what of the element comes before the failing test. -/
theorem badElement_eq_fail (e : DecodeError) (f : Format) (s : State) :
    ∃ k u, badElement e s = u.fail k ∧ Wrote f s u := by
  have hs : Wrote f s s := .of_outMem_eq (.refl s) rfl rfl rfl (.inl rfl)
  cases e
  case cutOffset token lits =>
    simp only [badElement, lz4CutOffset]
    obtain ⟨k, e⟩ | ⟨hm, hc, e⟩ := lz4Literals_cases token lits s
    · exact ⟨k, _, by rw [e]; rfl, .atLiterals _ _ _ _⟩
    · exact ⟨_, _, by rw [e]; rfl, .afterLiterals _ _ hm hc⟩
  case cutMatchExt token lits offset =>
    simp only [badElement, lz4CutMatchExt]
    obtain ⟨k, e⟩ | ⟨hm, hc, e⟩ := lz4Literals_cases token lits s
    · exact ⟨k, _, by rw [e]; rfl, .atLiterals _ _ _ _⟩
    rw [e, Run_andThen_ok]
    obtain ⟨-, e⟩ | ⟨-, -, e⟩ := lz4Offset_cases offset (afterLiterals token lits s)
    · exact ⟨_, _, by rw [e]; rfl, .offset_after_literals f token offset hm hc⟩
    · exact ⟨_, _, by rw [e]; rfl, .offset_after_literals f token offset hm hc⟩
  all_goals exact ⟨_, s, rfl, hs⟩

end Sys2Proof.Machine
end

section
/-! SUPPORT. The statements about a single element: how far it moves `ip`, and where it writes `OUT`. -/

namespace Sys2Proof

/-- `Instr.size` is the encoded length of every instruction (30_encoding.md rule R73). -/
theorem encode_length (i : Instr) : (encode i).length = i.size := by
  cases i
  case lz4Seq => exact Laws.EncodedLength.lz4Seq _ _ _
  case lz4Last => exact Laws.EncodedLength.lz4Last _ _
  case snLen => exact Laws.EncodedLength.snLen _ _
  case snLit => exact Laws.EncodedLength.snLit _
  case snLit1 => exact Laws.EncodedLength.snLit1 _
  case snLit2 => exact Laws.EncodedLength.snLit2 _
  case snLit3 => exact Laws.EncodedLength.snLit3 _
  case snLit4 => exact Laws.EncodedLength.snLit4 _
  all_goals rfl

/-- No well-formed element is empty. -/
theorem Instr.size_pos {i : Instr} (h : i.wf = true) : 0 < i.size := by
  cases i
  case snLen value nbytes => exact (of_decide_eq_true h).1
  all_goals simp only [Instr.size]; omega

namespace Machine

/-- Settles O43: the three ways an element can end leave the command running only where `ip` stands after it. -/
theorem elementsAdvanceCursor : Obligations.ElementsAdvanceCursor := by
  intro i s t hi hwf _ h hb
  have hpos := Instr.size_pos hwf
  rw [encode_length]
  cases (exec_element_body hi h).toEnd with
  | completes u hw => cases hb
  | raises k u hw => cases hb
  | goesOn _ hw hstatus hphase hip =>
    refine ⟨?_, fun hne => ?_, by omega⟩
    · rintro blen rfl
      exact hip
    · have h0 : copiedBytes i = 0 := by
        cases i
        case lz4fStored blen => exact absurd rfl (hne blen)
        all_goals rfl
      omega

/-- Settles O44: whichever way the element ends, it wrote between the old `op` and the new one alone. -/
theorem elementsWriteAtCursor : Obligations.ElementsWriteAtCursor := by
  intro i s t hi hb h
  cases (exec_element_body hi h).toEnd with
  | goesOn _ hw hstatus hphase hip =>
    refine ⟨fun a ha => hw.outside a (.inl ha), fun _ a ha => hw.outside a (.inr ha), fun hd => ?_⟩
    rw [hstatus, hb] at hd
    cases hd
  | completes u hw =>
    exact ⟨fun a ha => hw.outside a (.inl ha), nofun, fun _ a ha => hw.outside a (.inr ha)⟩
  | raises k u hw => exact ⟨fun a ha => hw.outside a (.inl ha), nofun, nofun⟩

end Machine
end Sys2Proof
end

section
/-! SUPPORT. What the encoders emit: the bytes of a compress command's output as a function of its operands, and that
the command's body appends exactly these bytes, or runs out of `OUT_CAP`. -/

namespace Sys2Proof.Machine

/-! ### Appending bytes -/

/-- What an encoder may have changed when it has appended `bytes`. -/
structure Appended (bytes : List Byte) (s t : State) : Prop where
  hostSide : HostSideSame s t
  curLen : t.curLen = s.curLen
  slot : t.slot = s.slot
  op : t.op = s.op + bytes.length
  fits : t.op ≤ s.outCap
  outside : OutSameOutside s.op t.op s t
  content : Memory.wf s.outMem → Memory.wf t.outMem ∧ OutHolds s.op bytes t
  ht : HashTable.wf s.ht → HashTable.wf t.ht

/-- What an encoder may have changed when it met `OUT_CAP`. -/
structure Overflowed (s t : State) : Prop where
  hostSide : HostSideSame s t
  outside : OutSameOutside s.op s.outCap s t
  wf : Memory.wf s.outMem → Memory.wf t.outMem

/-- The run appends `bytes` to the output of `s` where they fit, and else raises `OutputTooSmall` (20_memory.md rule
R38). -/
def Emits (bytes : List Byte) (s : State) : Run → Prop
  | .ok t => Appended bytes s t
  | .raise k t => k = .outputTooSmall ∧ s.outCap < s.op + bytes.length ∧ Overflowed s t

/-- Working registers may change without a byte being emitted. -/
theorem Appended.of_outMem_eq {s t : State} (hfits : s.op ≤ s.outCap) (hs : HostSideSame s t)
    (hc : t.curLen = s.curLen) (hslot : t.slot = s.slot) (hop : t.op = s.op) (ho : t.outMem = s.outMem)
    (hh : HashTable.wf s.ht → HashTable.wf t.ht) : Appended [] s t where
  hostSide := hs
  curLen := hc
  slot := hslot
  op := hop
  fits := hop ▸ hfits
  outside := fun a _ => by rw [ho]
  content := fun h => ⟨ho ▸ h, nofun⟩
  ht := hh

theorem OutHolds.append {lo : Nat} {a b : List Byte} {s t : State} (ha : OutHolds lo a s)
    (hsame : ∀ k, k < lo + a.length → Memory.read t.outMem k = Memory.read s.outMem k)
    (hb : OutHolds (lo + a.length) b t) : OutHolds lo (a ++ b) t := by
  intro k hk
  rw [List.length_append] at hk
  rcases Nat.lt_or_ge k a.length with h | h
  · rw [hsame _ (by omega), ha k h, List.getD_append _ _ _ _ h]
  · have := hb (k - a.length) (by omega)
    rwa [List.getD_append_right _ _ _ _ h, show lo + k = lo + a.length + (k - a.length) by omega]

theorem Appended.trans {a b : List Byte} {s t u : State} (h : Appended a s t) (h' : Appended b t u) :
    Appended (a ++ b) s u where
  hostSide := h.hostSide.trans h'.hostSide
  curLen := h'.curLen.trans h.curLen
  slot := h'.slot.trans h.slot
  op := by rw [h'.op, h.op, List.length_append, Nat.add_assoc]
  fits := h.hostSide.outCap ▸ h'.fits
  outside := fun x hx => by
    have ht := h.op
    have hu := h'.op
    exact (h'.outside x (by omega)).trans (h.outside x (by omega))
  content := fun hw => by
    obtain ⟨ht, ha⟩ := h.content hw
    obtain ⟨hu, hb⟩ := h'.content ht
    rw [h.op] at hb
    exact ⟨hu, ha.append (fun k hk => h'.outside k (.inl (by rw [h.op]; exact hk))) hb⟩
  ht := fun hw => h'.ht (h.ht hw)

theorem Emits.after {a b : List Byte} {s t : State} {r : Run} (h : Appended a s t) (h' : Emits b t r) :
    Emits (a ++ b) s r := by
  have hcap := h.hostSide.outCap
  have hop := h.op
  have hfits := h.fits
  cases r with
  | ok u => exact h.trans h'
  | raise k u =>
    obtain ⟨hk, hlen, ho⟩ := h'
    refine ⟨hk, by rw [List.length_append]; omega, h.hostSide.trans ho.hostSide, fun x hx => ?_, fun hw => ?_⟩
    · exact (ho.outside x (by omega)).trans (h.outside x (by omega))
    · exact ho.wf (h.content hw).1

theorem Emits.andThen {a b : List Byte} {s : State} {r : Run} {f : State → Run} (h : Emits a s r)
    (h' : ∀ t, r = .ok t → Appended a s t → Emits b t (f t)) : Emits (a ++ b) s (r.andThen f) := by
  cases r with
  | ok t => exact .after h (h' t rfl h)
  | raise k t =>
    obtain ⟨hk, hlen, ho⟩ := h
    exact ⟨hk, by rw [List.length_append]; omega, ho⟩

theorem Run.andThen_assoc (r : Run) (f g : State → Run) :
    (r.andThen f).andThen g = r.andThen fun s => (f s).andThen g := by
  cases r <;> rfl

theorem emitBytes_emits (bytes : List Byte) {s : State} (h : s.op ≤ s.outCap) :
    Emits bytes s (emitBytes bytes s) := by
  rw [emitBytes_eq bytes s h, putBytes_eq, putBytes_eq]
  split
  · next hfit =>
    exact ⟨.refl s, rfl, rfl, rfl, hfit, fun a ha => Memory_read_writeBytes_outside _ _ ha,
      fun hw => ⟨Memory_writeBytes_wf hw _ _, fun k hk => Memory_read_writeBytes hw _ _ hk⟩, id⟩
  · next hfit =>
    refine ⟨rfl, by omega, .refl s, fun a ha => ?_, fun hw => Memory_writeBytes_wf hw _ _⟩
    exact Memory_read_writeBytes_outside _ _ (by rw [List.length_take]; omega)

theorem emitByte_emits (b : Byte) {s : State} (h : s.op ≤ s.outCap) : Emits [b] s (emitByte b s) :=
  emitByte_eq_emitBytes b s ▸ emitBytes_emits [b] h

/-- Emitting leaves the scan's own registers alone. -/
theorem emitBytes_keeps_scan {bytes : List Byte} {s t : State} (h : emitBytes bytes s = .ok t) :
    t.i = s.i ∧ t.anchor = s.anchor ∧ t.ht = s.ht := by
  induction bytes generalizing s with
  | nil => cases h; exact ⟨rfl, rfl, rfl⟩
  | cons b r ih =>
    obtain ⟨u, hu, hr⟩ := Run_andThen_eq_ok.mp h
    unfold emitByte at hu
    split at hu
    · cases hu
    · cases hu; exact ih (s := s.putByte b) hr

/-! ### The match finder as a function of the input -/

/-- The slot of the table that the four bytes at `i` hash to (41_match_finder.md rule R90). -/
def probeSlot (mult : BitVec 32) (m : Memory) (i : Nat) : Nat :=
  (hash4 (BitVec.ofNat 32 (Memory.readLE m i 4)) mult).toNat

/-- The table after the scan step at `i` (rule R92). -/
def inserted (mult : BitVec 32) (m : Memory) (ht : HashTable) (i : Nat) : HashTable :=
  HashTable.setCell ht (probeSlot mult m i) (i + 1)

/-- The candidate that the scan step at `i` accepts, if there is one (rule R92). -/
def candidate (mult : BitVec 32) (m : Memory) (ht : HashTable) (i : Nat) : Option Nat :=
  if HashTable.cell ht (probeSlot mult m i) = 0 then none
  else if maxOffset < i - (HashTable.cell ht (probeSlot mult m i) - 1) then none
  else if Memory.readLE m (HashTable.cell ht (probeSlot mult m i) - 1) 4 = (BitVec.ofNat 32 (Memory.readLE m i 4)).toNat
    then some (HashTable.cell ht (probeSlot mult m i) - 1)
  else none

/-- An encoder's scan stands at `i` with the table `ht`, the literals from `anchor` on still to be emitted. -/
structure ScanAt (p : Params) (m : Memory) (n : Nat) (ht : HashTable) (i anchor : Nat) (s : State) : Prop where
  params : s.params = p
  inMem : s.inMem = m
  curLen : s.curLen = n
  ht : s.ht = ht
  i : s.i = i
  anchor : s.anchor = anchor
  room : s.op ≤ s.outCap

section Scan
variable {p : Params} {m : Memory} {n : Nat} {ht : HashTable} {i anchor : Nat} {s : State}

theorem ScanAt.findMatch_eq (h : ScanAt p m n ht i anchor s) (mult : BitVec 32) :
    ∃ t, findMatch mult s = (t, candidate mult m ht i) ∧ ScanAt p m n (inserted mult m ht i) i anchor t ∧
      Appended [] s t := by
  obtain ⟨rfl, rfl, rfl, rfl, rfl, rfl, hroom⟩ := h
  have hp (c : Nat) : ScanAt s.params s.inMem s.curLen (inserted mult s.inMem s.ht s.i) s.i s.anchor
      { probe mult s with c := c } ∧ Appended [] s { probe mult s with c := c } :=
    ⟨⟨rfl, rfl, rfl, rfl, rfl, rfl, hroom⟩, .of_outMem_eq hroom (.refl s) rfl rfl rfl rfl fun hw =>
      HashTable_setCell_wf hw (BitVec.isLt _) _⟩
  unfold candidate
  by_cases h0 : HashTable.cell s.ht (probeSlot mult s.inMem s.i) = 0
  · rw [if_pos h0]
    exact ⟨_, if_pos h0, hp (probe mult s).c⟩
  · rw [if_neg h0]
    refine ⟨_, (if_neg h0).trans ?_, hp ((probe mult s).cand - 1)⟩
    by_cases h1 : maxOffset < s.i - (HashTable.cell s.ht (probeSlot mult s.inMem s.i) - 1)
    · rw [if_pos h1]
      exact if_pos h1
    · rw [if_neg h1]
      refine (if_neg h1).trans ?_
      by_cases h2 : Memory.readLE s.inMem (HashTable.cell s.ht (probeSlot mult s.inMem s.i) - 1) 4 =
          (BitVec.ofNat 32 (Memory.readLE s.inMem s.i 4)).toNat
      · exact (if_pos h2).trans (by rw [if_pos h2]; rfl)
      · exact (if_neg h2).trans (by rw [if_neg h2])

theorem ScanAt.of_appended {bytes : List Byte} {t : State} (h : ScanAt p m n ht i anchor s)
    (ha : Appended bytes s t) (hht : t.ht = s.ht) (hi : t.i = s.i) (hanchor : t.anchor = s.anchor) :
    ScanAt p m n ht i anchor t := by
  have hs := ha.hostSide
  exact ⟨hs.params.trans h.params, hs.inMem.trans h.inMem, ha.curLen.trans h.curLen, hht.trans h.ht, hi.trans h.i,
    hanchor.trans h.anchor, hs.outCap ▸ ha.fits⟩

/-- The scan moves on. -/
theorem ScanAt.moveTo {i' anchor' i₁ anchor₁ : Nat} (h : ScanAt p m n ht i anchor s) (hi : i₁ = i')
    (ha : anchor₁ = anchor') : ScanAt p m n ht i' anchor' { s with i := i₁, anchor := anchor₁ } :=
  ⟨h.params, h.inMem, h.curLen, h.ht, hi, ha, h.room⟩

end Scan

theorem inserted_wf (mult : BitVec 32) (m : Memory) {ht : HashTable} (h : HashTable.wf ht) (i : Nat) :
    HashTable.wf (inserted mult m ht i) :=
  HashTable_setCell_wf h (BitVec.isLt _) _

/-- A candidate stands before `i` where every cell of the table is at most `i`. -/
theorem candidate_lt {mult : BitVec 32} {m : Memory} {ht : HashTable} {i c : Nat}
    (hcell : ∀ h, HashTable.cell ht h ≤ i) (h : candidate mult m ht i = some c) : c < i := by
  unfold candidate at h
  have := hcell (probeSlot mult m i)
  split_ifs at h
  cases h
  omega

theorem inserted_cell_le {mult : BitVec 32} {m : Memory} {ht : HashTable} {i : Nat} (hw : HashTable.wf ht)
    (hcell : ∀ h, HashTable.cell ht h ≤ i) (h : Nat) : HashTable.cell (inserted mult m ht i) h ≤ i + 1 := by
  by_cases e : h = probeSlot mult m i
  · rw [e, inserted, HashTable_cell_setCell_self hw]
  · rw [inserted, HashTable_cell_setCell_ne _ e]
    exact Nat.le_succ_of_le (hcell h)

/-! ### The LZ4 block -/

/-- The sequences the scan of rule R106 of 42_lz4_block.md finds from `i` on, and the last one. -/
def lz4Plan (p : Params) (m : Memory) (n : Nat) : Nat → HashTable → Nat → Nat → List Instr
  | 0, _, _, anchor => [.lz4Last 0 (Memory.slice m anchor (n - anchor))]
  | fuel + 1, ht, i, anchor =>
    if i + p.lz4MfLimit ≤ n then
      match candidate lz4Mult m ht i with
      | some c =>
        let mlen := 4 + matchExtend m (c + 4) (i + 4) (n - p.lz4LastLiterals - (i + 4))
        .lz4Seq (Memory.slice m anchor (i - anchor)) (BitVec.ofNat 16 (i - c)) mlen ::
          lz4Plan p m n fuel (inserted lz4Mult m ht i) (i + mlen) (i + mlen)
      | none => lz4Plan p m n fuel (inserted lz4Mult m ht i) (i + 1) anchor
    else [.lz4Last 0 (Memory.slice m anchor (n - anchor))]

/-- The bytes of `Lz4BlockCompress()` (rule R106) for the first `n` bytes of the input. -/
def lz4BlockBytes (p : Params) (m : Memory) (n : Nat) : List Byte :=
  if n < smallInput then encode (.lz4Last 0 (Memory.slice m 0 n))
  else (lz4Plan p m n (n + 1) [] 0 0).flatMap encode

theorem lz4EmitLast_emits (litStart litLen : Nat) {s : State} (h : s.op ≤ s.outCap) :
    Emits (encode (.lz4Last 0 (Memory.slice s.inMem litStart litLen))) s (lz4EmitLast litStart litLen s) :=
  .after (.of_outMem_eq (t := { s with lit := litLen }) h (.refl s) rfl rfl rfl rfl id) (emitBytes_emits _ h)

theorem lz4EmitSequence_emits (litStart litLen offset mlen : Nat) {s : State} (h : s.op ≤ s.outCap) :
    Emits (encode (.lz4Seq (Memory.slice s.inMem litStart litLen) (BitVec.ofNat 16 offset) mlen)) s
      (lz4EmitSequence litStart litLen offset mlen s) :=
  .after (.of_outMem_eq (t := { s with lit := litLen, offset := BitVec.ofNat 32 offset, mlen := mlen, ml := mlen - 4 })
    h (.refl s) rfl rfl rfl rfl id) (emitBytes_emits _ h)

theorem Appended.refl {s : State} (h : s.op ≤ s.outCap) : Appended [] s s :=
  .of_outMem_eq h (.refl s) rfl rfl rfl rfl id

/-- The scan's own registers may move without a byte being emitted. -/
theorem Appended.setScan {a : List Byte} {s t : State} (h : Appended a s t) (i anchor : Nat) :
    Appended a s { t with i := i, anchor := anchor } :=
  ⟨h.hostSide, h.curLen, h.slot, h.op, h.fits, h.outside, h.content, h.ht⟩

theorem ScanAt.emitLast {p : Params} {m : Memory} {n : Nat} {ht : HashTable} {i anchor : Nat} {s : State}
    (h : ScanAt p m n ht i anchor s) : Emits (encode (.lz4Last 0 (Memory.slice m anchor (n - anchor)))) s
      (lz4EmitLast s.anchor (s.curLen - s.anchor) s) := by
  rw [← h.inMem, ← h.curLen, ← h.anchor]
  exact lz4EmitLast_emits _ _ h.room

theorem lz4Scan_emits {p : Params} {m : Memory} {n : Nat} (fuel : Nat) {ht : HashTable} {i anchor : Nat} {s : State}
    (h : ScanAt p m n ht i anchor s) :
    Emits ((lz4Plan p m n fuel ht i anchor).flatMap encode) s
      ((lz4Scan fuel s).andThen fun s1 => lz4EmitLast s1.anchor (s1.curLen - s1.anchor) s1) := by
  induction fuel generalizing ht i anchor s with
  | zero => simpa [lz4Plan, lz4Scan] using h.emitLast
  | succ fuel ih =>
    unfold lz4Scan lz4Plan
    rw [h.i, h.params, h.curLen]
    by_cases hi : i + p.lz4MfLimit ≤ n
    · obtain ⟨s1, e, h1, ha⟩ := h.findMatch_eq lz4Mult
      rw [if_pos hi, if_pos hi, e]
      cases hc : candidate lz4Mult m ht i with
      | none => 
        exact .after (ha.setScan (s1.i + 1) s1.anchor)
          (ih (h1.moveTo (congrArg (· + 1) h1.i) h1.anchor))
      | some c' =>
        simp only [List.flatMap_cons, Run.andThen_assoc, h1.inMem, h1.i, h1.curLen, h1.params, h1.anchor]
        have hseq := lz4EmitSequence_emits anchor (i - anchor) (i - c')
          (4 + matchExtend m (c' + 4) (i + 4) (n - p.lz4LastLiterals - (i + 4))) h1.room
        rw [h1.inMem] at hseq
        refine .after (a := []) ha (hseq.andThen fun t ht happ => ?_)
        obtain ⟨hi', hanchor, hht⟩ := emitBytes_keeps_scan ht
        have h2 := h1.of_appended happ hht hi' hanchor
        exact .after (a := []) (Appended.refl h2.room |>.setScan _ _)
          (ih (h2.moveTo (congrArg (· + _) h2.i) (congrArg (· + _) h2.i)))
    · rw [if_neg hi, if_neg hi]
      simpa using h.emitLast

theorem ScanAt.start {s : State} (h : s.op ≤ s.outCap) :
    ScanAt s.params s.inMem s.curLen [] 0 0 { tableReset s with anchor := 0, i := 0 } ∧
      Appended [] s { tableReset s with anchor := 0, i := 0 } :=
  ⟨⟨rfl, rfl, rfl, rfl, rfl, rfl, h⟩, .of_outMem_eq h (.refl s) rfl rfl rfl rfl fun _ => HashTable_nil_wf⟩

theorem lz4BlockCompress_emits {s : State} (h : s.op ≤ s.outCap) :
    Emits (lz4BlockBytes s.params s.inMem s.curLen) s (lz4BlockCompress s) := by
  unfold lz4BlockBytes lz4BlockCompress
  split
  · exact lz4EmitLast_emits _ _ h
  · obtain ⟨hscan, ha⟩ := ScanAt.start h
    exact .after (a := []) ha (lz4Scan_emits _ hscan)

/-! ### Snappy -/

/-- The literal element of the bytes from `anchor` up to `i`, if there are any (44_snappy.md rule R144). -/
def snLiteralPlan (m : Memory) (i anchor : Nat) : List Instr :=
  if anchor < i then [snLiteralOf (Memory.slice m anchor (i - anchor))] else []

/-- The elements the scan of rule R144 of 44_snappy.md finds from `i` on, and the literal at the end. -/
def snPlan (m : Memory) (n : Nat) : Nat → HashTable → Nat → Nat → List Instr
  | 0, _, _, anchor => snLiteralPlan m n anchor
  | fuel + 1, ht, i, anchor =>
    if i + 4 ≤ n then
      match candidate snappyMult m ht i with
      | some c =>
        let mlen := 4 + matchExtend m (c + 4) (i + 4) (n - (i + 4))
        snLiteralPlan m i anchor ++ (snCopies (i - c) mlen mlen ++
          snPlan m n fuel (inserted snappyMult m ht i) (i + mlen) (i + mlen))
      | none => snPlan m n fuel (inserted snappyMult m ht i) (i + 1) anchor
    else snLiteralPlan m n anchor

/-- The bytes of `SnCompress()` (rule R144) for the first `n` bytes of the input. -/
def snBytes (m : Memory) (n : Nat) : List Byte :=
  varintEncode 10 n ++
    if n = 0 then []
    else if n < smallInput then encode (snLiteralOf (Memory.slice m 0 n))
    else (snPlan m n (n + 1) [] 0 0).flatMap encode

theorem snEmitLiteral_emits (start len : Nat) {s : State} (h : s.op ≤ s.outCap) :
    Emits (encode (snLiteralOf (Memory.slice s.inMem start len))) s (snEmitLiteral start len s) :=
  .after (.of_outMem_eq (t := { s with len := len }) h (.refl s) rfl rfl rfl rfl id) (emitBytes_emits _ h)

theorem snEmitCopy_emits (offset len mlen : Nat) {s : State} (h : s.op ≤ s.outCap) :
    Emits ((snCopies offset len len).flatMap encode) s (snEmitCopy offset len { s with mlen := mlen }) :=
  .after (.of_outMem_eq (t := { s with mlen := mlen, offset := BitVec.ofNat 32 offset, len := len }) h (.refl s) rfl rfl rfl
    rfl id) (emitBytes_emits _ h)

theorem ScanAt.emitLiteral {p : Params} {m : Memory} {n : Nat} {ht : HashTable} {i anchor : Nat} {s : State}
    (h : ScanAt p m n ht i anchor s) (stop : Nat) : Emits ((snLiteralPlan m stop anchor).flatMap encode) s
      (if anchor < stop then snEmitLiteral anchor (stop - anchor) s else .ok s) := by
  unfold snLiteralPlan
  split
  · rw [← h.inMem]
    simpa using snEmitLiteral_emits anchor (stop - anchor) h.room
  · exact .refl h.room

theorem snScan_emits {p : Params} {m : Memory} {n : Nat} (fuel : Nat) {ht : HashTable} {i anchor : Nat} {s : State}
    (h : ScanAt p m n ht i anchor s) :
    Emits ((snPlan m n fuel ht i anchor).flatMap encode) s
      ((snScan fuel s).andThen fun s2 =>
        if s2.anchor < s2.curLen then snEmitLiteral s2.anchor (s2.curLen - s2.anchor) s2 else .ok s2) := by
  induction fuel generalizing ht i anchor s with
  | zero =>
    simp only [snPlan, snScan, Run_andThen_ok, h.anchor, h.curLen]
    exact h.emitLiteral n
  | succ fuel ih =>
    unfold snScan snPlan
    rw [h.i, h.curLen]
    by_cases hi : i + 4 ≤ n
    · obtain ⟨s1, e, h1, ha⟩ := h.findMatch_eq snappyMult
      rw [if_pos hi, if_pos hi, e]
      cases hc : candidate snappyMult m ht i with
      | none =>
        exact .after (ha.setScan (s1.i + 1) s1.anchor)
          (ih (h1.moveTo (congrArg (· + 1) h1.i) h1.anchor))
      | some c' =>
        simp only [List.flatMap_append, Run.andThen_assoc, h1.inMem, h1.i, h1.curLen, h1.anchor]
        refine .after (a := []) ha ((h1.emitLiteral i).andThen fun t e' happ => ?_)
        have h2 : ScanAt p m n (inserted snappyMult m ht i) i anchor t := by
          split at e'
          · obtain ⟨hi', hanchor, hht⟩ := emitBytes_keeps_scan e'
            exact h1.of_appended happ hht hi' hanchor
          · cases e'
            exact h1
        rw [show i - c' = t.i - c' by rw [h2.i]]
        refine (snEmitCopy_emits _ _ _ h2.room).andThen fun u hu happ' => ?_
        obtain ⟨hi', hanchor, hht⟩ := emitBytes_keeps_scan hu
        have h3 := h2.of_appended happ' hht hi' hanchor
        exact .after (a := []) (Appended.refl h3.room |>.setScan _ _)
          (ih (h3.moveTo (congrArg (· + _) h3.i) (congrArg (· + _) h3.i)))
    · rw [if_neg hi, if_neg hi, Run_andThen_ok, h.anchor, h.curLen]
      exact h.emitLiteral n

theorem snCompressBody_emits {s : State} (hop : s.op = 0) :
    Emits (snBytes s.inMem s.curLen) s (snCompressBody s) := by
  have h0 : s.op ≤ s.outCap := hop ▸ Nat.zero_le _
  have hs : { s with op := 0 } = s := by rw [← hop]
  unfold snCompressBody snBytes
  rw [hs]
  refine (emitBytes_emits _ h0).andThen fun t _ ha => ?_
  have hroom : t.op ≤ t.outCap := ha.hostSide.outCap ▸ ha.fits
  rw [← ha.curLen, ← ha.hostSide.inMem]
  split_ifs with hn hsmall
  · exact .refl hroom
  · exact snEmitLiteral_emits _ _ hroom
  · obtain ⟨hscan, ha⟩ := ScanAt.start hroom
    exact .after (a := []) ha (snScan_emits _ hscan)

/-! ### The LZ4 frame -/

/-- The frame header but for its checksum (43_lz4_frame.md rule R122). -/
def lz4fHeaderBytes (opts : BitVec 2) (contentSize : BitVec 64) : List Byte :=
  encode .lz4fMagic ++ ([flgByte true (opts.getLsbD 1) (opts.getLsbD 0)] ++ ([bdByte 3] ++
    if opts.getLsbD 1 then encode (.lz4fCsize contentSize) else []))

/-- What follows the block of a frame (rule R122). -/
def lz4fTrailerBytes (m : Memory) (n : Nat) (opts : BitVec 2) : List Byte :=
  encode .lz4fEnd ++ if opts.getLsbD 0 then encode (.lz4fCchk (xxh32 (Memory.slice m 0 n) 0)) else []

/-- The bytes of `Lz4FrameCompress()` (rule R122), with `hc` for its header checksum. -/
def lz4fBytes (hc : Byte) (p : Params) (m : Memory) (n : Nat) (opts : BitVec 2) (contentSize : BitVec 64) :
    List Byte :=
  (lz4fHeaderBytes opts contentSize ++ [hc]) ++ (leBytes 4 (lz4BlockBytes p m n).length ++
    (lz4BlockBytes p m n ++ lz4fTrailerBytes m n opts))

theorem OutHolds.slice {lo : Nat} {bytes : List Byte} {t : State} (h : OutHolds lo bytes t) (k : Nat) :
    outBytes t (lo + k) (bytes.length - k) = bytes.drop k := by
  refine List.ext_getElem (by simp [outBytes]) fun j h1 h2 => ?_
  have hj : j < bytes.length - k := by simpa [outBytes] using h1
  have := h (k + j) (by omega)
  rw [List.getD_eq_getElem _ _ (by omega)] at this
  simpa [outBytes, Memory.slice, Nat.add_assoc] using this

/-- Bytes already appended are written again, as many of them. -/
theorem OutHolds.patch {lo : Nat} {a b b' c : List Byte} {s t : State} (h : OutHolds lo (a ++ (b ++ c)) s)
    (hw : Memory.wf s.outMem) (hlen : b'.length = b.length)
    (ho : t.outMem = Memory.writeBytes s.outMem (lo + a.length) b') : OutHolds lo (a ++ (b' ++ c)) t := by
  intro k hk
  simp only [List.length_append] at hk
  have hold := h k (by simp only [List.length_append]; omega)
  rw [ho]
  rcases Nat.lt_or_ge k a.length with ha | ha
  · rw [List.getD_append _ _ _ _ ha] at hold ⊢
    rw [Memory_read_writeBytes_outside _ _ (by omega), hold]
  · rw [List.getD_append_right _ _ _ _ ha] at hold ⊢
    rcases Nat.lt_or_ge (k - a.length) b.length with hb | hb
    · rw [List.getD_append _ _ _ _ (by omega), show lo + k = lo + a.length + (k - a.length) by omega,
        Memory_read_writeBytes hw _ _ (by omega)]
    · rw [List.getD_append_right _ _ _ _ (by omega)] at hold ⊢
      rw [Memory_read_writeBytes_outside _ _ (by omega), hold, hlen]

/-- The header's fields but for its checksum (43_lz4_frame.md rule R122). -/
def lz4fEmitFields (s : State) : Run :=
  (emitBytes (encode .lz4fMagic) s).andThen fun s1 =>
    (emitByte (flgByte true (optCsize s1) (optCchk s1))
      { s1 with flg := flgByte true (optCsize s1) (optCchk s1) }).andThen fun s2 =>
      (emitByte (bdByte 3) { s2 with bd := bdByte 3 }).andThen fun s3 =>
        emitBytes (if optCsize s3 then encode (.lz4fCsize s3.contentSize) else []) s3

theorem lz4fEmitHeader_eq (s : State) :
    lz4fEmitHeader s =
      (lz4fEmitFields s).andThen fun s4 => emitByte (headerChecksum (outBytes s4 4 (s4.op - 4))) s4 := by
  simp only [lz4fEmitHeader, lz4fEmitFields, Run.andThen_assoc]

/-- After an append there is room for what comes, or `OUT` is full. -/
theorem Appended.room {bytes : List Byte} {s t : State} (h : Appended bytes s t) : t.op ≤ t.outCap :=
  h.hostSide.outCap ▸ h.fits

theorem lz4fEmitFields_emits {s : State} (h : s.op ≤ s.outCap) :
    Emits (lz4fHeaderBytes s.opts s.contentSize) s (lz4fEmitFields s) := by
  refine (emitBytes_emits _ h).andThen fun s1 _ h1 => ?_
  have hroom := h1.room
  rw [← h1.hostSide.opts, ← h1.hostSide.contentSize]
  have h2 : Emits [flgByte true (optCsize s1) (optCchk s1)] s1
      (emitByte _ { s1 with flg := flgByte true (optCsize s1) (optCchk s1) }) :=
    .after (a := []) (t := { s1 with flg := flgByte true (optCsize s1) (optCchk s1) })
      (.of_outMem_eq hroom (.refl s1) rfl rfl rfl rfl id) (emitByte_emits _ hroom)
  refine h2.andThen fun s2 _ h2 => ?_
  have hroom := h2.room
  rw [← h2.hostSide.opts, ← h2.hostSide.contentSize]
  have h3 : Emits [bdByte 3] s2 (emitByte _ { s2 with bd := bdByte 3 }) :=
    .after (a := []) (t := { s2 with bd := bdByte 3 })
      (.of_outMem_eq hroom (.refl s2) rfl rfl rfl rfl id) (emitByte_emits _ hroom)
  refine h3.andThen fun s3 _ h3 => ?_
  have hroom := h3.room
  rw [← h3.hostSide.opts, ← h3.hostSide.contentSize]
  exact emitBytes_emits _ hroom

theorem Emits.raise_mono {a b : List Byte} {s t : State} {k : ErrKind} (h : Emits a s (.raise k t))
    (hlen : a.length ≤ b.length) : Emits b s (.raise k t) := by
  obtain ⟨hk, hcap, ho⟩ := h
  exact ⟨hk, by omega, ho⟩

/-- The header, whose checksum is right where the bytes of `OUT` are what was written. -/
theorem lz4fEmitHeader_emits {s : State} (hop : s.op = 0) :
    ∃ hc, (Memory.wf s.outMem → hc = headerChecksum ((lz4fHeaderBytes s.opts s.contentSize).drop 4)) ∧
      Emits (lz4fHeaderBytes s.opts s.contentSize ++ [hc]) s (lz4fEmitHeader s) := by
  have h := lz4fEmitFields_emits (s := s) (hop ▸ Nat.zero_le _)
  rw [lz4fEmitHeader_eq]
  cases e : lz4fEmitFields s with
  | raise k t =>
    rw [e] at h
    exact ⟨_, fun _ => rfl, h.raise_mono (by simp)⟩
  | ok t =>
    rw [e] at h
    refine ⟨headerChecksum (outBytes t 4 (t.op - 4)), fun hw => ?_, .after h (emitByte_emits _ h.room)⟩
    obtain ⟨-, hb⟩ := h.content hw
    have := hb.slice 4
    rw [hop] at this
    rw [← this, h.op, hop, Nat.zero_add, Nat.zero_add]

/-- The block size word is filled in once the block is there. -/
theorem Appended.patchSlot {a blk : List Byte} {s t : State} (h : Appended (a ++ (leBytes 4 0 ++ blk)) s t)
    (hslot : s.slot = s.op + a.length) :
    Appended (a ++ (leBytes 4 blk.length ++ blk)) s (lz4fPatchSlot t) := by
  have hop := h.op
  simp only [List.length_append, leBytes_length] at hop
  have hlen : t.op - (t.slot + 4) = blk.length := by rw [h.slot, hslot]; omega
  have ho : (lz4fPatchSlot t).outMem = Memory.writeBytes t.outMem (s.op + a.length) (leBytes 4 blk.length) := by
    rw [← hlen, ← hslot, ← h.slot]
    rfl
  refine ⟨h.hostSide, h.curLen, h.slot, ?_, h.fits, fun x hx => ?_, fun hw => ?_, h.ht⟩
  · simp only [List.length_append, leBytes_length]
    exact hop
  · replace hx : x < s.op ∨ t.op ≤ x := hx
    rw [ho, Memory_read_writeBytes_outside _ _ (by simp only [leBytes_length]; omega)]
    exact h.outside x hx
  · obtain ⟨hw, hb⟩ := h.content hw
    exact ⟨ho ▸ Memory_writeBytes_wf hw _ _, hb.patch hw rfl ho⟩

theorem lz4FrameCompress_emits {s : State} (hop : s.op = 0) :
    ∃ hc slot, (Memory.wf s.outMem → hc = headerChecksum ((lz4fHeaderBytes s.opts s.contentSize).drop 4)) ∧
      Emits (lz4fBytes hc s.params s.inMem s.curLen s.opts s.contentSize) { s with slot := slot }
        (lz4FrameCompress s) := by
  obtain ⟨hc, hwf, h⟩ := lz4fEmitHeader_emits hop
  refine ⟨hc, s.op + (lz4fHeaderBytes s.opts s.contentSize ++ [hc]).length, hwf, ?_⟩
  have hs : { s with op := 0 } = s := by rw [← hop]
  unfold lz4FrameCompress lz4fBytes
  rw [hs]
  generalize lz4fHeaderBytes s.opts s.contentSize ++ [hc] = header at h
  cases e : lz4fEmitHeader s with
  | raise k t =>
    rw [e] at h
    obtain ⟨hk, hfull, ho⟩ := h
    exact Emits.raise_mono (a := header) ⟨hk, hfull, ho.hostSide, ho.outside, ho.wf⟩ (by simp)
  | ok s1 =>
  rw [e] at h
  have h1 : Appended header { s with slot := s.op + header.length } { s1 with slot := s1.op } :=
    ⟨h.hostSide, h.curLen, h.op, h.op, h.fits, h.outside, h.content, h.ht⟩
  have h2 := emitBytes_emits (leBytes 4 0) h1.room
  rw [Run_andThen_ok]
  cases e : emitBytes (leBytes 4 0) { s1 with slot := s1.op } with
  | raise k t => exact (Emits.after h1 (e ▸ h2)).raise_mono (by simp)
  | ok s2 =>
  have h2 := h1.trans (e ▸ h2)
  have h3 := lz4BlockCompress_emits h2.room
  rw [h2.hostSide.params, h2.hostSide.inMem, h2.curLen] at h3
  rw [Run_andThen_ok]
  cases e : lz4BlockCompress s2 with
  | raise k t => exact (Emits.after h2 (e ▸ h3)).raise_mono (by simp)
  | ok s3 =>
  have h3 := h2.trans (e ▸ h3)
  rw [List.append_assoc] at h3
  have h4 := h3.patchSlot rfl
  rw [Run_andThen_ok, ← List.append_assoc (leBytes 4 _), ← List.append_assoc header]
  refine .after h4 ((emitBytes_emits _ h4.room).andThen fun s4 _ h5 => ?_)
  simp only [inBytes, optCchk, h5.hostSide.inMem, h5.curLen, h5.hostSide.opts, h4.hostSide.inMem, h4.curLen,
    h4.hostSide.opts]
  exact emitBytes_emits _ h5.room

end Sys2Proof.Machine
end

section
/-! SUPPORT. What a command's first step can do, said once: the compress commands and the queries end in it, the
decompress commands begin. -/

namespace Sys2Proof.Machine

/-! ### The compress commands -/

/-- The output of a compress command with room enough for it, by its operands in `s`. -/
def compressBytes (i : Instr) (s : State) : List Byte :=
  match i with
  | .lz4bCompress => lz4BlockBytes s.params s.inMem s.inLen
  | .lz4fCompress => lz4fBytes (headerChecksum ((lz4fHeaderBytes s.opts s.contentSize).drop 4)) s.params s.inMem s.inLen
      s.opts s.contentSize
  | _ => snBytes s.inMem s.inLen

/-- A compress command runs a body that emits its output from the started state, but for the header checksum of a frame
where `OUT` is not in canonical form. -/
theorem exec_compress {i : Instr} {s t : State} (hi : IsCompress i) (hb : s.status ≠ .busy) (h : exec i s = .next t) :
    ∃ code slot bytes r, (Memory.wf s.outMem → bytes = compressBytes i s) ∧
      Emits bytes { s.start code with slot := slot } r ∧ t = r.finish := by
  rcases hi with rfl | rfl | rfl
  · obtain ⟨hb', -⟩ | ⟨-, -, rfl⟩ := launch_next (show execLz4bCompress s = _ from h)
    · exact absurd hb' hb
    · exact ⟨1, s.slot, _, _, fun _ => rfl, lz4BlockCompress_emits (s := s.start 1) (Nat.zero_le _), rfl⟩
  · obtain ⟨hb', -⟩ | ⟨-, -, rfl⟩ := launch_next (show execLz4fCompress s = _ from h)
    · exact absurd hb' hb
    · obtain ⟨hc, slot, hwf, he⟩ := lz4FrameCompress_emits (s := s.start 3) rfl
      exact ⟨3, slot, _, _, fun hw => by rw [hwf hw]; rfl, he, rfl⟩
  · obtain ⟨hb', -⟩ | ⟨-, -, rfl⟩ := launch_next (show execSnCompress s = _ from h)
    · exact absurd hb' hb
    · exact ⟨5, s.slot, _, _, fun _ => rfl, snCompressBody_emits (s := s.start 5) rfl, rfl⟩

theorem Appended.freeTable {bytes : List Byte} {s t : State} (h : Appended bytes s t) :
    Appended bytes s t.freeTable :=
  ⟨h.hostSide, h.curLen, h.slot, h.op, h.fits, h.outside, h.content, fun _ => HashTable_tableOf_wf _ _⟩

/-- A compress command is done with all its bytes appended, or has met `OUT_CAP`. -/
theorem Emits.finish_cases {bytes : List Byte} {s : State} {r : Run} (h : Emits bytes s r) :
    (∃ t, Appended bytes s t ∧ r.finish = t.complete 0) ∨
    (s.outCap < s.op + bytes.length ∧ ∃ t, Overflowed s t ∧ r.finish = t.fail .outputTooSmall) := by
  cases r with
  | ok t =>
    rw [Run_finish_ok]
    split
    · exact .inl ⟨t, h, rfl⟩
    · exact .inl ⟨t.freeTable, h.freeTable, rfl⟩
  | raise k t =>
    obtain ⟨rfl, hlen, ho⟩ := h
    exact .inr ⟨hlen, t, ho, rfl⟩

/-! ### All commands -/

/-- The ways the first step of a command can leave the machine, from the started state `s`. -/
inductive CommandEnd (s : State) : State → Prop
  /-- The command is over, with `bytes` appended. -/
  | completes (slot : Nat) (bytes : List Byte) (t : State) (res : Nat) (h : Appended bytes { s with slot := slot } t)
      (hres : s.params.Admissible → res ≤ s.params.sizeMax) : CommandEnd s (t.complete res)
  /-- The command has raised. -/
  | raises (k : ErrKind) (t : State) (h : Overflowed s t) : CommandEnd s (t.fail k)
  /-- A decompress command stands at its first block. -/
  | atBlock (h : 0 < s.curLen) : CommandEnd s { s with phase := .block, endIdx := s.curLen, base := 0 }
  /-- A decompress command stands at its first field. -/
  | atField (p : Phase) (h : p = .magic ∨ p = .snLen) : CommandEnd s { s with phase := p }

theorem satadd_le (p : Params) (a b : Nat) : satadd p a b ≤ p.sizeMax := Nat.min_le_right _ _

/-- A bound query is over with its result. -/
theorem CommandEnd.query (code : BitVec 8) (s : State) {res : Nat} (h : res ≤ s.params.sizeMax) :
    CommandEnd (s.start code) ((s.start code).complete res) :=
  .completes s.slot [] _ res (.refl (Nat.zero_le _)) fun _ => h

theorem lt_two_pow_sizeBits {p : Params} (h : p.Admissible) {v : Nat} (hv : v < 2 ^ 32) : v ≤ p.sizeMax := by
  unfold Params.sizeMax
  obtain ⟨h | h, -⟩ := h
  all_goals rw [h]; omega

/-- A preamble read from the byte before its last `j` on is below `16 * 128 ^ j` (40_varint_length_codecs.md rule R81). -/
theorem readVarint_lt_of_le {j : Nat} (hj : j ≤ 4) {bs : List Byte} {v n : Nat} {r : List Byte}
    (h : readVarint (4 - j) bs = .ok (v, n, r)) : v < 16 * 128 ^ j := by
  induction bs generalizing j v n r with
  | nil => cases h
  | cons b bs ih =>
    unfold readVarint at h
    split_ifs at h with h15 h128
    · cases h
      rcases j with _ | j
      · omega
      · have := Nat.one_le_two_pow (n := j)
        have := Nat.pow_le_pow_left (show 2 ≤ 128 by decide) j
        rw [pow_succ]
        omega
    · rcases j with _ | j
      · omega
      · split at h
        · cases h
        · next v' n' r' hr =>
          cases h
          have := ih (by omega) (show readVarint (4 - j) bs = _ by rw [← hr]; congr 1; omega)
          rw [pow_succ]
          omega

theorem readVarint_lt {bs : List Byte} {v n : Nat} {r : List Byte} (h : readVarint 0 bs = .ok (v, n, r)) :
    v < 2 ^ 32 :=
  readVarint_lt_of_le (j := 4) le_rfl h

theorem snSizeBody_end (s : State) : CommandEnd (s.start 10) (snSizeBody (s.start 10)) := by
  unfold snSizeBody
  split
  · next v n r hv =>
    exact .completes s.slot [] _ v (.of_outMem_eq (Nat.zero_le _) (.refl _) rfl rfl rfl rfl id) fun h =>
      lt_two_pow_sizeBits h (readVarint_lt hv)
  · exact .raises _ _ ⟨.refl _, fun _ _ => rfl, id⟩

theorem lz4bDecompress_end (s : State) : CommandEnd (s.start 2)
    (blockLoop { s.start 2 with phase := .block, endIdx := s.inLen, base := 0 }) := by
  obtain ⟨hlt, e⟩ | ⟨-, hp, -⟩ | ⟨-, -, e⟩ :=
    blockLoop_cases { s.start 2 with phase := .block, endIdx := s.inLen, base := 0 }
  · rw [e]
    exact .atBlock (s := s.start 2) hlt
  · cases hp
  · exact e ▸ .completes s.slot [] _ 0 (.of_outMem_eq (Nat.zero_le _) (.refl _) rfl rfl rfl rfl id) fun _ =>
      Nat.zero_le _

/-- A command that is launched runs its first step from the started state. -/
theorem exec_command_end {code : Byte} {i : Instr} {s t : State} (hi : decodeCommand code = some i)
    (hb : s.status ≠ .busy) (h : exec i s = .next t) : ∃ code, CommandEnd (s.start code) t := by
  have hcompress (hc : IsCompress i) : ∃ code, CommandEnd (s.start code) t := by
    obtain ⟨code, slot, bytes, r, -, he, rfl⟩ := exec_compress hc hb h
    refine ⟨code, ?_⟩
    obtain ⟨t, ht, e⟩ | ⟨-, t, ht, e⟩ := he.finish_cases
    · exact e ▸ .completes slot bytes t 0 ht fun _ => Nat.zero_le _
    · exact e ▸ .raises _ t ⟨ht.hostSide, ht.outside, ht.wf⟩
  have hlaunch {code refusal body} (h : launch code refusal body s = .next t)
      (hend : CommandEnd (s.start code) (body (s.start code))) : ∃ code, CommandEnd (s.start code) t := by
    obtain ⟨hb', -⟩ | ⟨-, -, rfl⟩ := launch_next h
    · exact absurd hb' hb
    · exact ⟨code, hend⟩
  unfold decodeCommand at hi
  split at hi <;> cases hi
  · exact hcompress (.inl rfl)
  · exact hlaunch (show execLz4bDecompress s = _ from h) (lz4bDecompress_end s)
  · exact hcompress (.inr (.inl rfl))
  · exact hlaunch (show execLz4fDecompress s = _ from h) (.atField _ (.inl rfl))
  · exact hcompress (.inr (.inr rfl))
  · exact hlaunch (show execSnDecompress s = _ from h) (.atField _ (.inr rfl))
  · exact hlaunch (show execLz4bMax s = _ from h) (.query _ s (satadd_le _ _ _))
  · exact hlaunch (show execLz4fMax s = _ from h) (.query _ s (satadd_le _ _ _))
  · exact hlaunch (show execSnMax s = _ from h) (.query _ s (satadd_le _ _ _))
  · exact hlaunch (show execSnSize s = _ from h) (snSizeBody_end s)

/-! ### The output of a compress command depends on its operands alone -/

/-- Two buffers hold the same first `n` bytes. -/
abbrev MemAgree (n : Nat) (m m' : Memory) : Prop := ∀ a, a < n → Memory.read m' a = Memory.read m a

section Congr
variable {n : Nat} {m m' : Memory} (h : MemAgree n m m')
include h

theorem MemAgree.slice {a k : Nat} (hk : a + k ≤ n) : Memory.slice m' a k = Memory.slice m a k := by
  refine List.map_congr_left fun j hj => h _ ?_
  have := List.mem_range.mp hj
  omega

theorem MemAgree.slice_of_le_sub {a k : Nat} (hk : k ≤ n - a) : Memory.slice m' a k = Memory.slice m a k := by
  rcases Nat.eq_zero_or_pos k with rfl | hpos
  · rfl
  · exact h.slice (by omega)

theorem MemAgree.slice_sub {a b : Nat} (hb : b ≤ n) : Memory.slice m' a (b - a) = Memory.slice m a (b - a) :=
  h.slice_of_le_sub (Nat.sub_le_sub_right hb a)

theorem MemAgree.readLE {a k : Nat} (hk : a + k ≤ n) : Memory.readLE m' a k = Memory.readLE m a k :=
  congrArg leNat (h.slice hk)

theorem MemAgree.matchExtend {a b k : Nat} (hab : a ≤ b) (hk : b + k ≤ n) :
    matchExtend m' a b k = matchExtend m a b k := by
  induction k generalizing a b with
  | zero => rfl
  | succ k ih =>
    simp only [Machine.matchExtend]
    rw [h a (by omega), h b (by omega), ih (by omega) (by omega)]

theorem MemAgree.inserted {mult : BitVec 32} {ht : HashTable} {i : Nat} (hi : i + 4 ≤ n) :
    inserted mult m' ht i = inserted mult m ht i := by
  simp only [Machine.inserted, probeSlot, h.readLE hi]

theorem MemAgree.candidate {mult : BitVec 32} {ht : HashTable} {i : Nat} (hi : i + 4 ≤ n)
    (hcell : ∀ k, HashTable.cell ht k ≤ i) : candidate mult m' ht i = candidate mult m ht i := by
  have hslot : probeSlot mult m' i = probeSlot mult m i := by rw [probeSlot, h.readLE hi, probeSlot]
  have := hcell (probeSlot mult m i)
  have hread := h.readLE (a := HashTable.cell ht (probeSlot mult m i) - 1) (k := 4) (by omega)
  simp only [Machine.candidate, hslot, h.readLE hi, hread]

theorem MemAgree.lz4Plan {p : Params} (hp : p.Admissible) (fuel : Nat) {ht : HashTable} {i anchor : Nat}
    (hw : HashTable.wf ht) (hcell : ∀ k, HashTable.cell ht k ≤ i) :
    lz4Plan p m' n fuel ht i anchor = lz4Plan p m n fuel ht i anchor := by
  induction fuel generalizing ht i anchor with
  | zero => simp only [Machine.lz4Plan, h.slice_sub (Nat.le_refl n)]
  | succ fuel ih =>
    have hlim := hp.2
    simp only [Machine.lz4Plan, h.slice_sub (Nat.le_refl n)]
    by_cases hi : i + p.lz4MfLimit ≤ n
    · have hw' := inserted_wf lz4Mult m hw i
      have hcell' := inserted_cell_le (mult := lz4Mult) (m := m) hw hcell
      rw [if_pos hi, if_pos hi, h.candidate (by omega) hcell, h.inserted (by omega)]
      cases hc : Machine.candidate lz4Mult m ht i with
      | none => exact ih hw' hcell'
      | some c =>
        have hlt := candidate_lt hcell hc
        dsimp only
        rw [h.slice_sub (by omega), h.matchExtend (by omega) (by omega),
          ih hw' fun k => (hcell' k).trans (by omega)]
    · rw [if_neg hi, if_neg hi]

theorem MemAgree.snLiteralPlan {i anchor : Nat} (hi : i ≤ n) : snLiteralPlan m' i anchor = snLiteralPlan m i anchor := by
  simp only [Machine.snLiteralPlan, h.slice_sub hi]

theorem MemAgree.snPlan (fuel : Nat) {ht : HashTable} {i anchor : Nat} (hw : HashTable.wf ht)
    (hcell : ∀ k, HashTable.cell ht k ≤ i) : snPlan m' n fuel ht i anchor = snPlan m n fuel ht i anchor := by
  induction fuel generalizing ht i anchor with
  | zero => exact h.snLiteralPlan (Nat.le_refl n)
  | succ fuel ih =>
    simp only [Machine.snPlan, h.snLiteralPlan (Nat.le_refl n)]
    by_cases hi : i + 4 ≤ n
    · have hw' := inserted_wf snappyMult m hw i
      have hcell' := inserted_cell_le (mult := snappyMult) (m := m) hw hcell
      rw [if_pos hi, if_pos hi, h.candidate hi hcell, h.inserted hi]
      cases hc : Machine.candidate snappyMult m ht i with
      | none => exact ih hw' hcell'
      | some c =>
        have hlt := candidate_lt hcell hc
        dsimp only
        rw [h.snLiteralPlan (by omega), h.matchExtend (by omega) (by omega),
          ih hw' fun k => (hcell' k).trans (by omega)]
    · rw [if_neg hi, if_neg hi]

theorem MemAgree.lz4BlockBytes {p : Params} (hp : p.Admissible) : lz4BlockBytes p m' n = lz4BlockBytes p m n := by
  simp only [Machine.lz4BlockBytes, h.slice (Nat.zero_add n).le, h.lz4Plan hp _ HashTable_nil_wf fun _ => Nat.le_refl 0]

theorem MemAgree.snBytes : snBytes m' n = snBytes m n := by
  simp only [Machine.snBytes, h.slice (Nat.zero_add n).le, h.snPlan _ HashTable_nil_wf fun _ => Nat.le_refl 0]

end Congr

theorem compressBytes_congr (i : Instr) {s u : State} (hp : s.params.Admissible) (hparams : u.params = s.params)
    (hlen : u.inLen = s.inLen) (hopts : u.opts = s.opts) (hcs : u.contentSize = s.contentSize)
    (hin : MemAgree s.inLen s.inMem u.inMem) : compressBytes i u = compressBytes i s := by
  unfold compressBytes
  rw [hparams, hlen, hopts, hcs]
  split
  · exact hin.lz4BlockBytes hp
  · simp only [lz4fBytes, lz4fTrailerBytes, hin.lz4BlockBytes hp, hin.slice (Nat.zero_add _).le]
  · exact hin.snBytes

/-- Settles O27: the body emits a list of bytes that is a function of the operands, and the outcome is decided by
whether it fits. -/
theorem compressDependsOnOperands : Obligations.CompressDependsOnOperands := by
  intro i s u t v hp hi hbs hbu hws hwu hparams hlen hcap hopts hcs hin hs hu
  obtain ⟨_, _, bytes, _, hbytes, hes, rfl⟩ := exec_compress hi hbs hs
  obtain ⟨_, _, bytes', _, hbytes', heu, rfl⟩ := exec_compress hi hbu hu
  obtain rfl : bytes = bytes' := by
    rw [hbytes hws, hbytes' hwu, compressBytes_congr i hp hparams hlen hopts hcs hin]
  obtain ⟨t, ht, e⟩ | ⟨hfull, t, ht, e⟩ := hes.finish_cases <;>
    obtain ⟨v, hv, e'⟩ | ⟨hfull', v, hv, e'⟩ := heu.finish_cases
  all_goals rw [e, e']
  · obtain ⟨-, hbt⟩ := ht.content hws
    obtain ⟨-, hbv⟩ := hv.content hwu
    have hop : t.op = bytes.length := ht.op.trans (Nat.zero_add _)
    have hop' : v.op = bytes.length := hv.op.trans (Nat.zero_add _)
    refine ⟨rfl, rfl, hop'.trans hop.symm, rfl, ?_⟩
    exact (hop ▸ hbv.slice 0).trans (hop ▸ hbt.slice 0).symm
  · have hop := ht.op
    have hfits := ht.fits
    simp only [State_start_op, State_start_outCap] at hop hfits hfull'
    omega
  · have hop := hv.op
    have hfits := hv.fits
    simp only [State_start_op, State_start_outCap] at hop hfits hfull
    omega
  · exact ⟨rfl, rfl, rfl, rfl, rfl⟩

end Sys2Proof.Machine
end

section
/-! SUPPORT. What the decoder accepts: an object of the format it was asked for, whose size is the bytes it took
(30_encoding.md rules R50, R73). -/

namespace Sys2Proof

theorem readLz4LenExt_length {bs r : List Byte} {e : Nat} (h : readLz4LenExt bs = some (e, r)) :
    bs.length = e / 255 + 1 + r.length := by
  induction bs generalizing e r with
  | nil => cases h
  | cons b bs ih =>
    unfold readLz4LenExt at h
    split_ifs at h with hb
    · obtain ⟨⟨e', r'⟩, h', he⟩ := Option.map_eq_some_iff.mp h
      cases he
      have := ih h'
      simp only [List.length_cons]
      omega
    · cases h
      have : b.toNat ≠ 255 := fun h => hb (BitVec.eq_of_toNat_eq h)
      have := b.isLt
      simp only [List.length_cons]
      omega

theorem readLz4Field_length {nibble n : Nat} {bs r : List Byte} (hn : nibble < 16)
    (h : readLz4Field nibble bs = some (n, r)) : bs.length = lz4FieldExtSize n + r.length := by
  unfold readLz4Field at h
  unfold lz4FieldExtSize
  split_ifs at h with hb
  · obtain ⟨⟨e, r'⟩, h', he⟩ := Option.map_eq_some_iff.mp h
    cases he
    have := readLz4LenExt_length h'
    rw [if_neg (by omega)]
    dsimp only at this ⊢
    omega
  · cases h
    rw [if_pos (by omega)]
    omega

theorem readVarint_length {k : Nat} {bs r : List Byte} {v n : Nat} (h : readVarint k bs = .ok (v, n, r)) :
    bs.length = n + r.length := by
  induction bs generalizing k v n r with
  | nil => cases h
  | cons b bs ih =>
    unfold readVarint at h
    split_ifs at h with h15 h128
    · cases h
      simp only [List.length_cons]
      omega
    · split at h
      · cases h
      · next v' n' r' hr =>
        cases h
        have := ih hr
        simp only [List.length_cons]
        omega

/-- The decoder took an object of the format `f`, as many bytes as its size. -/
abbrev Took (f : Format) (bs : List Byte) (i : Instr) (rest : List Byte) : Prop :=
  i.format = f ∧ bs.length = i.size + rest.length

theorem decodeLz4_took {bs rest : List Byte} {i : Instr} (h : decodeLz4 bs = .ok (i, rest)) :
    Took .lz4Tok bs i rest := by
  unfold decodeLz4 at h
  split at h
  · cases h
  next token r =>
  have htok := token.isLt
  split at h
  · cases h
  next lit r' hlit =>
  split_ifs at h with hlen
  have h1 := readLz4Field_length (by omega) hlit
  have htake : (r'.take lit).length = lit := by rw [List.length_take]; omega
  have hdrop : (r'.drop lit).length = r'.length - lit := List.length_drop
  unfold decodeLz4Tail at h
  split at h
  · next e =>
    cases h
    rw [e] at hdrop
    refine ⟨rfl, ?_⟩
    simp only [Instr.size, htake, List.length_cons, List.length_nil] at hdrop ⊢
    omega
  · cases h
  · next lo hi r2 e =>
    rw [e] at hdrop
    dsimp only at h
    split at h
    · cases h
    · next ml r3 hml =>
      cases h
      have h2 := readLz4Field_length (by omega) hml
      refine ⟨rfl, ?_⟩
      simp only [Instr.size, htake, List.length_cons, Nat.add_sub_cancel] at hdrop ⊢
      omega

theorem decodeSnLitExt_took {mk : List Byte → Instr} {k : Nat} {bs rest : List Byte} {i : Instr} {tag : Byte}
    (hmk : ∀ lits, (mk lits).format = .snTag ∧ (mk lits).size = 1 + k + lits.length)
    (h : decodeSnLitExt mk k bs = .ok (i, rest)) : Took .snTag (tag :: bs) i rest := by
  unfold decodeSnLitExt at h
  dsimp only at h
  split_ifs at h with hk hlen
  cases h
  obtain ⟨hf, hs⟩ := hmk ((bs.drop k).take (leNat (bs.take k) + 1))
  refine ⟨hf, ?_⟩
  simp only [hs, List.length_take, List.length_drop, List.length_cons] at hlen ⊢
  omega

theorem decodeSnLit_took {v : Nat} {bs rest : List Byte} {i : Instr} {tag : Byte} (h : decodeSnLit v bs = .ok (i, rest)) :
    Took .snTag (tag :: bs) i rest := by
  unfold decodeSnLit at h
  split at h
  · exact decodeSnLitExt_took (fun _ => ⟨rfl, rfl⟩) h
  · exact decodeSnLitExt_took (fun _ => ⟨rfl, rfl⟩) h
  · exact decodeSnLitExt_took (fun _ => ⟨rfl, rfl⟩) h
  · exact decodeSnLitExt_took (fun _ => ⟨rfl, rfl⟩) h
  · split_ifs at h with hlen
    cases h
    refine ⟨rfl, ?_⟩
    simp only [Instr.size, List.length_take, List.length_drop, List.length_cons]
    omega

theorem decodeSn_took {bs rest : List Byte} {i : Instr} (h : decodeSn bs = .ok (i, rest)) : Took .snTag bs i rest := by
  unfold decodeSn at h
  split at h
  · cases h
  next tag r =>
  split at h
  · exact decodeSnLit_took h
  · split at h
    · cases h
      exact ⟨rfl, by simp [Instr.size]; omega⟩
    · cases h
  · split_ifs at h with hlen
    cases h
    refine ⟨rfl, ?_⟩
    simp only [Instr.size, List.length_drop, List.length_cons]
    omega
  · split_ifs at h with hlen
    cases h
    refine ⟨rfl, ?_⟩
    simp only [Instr.size, List.length_drop, List.length_cons]
    omega

theorem decodeWord_took {f : Format} {n : Nat} {bs rest : List Byte} {i : Instr} {g : Nat → Except DecodeError Instr}
    (hg : ∀ v i, g v = .ok i → i.format = f ∧ i.size = n) (h : decodeWord n bs g = .ok (i, rest)) :
    Took f bs i rest := by
  unfold decodeWord at h
  split_ifs at h with hlen
  split at h
  · cases h
  · next i' hi =>
    cases h
    obtain ⟨hf, hs⟩ := hg _ _ hi
    refine ⟨hf, ?_⟩
    rw [hs, List.length_drop]
    omega

theorem decodeBsw_took (v : Nat) : (decodeBsw v).format = .bsw ∧ (decodeBsw v).size = 4 := by
  unfold decodeBsw
  split_ifs <;> exact ⟨rfl, rfl⟩

theorem decode_took {f : Format} {bs rest : List Byte} {i : Instr} (h : decode f bs = .ok (i, rest)) :
    Took f bs i rest := by
  cases f <;> dsimp only [decode] at h
  case cmd8 =>
    split at h
    · cases h
    next b r =>
    split at h
    · cases h
    · next i' hi =>
      cases h
      unfold decodeCommand at hi
      split at hi <;> cases hi
      all_goals exact ⟨rfl, Nat.add_comm _ _⟩
  case lz4Tok => exact decodeLz4_took h
  case snVarint =>
    split at h
    · cases h
    · next v n r hv =>
      cases h
      exact ⟨rfl, readVarint_length hv⟩
  case snTag => exact decodeSn_took h
  case magic32 =>
    refine decodeWord_took (fun v i hi => ?_) h
    split_ifs at hi
    cases hi
    exact ⟨rfl, rfl⟩
  case flg8 =>
    refine decodeWord_took (fun v i hi => ?_) h
    unfold decodeFlg at hi
    split_ifs at hi
    cases hi
    exact ⟨rfl, rfl⟩
  case bd8 =>
    refine decodeWord_took (fun v i hi => ?_) h
    unfold decodeBd at hi
    split_ifs at hi
    cases hi
    exact ⟨rfl, rfl⟩
  case csize64 => exact decodeWord_took (fun v i hi => by cases hi; exact ⟨rfl, rfl⟩) h
  case hc8 => exact decodeWord_took (fun v i hi => by cases hi; exact ⟨rfl, rfl⟩) h
  case bsw => exact decodeWord_took (fun v i hi => by cases hi; exact decodeBsw_took v) h
  case cchk32 => exact decodeWord_took (fun v i hi => by cases hi; exact ⟨rfl, rfl⟩) h

end Sys2Proof
end

section
/-! SUPPORT. What one step can do, said once: the engine's move, the start of a command, or an action of the host. -/

namespace Sys2Proof.Machine

/-- What a move of the engine can make of `s`. -/
inductive EngineTo (s : State) : State → Prop
  | stuck (h : phaseFormat s.phase = none) : EngineTo s s
  | element {i : Instr} {rest : List Byte} {t : State} (hp : phaseFormat s.phase = some i.format)
      (hd : (fetchBytes s).length = i.size + rest.length) (h : ElementBody i s t) : EngineTo s t
  | bad {f : Format} (k : ErrKind) (u : State) (hp : phaseFormat s.phase = some f) (h : Wrote f s u) :
      EngineTo s (u.fail k)

/-- What a write to `CMD` can make of `s`. -/
inductive CommandTo (s : State) : State → Prop
  | ignored (hb : s.status = .busy) : CommandTo s s
  | illegal (code : BitVec 8) : CommandTo s (illegalCommand code s)
  | runs (code : BitVec 8) {t : State} (h : CommandEnd (s.start code) t) : CommandTo s t

/-- What any other action of the host can make of `s`. -/
inductive HostTo (s : State) : State → Prop
  | nothing : HostTo s s
  | arg (r : Reg) (v : Nat) (h : ¬ HandsOff s) : HostTo s (writeArg r v s)
  | read (r : Reg) : HostTo s (hostRead r s)
  | writeIn (a : Nat) (b : Byte) : HostTo s { s with inMem := Memory.write s.inMem a b }
  | writeOut (a : Nat) (b : Byte) : HostTo s { s with outMem := Memory.write s.outMem a b }
  | peek (v : Nat) : HostTo s { s with hostData := v }
  | provide (b : Buffers) : HostTo s { s with bufs := b }
  | reset : HostTo s (hostReset s)
  | abandon : HostTo s (abandonReset s)

/-- What a step can make of `s`. -/
inductive StepTo (s : State) : State → Prop
  | engine {s0 t : State} (hm : EngineMoves s s0) (h : EngineTo s0 t) : StepTo s t
  | waits (hb : s.status ≠ .busy) : StepTo s s
  | command (v : Nat) (r : List HostAction) {t : State} (hr : s.host = .writeReg .cmd v :: r)
      (h : CommandTo { s with host := r } t) : StepTo s t
  | host (a : HostAction) (r : List HostAction) {t : State} (hr : s.host = a :: r) (h : HostTo { s with host := r } t) :
      StepTo s t

theorem phaseFormat_isElement {p : Phase} {i : Instr} (h : phaseFormat p = some i.format) : IsElement i := by
  intro hi
  rw [hi] at h
  cases p <;> cases h

/-- What the machine does with an event (`step` once the event is known). -/
theorem step_of_run {s s0 : State} {i : Instr} (h : nextEvent s = .run i s0) : step s = exec i s0 := by
  rw [step, h]

theorem step_of_out {s : State} {o : Host.Outcome State Fault Refusal} (h : nextEvent s = .out o) : step s = o := by
  rw [step, h]

theorem step_engine {s s0 t : State} (hm : EngineMoves s s0) (h : step s = .next t) : EngineTo s0 t := by
  have hn := nextEvent_of_EngineMoves hm
  obtain ⟨hp, e⟩ | ⟨f, i, rest, hp, hd, e⟩ | ⟨f, e', hp, hd, e⟩ := engineEvent_cases s0
  · obtain rfl := Host.Outcome.next.inj ((step_of_out (hn.trans e)).symm.trans h)
    exact .stuck hp
  · obtain ⟨rfl, hlen⟩ := decode_took hd
    exact .element hp hlen (exec_element_body (phaseFormat_isElement hp) ((step_of_run (hn.trans e)).symm.trans h))
  · obtain ⟨k, u, hu, hw⟩ := badElement_eq_fail e' f s0
    obtain rfl := Host.Outcome.next.inj ((step_of_out (hn.trans e)).symm.trans h)
    exact hu ▸ .bad k u hp hw

theorem step_command {s t : State} {v : Nat} {r : List HostAction} (hr : s.host = .writeReg .cmd v :: r)
    (h : step s = .next t) : CommandTo { s with host := r } t := by
  have hn : nextEvent s = hostCommand v { s with host := r } := by simp [nextEvent, hr, hostAct]
  unfold hostCommand at hn
  split at hn
  · next hb =>
    obtain rfl := Host.Outcome.next.inj ((step_of_out hn).symm.trans h)
    exact .ignored hb
  · next hb =>
    split at hn
    · next i hi =>
      obtain ⟨code, hc⟩ := exec_command_end hi hb ((step_of_run hn).symm.trans h)
      exact .runs code hc
    · obtain rfl := Host.Outcome.next.inj ((step_of_out hn).symm.trans h)
      exact .illegal _

theorem writeArg_of_not_isArgReg {r : Reg} (h : isArgReg r ≠ true) (v : Nat) (s : State) : writeArg r v s = s := by
  cases r
  case inLen | outCap | maxOut | opts | contentSize => exact absurd rfl h
  all_goals rfl

theorem hostAccess_next {size a : Nat} {s s' t : State} (h : hostAccess size a s s' = .next t) : t = s' := by
  obtain ⟨-, e⟩ | ⟨-, -, e⟩ | ⟨-, -, e⟩ := hostAccess_cases size a s s'
  all_goals rw [e] at h; cases h
  rfl

theorem hostWriteReg_to {r : Reg} {v : Nat} {s t : State} (h : hostWriteReg r v s = .next t) : HostTo s t := by
  unfold hostWriteReg at h
  split_ifs at h with hoff
  cases h
  by_cases ha : isArgReg r = true
  · exact .arg r v fun hh => hoff ⟨hh, ha⟩
  · rw [writeArg_of_not_isArgReg ha]
    exact .nothing

theorem hostAbandon_to {v : Nat} {s t : State} (h : hostAbandon v s = .next t) : HostTo s t := by
  unfold hostAbandon at h
  split at h
  · cases h; exact .abandon
  · split at h
    · cases h; exact .abandon
    · split at h
      · cases h
      · cases h; exact .abandon

/-- An action of the host that is no write to `CMD`. -/
theorem hostAct_to {a : HostAction} {s t : State} (ha : ∀ v, a ≠ .writeReg .cmd v) :
    ∃ o, hostAct a s = .out o ∧ (o = .next t → HostTo s t) := by
  cases a
  case writeReg r v =>
    have hr : r ≠ .cmd := fun h => ha v (h ▸ rfl)
    exact ⟨_, if_neg hr, hostWriteReg_to⟩
  case readReg r => exact ⟨_, rfl, fun h => by cases h; exact .read r⟩
  case writeIn a b => exact ⟨_, rfl, fun h => hostAccess_next h ▸ .writeIn a b⟩
  case readIn a => exact ⟨_, rfl, fun h => hostAccess_next h ▸ .peek _⟩
  case writeOut a b => exact ⟨_, rfl, fun h => hostAccess_next h ▸ .writeOut a b⟩
  case readOut a => exact ⟨_, rfl, fun h => hostAccess_next h ▸ .peek _⟩
  case provide inBase inSize outBase outSize =>
    refine ⟨_, rfl, fun h => ?_⟩
    split_ifs at h
    cases h
    exact .provide _
  case reset =>
    refine ⟨_, rfl, fun h => ?_⟩
    cases h
    split
    · exact .abandon
    · exact .reset
  case abandon v => exact ⟨_, rfl, hostAbandon_to⟩
  case tick => exact ⟨_, rfl, fun h => by cases h; exact .nothing⟩
  case poll => exact ⟨_, rfl, fun h => by cases h; exact .nothing⟩

/-- Every step is one of the engine's, the host's or nobody's. -/
theorem step_to {s t : State} (h : step s = .next t) : StepTo s t := by
  obtain ⟨s0, hm, -⟩ | ⟨hb, -, e⟩ | ⟨hb, r, hr, e⟩ | ⟨hb, r, hr, e⟩ | ⟨a, r, hr, -, -, e⟩ := nextEvent_cases s
  · exact .engine hm (step_engine hm h)
  · obtain rfl := Host.Outcome.next.inj ((step_of_out e).symm.trans h)
    exact .waits hb
  · obtain rfl := Host.Outcome.next.inj ((step_of_out e).symm.trans h)
    exact .host _ r hr .nothing
  · obtain rfl := Host.Outcome.next.inj ((step_of_out e).symm.trans h)
    exact .host _ r hr (.read _)
  · by_cases hc : ∃ v, a = .writeReg .cmd v
    · obtain ⟨v, rfl⟩ := hc
      exact .command v r hr (step_command hr h)
    · obtain ⟨o, ho, hto⟩ := hostAct_to (a := a) (s := { s with host := r }) (t := t) fun v hv => hc ⟨v, hv⟩
      exact .host a r hr (hto ((step_of_out (e.trans ho)).symm.trans h))

end Sys2Proof.Machine
end

section
/-! SUPPORT. What every step keeps: the canonical memories, the agreement of `STATUS` with the place and the results, and
the invariant of every run. -/

namespace Sys2Proof.Machine

/-! ### Canonical memories -/

theorem Wrote.keeps_memories {f : Format} {s u : State} (h : Wrote f s u) (hs : MemoriesCanonical s) :
    MemoriesCanonical u := by
  obtain ⟨hin, hout, hht⟩ := hs
  exact ⟨h.hostSide.inMem ▸ hin, h.wf hout, h.ht ▸ hht⟩

theorem MemoriesCanonical.complete {s : State} (h : MemoriesCanonical s) (n : Nat) : MemoriesCanonical (s.complete n) := h

/-- The table a `raise` leaves is canonical whatever it was. -/
theorem fail_memories {s : State} (k : ErrKind) (hin : Memory.wf s.inMem) (hout : Memory.wf s.outMem) :
    MemoriesCanonical (s.fail k) :=
  ⟨hin, hout, HashTable_tableOf_wf _ _⟩

theorem MemoriesCanonical.fail {s : State} (h : MemoriesCanonical s) (k : ErrKind) : MemoriesCanonical (s.fail k) := by
  obtain ⟨hin, hout, -⟩ := h
  exact fail_memories k hin hout

theorem ElementEnd.keeps_memories {i : Instr} {s t : State} (h : ElementEnd i s t) (hs : MemoriesCanonical s) :
    MemoriesCanonical t := by
  cases h with
  | goesOn _ hw => exact hw.keeps_memories hs
  | completes u hw => exact (hw.keeps_memories hs).complete 0
  | raises k u hw => exact (hw.keeps_memories hs).fail k

theorem EngineTo.keeps_memories {s t : State} (h : EngineTo s t) (hs : MemoriesCanonical s) : MemoriesCanonical t := by
  cases h with
  | stuck => exact hs
  | element _ _ hb => exact hb.toEnd.keeps_memories hs
  | bad k u _ hw => exact (hw.keeps_memories hs).fail k

theorem CommandEnd.keeps_memories {s t : State} (h : CommandEnd s t) (hs : MemoriesCanonical s) :
    MemoriesCanonical t := by
  obtain ⟨hin, hout, hht⟩ := hs
  cases h with
  | completes slot bytes u res ha =>
    obtain ⟨hw, -⟩ := ha.content hout
    exact ⟨ha.hostSide.inMem ▸ hin, hw, ha.ht hht⟩
  | raises k u ho => exact fail_memories k (ho.hostSide.inMem ▸ hin) (ho.wf hout)
  | atBlock => exact ⟨hin, hout, hht⟩
  | atField => exact ⟨hin, hout, hht⟩

theorem freeFill_wf {m : Memory} (hm : Memory.wf m) (seed n : Nat) : Memory.wf (freeFill seed n m) := by
  induction n with
  | zero => exact hm
  | succ n ih => exact Memory_write_wf ih _ _

theorem HostTo.keeps_memories {s t : State} (h : HostTo s t) (hs : MemoriesCanonical s) : MemoriesCanonical t := by
  obtain ⟨hin, hout, hht⟩ := hs
  cases h with
  | arg r v => cases r <;> exact ⟨hin, hout, hht⟩
  | writeIn a b => exact ⟨Memory_write_wf hin a b, hout, hht⟩
  | writeOut a b => exact ⟨hin, Memory_write_wf hout a b, hht⟩
  | reset => exact ⟨hin, hout, HashTable_nil_wf⟩
  | abandon => exact ⟨hin, freeFill_wf hout _ _, HashTable_nil_wf⟩
  | nothing | read | peek | provide => exact ⟨hin, hout, hht⟩

theorem CommandTo.keeps_memories {s t : State} (h : CommandTo s t) (hs : MemoriesCanonical s) : MemoriesCanonical t := by
  cases h with
  | ignored => exact hs
  | illegal code => exact hs
  | runs code hc => exact hc.keeps_memories hs

/-- Settles O46: whoever moves writes its memories by the operations that keep the form. -/
theorem stepKeepsMemoriesCanonical : Obligations.StepKeepsMemoriesCanonical := by
  intro s t hs h
  cases step_to h with
  | engine hm he => exact he.keeps_memories (EngineMoves_eq hm ▸ hs)
  | waits => exact hs
  | command v r hr hc => exact hc.keeps_memories hs
  | host a r hr hh => exact hh.keeps_memories hs

/-! ### `STATUS` and the place in the stream -/

theorem StatusMatchesPhase.complete (s : State) (n : Nat) : StatusMatchesPhase (s.complete n) := by
  simp [StatusMatchesPhase]

theorem StatusMatchesPhase.fail (s : State) (k : ErrKind) : StatusMatchesPhase (s.fail k) := by
  simp [StatusMatchesPhase]

theorem StatusMatchesPhase.of_busy {s : State} (hb : s.status = .busy) (hp : s.phase ≠ .none) : StatusMatchesPhase s :=
  ⟨fun _ => hp, fun _ => hb⟩

theorem EngineTo.keeps_phase {s t : State} (h : EngineTo s t) (hb : s.status = .busy) (hs : StatusMatchesPhase s) :
    StatusMatchesPhase t := by
  cases h with
  | stuck => exact hs
  | bad k u => exact .fail u k
  | element _ _ he =>
    cases he.toEnd with
    | goesOn _ hw hstatus hphase => exact .of_busy (hstatus.trans hb) (hphase (hs.mp hb))
    | completes u => exact .complete u 0
    | raises k u => exact .fail u k

theorem CommandEnd.keeps_phase {s t : State} (h : CommandEnd s t) (hb : s.status = .busy) : StatusMatchesPhase t := by
  cases h with
  | completes slot bytes u res => exact .complete u res
  | raises k u => exact .fail u k
  | atBlock => exact .of_busy hb (by simp)
  | atField p hp => exact .of_busy hb (by rcases hp with rfl | rfl <;> simp)

theorem CommandTo.keeps_phase {s t : State} (h : CommandTo s t) (hs : StatusMatchesPhase s) : StatusMatchesPhase t := by
  cases h with
  | ignored => exact hs
  | illegal code => exact .fail (s.start code) .illegalCommand
  | runs code hc => exact hc.keeps_phase rfl

theorem HostTo.keeps_phase {s t : State} (h : HostTo s t) (hs : StatusMatchesPhase s) : StatusMatchesPhase t := by
  have hidle (u : State) (hu : u.status = .idle) (hp : u.phase = .none) : StatusMatchesPhase u := by
    simp [StatusMatchesPhase, hu, hp]
  cases h with
  | arg r v => cases r <;> exact hs
  | reset => exact hidle _ rfl rfl
  | abandon => exact hidle _ rfl rfl
  | nothing | read | writeIn | writeOut | peek | provide => exact hs

/-- Settles O47: a command that goes on is at a place, and one that ends is at none. -/
theorem stepKeepsPhase : Obligations.StepKeepsPhase := by
  intro s t hs h
  cases step_to h with
  | engine hm he =>
    have hs0 := EngineMoves_eq hm
    exact he.keeps_phase (hs0 ▸ hm.1) (hs0 ▸ hs)
  | waits => exact hs
  | command v r hr hc => exact hc.keeps_phase hs
  | host a r hr hh => exact hh.keeps_phase hs

/-! ### `STATUS` and the results -/

theorem ResultsConsistent.complete (s : State) (n : Nat) : ResultsConsistent (s.complete n) :=
  ⟨nofun, fun _ => rfl, nofun⟩

theorem ResultsConsistent.fail (s : State) (k : ErrKind) : ResultsConsistent (s.fail k) :=
  ⟨nofun, nofun, fun _ => ⟨nofun, rfl, rfl⟩⟩

theorem ResultsConsistent.of_busy {s : State} (hb : s.status = .busy) : ResultsConsistent s := by
  simp [ResultsConsistent, hb]

theorem EngineTo.keeps_results {s t : State} (h : EngineTo s t) (hb : s.status = .busy) : ResultsConsistent t := by
  cases h with
  | stuck => exact .of_busy hb
  | bad k u => exact .fail u k
  | element _ _ he =>
    cases he.toEnd with
    | goesOn _ hw hstatus => exact .of_busy (hstatus.trans hb)
    | completes u => exact .complete u 0
    | raises k u => exact .fail u k

theorem CommandEnd.keeps_results {s t : State} (h : CommandEnd s t) (hb : s.status = .busy) : ResultsConsistent t := by
  cases h with
  | completes slot bytes u res => exact .complete u res
  | raises k u => exact .fail u k
  | atBlock => exact .of_busy hb
  | atField => exact .of_busy hb

theorem CommandTo.keeps_results {s t : State} (h : CommandTo s t) (hs : ResultsConsistent s) : ResultsConsistent t := by
  cases h with
  | ignored => exact hs
  | illegal code => exact .fail (s.start code) .illegalCommand
  | runs code hc => exact hc.keeps_results rfl

theorem HostTo.keeps_results {s t : State} (h : HostTo s t) (hs : ResultsConsistent s) : ResultsConsistent t := by
  cases h with
  | arg r v => cases r <;> exact hs
  | reset => exact ⟨fun _ => ⟨rfl, rfl, rfl⟩, nofun, nofun⟩
  | abandon => exact ⟨fun _ => ⟨rfl, rfl, rfl⟩, nofun, nofun⟩
  | nothing | read | writeIn | writeOut | peek | provide => exact hs

/-- Settles O48: the results are set where a command ends, and by a reset. -/
theorem stepKeepsResults : Obligations.StepKeepsResults := by
  intro s t hs h
  cases step_to h with
  | engine hm he => exact he.keeps_results (EngineMoves_eq hm ▸ hm.1)
  | waits => exact hs
  | command v r hr hc => exact hc.keeps_results hs
  | host a r hr hh => exact hh.keeps_results hs

/-! ### The engine stays inside `OUT_CAP` -/

theorem phaseFormat_eq_snTag {p : Phase} (h : phaseFormat p = some .snTag) : p = .snTag := by
  cases p <;> simp_all [phaseFormat]

theorem phaseFormat_eq_lz4Tok {p : Phase} (h : phaseFormat p = some .lz4Tok) : p = .block ∨ p = .frameBlock := by
  cases p <;> simp_all [phaseFormat]

/-- What the limits of `Inv` give an object of the format the engine is at. -/
theorem CursorsInBounds.roomFor {s : State} {f : Format} (h : CursorsInBounds s) (hb : s.status = .busy)
    (hp : phaseFormat s.phase = some f) : RoomFor f s := by
  obtain ⟨-, -, hcap, hmax, -, hsn⟩ := h hb
  refine ⟨hcap, hmax, ?_⟩
  rintro rfl
  obtain ⟨-, -, hdecl⟩ := hsn (phaseFormat_eq_snTag hp)
  exact hdecl

theorem Wrote.outSame {f : Format} {s u : State} (h : Wrote f s u) (hr : RoomFor f s) {a : Nat} (ha : s.outCap ≤ a) :
    Memory.read u.outMem a = Memory.read s.outMem a := by
  obtain ⟨hcap, -⟩ := h.room hr
  exact h.outside a (.inr (hcap.trans ha))

theorem EngineTo.stays_inside {s t : State} (h : EngineTo s t) (hb : s.status = .busy) (hc : CursorsInBounds s) :
    (∀ a, s.outCap ≤ a → Memory.read t.outMem a = Memory.read s.outMem a) ∧ OperandsSame s t := by
  cases h with
  | stuck => exact ⟨fun _ _ => rfl, OperandsSame.refl s⟩
  | bad k u hp hw => exact ⟨fun a ha => hw.outSame (hc.roomFor hb hp) ha, hw.hostSide.operands⟩
  | element hp _ he =>
    have hr := hc.roomFor hb hp
    cases he.toEnd with
    | goesOn _ hw => exact ⟨fun a ha => hw.outSame hr ha, hw.hostSide.operands⟩
    | completes u hw => exact ⟨fun a ha => hw.outSame hr ha, hw.hostSide.operands⟩
    | raises k u hw => exact ⟨fun a ha => hw.outSame hr ha, hw.hostSide.operands⟩

theorem CommandEnd.stays_inside {s t : State} (h : CommandEnd s t) :
    (∀ a, s.outCap ≤ a → Memory.read t.outMem a = Memory.read s.outMem a) ∧ OperandsSame s t := by
  cases h with
  | completes slot bytes u res ha =>
    exact ⟨fun a h => ha.outside a (.inr (ha.fits.trans h)), ha.hostSide.operands⟩
  | raises k u ho => exact ⟨fun a h => ho.outside a (.inr h), ho.hostSide.operands⟩
  | atBlock => exact ⟨fun _ _ => rfl, OperandsSame.refl s⟩
  | atField => exact ⟨fun _ _ => rfl, OperandsSame.refl s⟩

theorem CommandTo.stays_inside {s t : State} (h : CommandTo s t) :
    (∀ a, s.outCap ≤ a → Memory.read t.outMem a = Memory.read s.outMem a) ∧ OperandsSame s t := by
  cases h with
  | ignored => exact ⟨fun _ _ => rfl, OperandsSame.refl s⟩
  | illegal code => exact ⟨fun _ _ => rfl, OperandsSame.refl s⟩
  | runs code hc => exact hc.stays_inside (s := s.start code)

/-- Settles O45: an element writes up to `op`, which stays within `OUT_CAP`, and an encoder emits up to `OUT_CAP`. -/
theorem engineStaysInside : Obligations.EngineStaysInside := by
  rintro s s0 t ⟨-, -, -, -, -, hc⟩ hm h
  rcases hm with hm | ⟨hb, hh, rfl⟩ | ⟨v, r, hr, rfl⟩
  · have hs0 := EngineMoves_eq hm
    have := (step_engine hm h).stays_inside (hs0 ▸ hm.1) (hs0 ▸ hc)
    rw [hs0] at this ⊢
    exact this
  · have e : step s0 = .next s0 := by simp [step, nextEvent, engineTurn, hh, hb]
    obtain rfl := Host.Outcome.next.inj (e.symm.trans h)
    exact ⟨fun _ _ => rfl, OperandsSame.refl s0⟩
  · exact (step_command hr h).stays_inside

/-! ### The invariant -/

/-- The cursors of a running command are within the input and the output, and within the current block and the declared
length; `CursorsInBounds` of a state that is known to run. -/
theorem CursorsInBounds.of_parts {t : State} (hlen : t.curLen = t.inLen) (hip : t.ip ≤ t.curLen)
    (hop : t.op ≤ t.outCap ∧ t.op ≤ t.maxOut)
    (hblock : t.phase = .block ∨ t.phase = .frameBlock → t.ip < t.endIdx ∧ t.endIdx ≤ t.curLen ∧ t.base ≤ t.op)
    (hsn : t.phase = .snTag → t.ip < t.curLen ∧ t.op < t.declared.toNat ∧ t.declared.toNat ≤ t.outCap ∧
      t.declared.toNat ≤ t.maxOut) : CursorsInBounds t :=
  fun _ => ⟨hlen, hip, hop.1, hop.2, hblock, hsn⟩

/-- What a body leaves within bounds whichever way it closes. -/
theorem Wrote.cursors {f : Format} {s u : State} (h : Wrote f s u) (hb : s.status = .busy) (hc : CursorsInBounds s)
    (hp : phaseFormat s.phase = some f) : u.curLen = u.inLen ∧ u.op ≤ u.outCap ∧ u.op ≤ u.maxOut := by
  obtain ⟨hlen, -⟩ := hc hb
  rw [h.curLen, h.hostSide.inLen, h.hostSide.outCap, h.hostSide.maxOut]
  exact ⟨hlen, h.room (hc.roomFor hb hp)⟩

/-- What is fetched is within the input. -/
theorem CursorsInBounds.fetchLimit_le {s : State} (hc : CursorsInBounds s) (hb : s.status = .busy) :
    fetchLimit s ≤ s.curLen := by
  obtain ⟨-, -, -, -, hblock, -⟩ := hc hb
  unfold fetchLimit
  split
  · next hp =>
    obtain ⟨-, hend, -⟩ := hblock hp
    exact hend
  · exact le_rfl

/-- An element that was fetched whole leaves `ip` within the input. -/
theorem Advanced.ip_le {i : Instr} {rest : List Byte} {s u : State} (h : Advanced i s u) (hb : s.status = .busy)
    (hc : CursorsInBounds s) (hd : (fetchBytes s).length = i.size + rest.length) : u.ip ≤ s.curLen := by
  obtain ⟨-, hip, -⟩ := hc hb
  have hlimit := hc.fetchLimit_le hb
  have hlen : (fetchBytes s).length = fetchLimit s - s.ip := Memory_slice_length _ _ _
  obtain ⟨hu, hcopy⟩ := h
  omega

theorem ElementBody.keeps_cursors {i : Instr} {rest : List Byte} {s t : State} (h : ElementBody i s t)
    (hb : s.status = .busy) (hc : CursorsInBounds s) (hp : phaseFormat s.phase = some i.format)
    (hd : (fetchBytes s).length = i.size + rest.length) : CursorsInBounds t := by
  cases h with
  | raises | completes => exact nofun
  | field _ hw _ hip hf =>
    obtain ⟨hlen, hop⟩ := hw.cursors hb hc hp
    obtain ⟨-, h1, h2, h3⟩ := isFieldPhase_ne hf
    exact .of_parts hlen (hw.curLen ▸ hip.ip_le hb hc hd) hop (fun h => absurd h (by simp [h1, h2])) fun h => absurd h h3
  | inBlock u hw _ hip hph hf hfits =>
    obtain ⟨hlen, hop⟩ := hw.cursors hb hc hp
    have hle : u.ip ≤ u.curLen := hw.curLen ▸ hip.ip_le hb hc hd
    obtain ⟨hend, hbase⟩ := hfits fun e => by
      obtain ⟨-, -, -, -, hblock, -⟩ := hc hb
      obtain ⟨-, h1, h2⟩ := hblock (phaseFormat_eq_lz4Tok (e ▸ hp))
      exact ⟨by omega, h2⟩
    have hsn : u.phase ≠ .snTag := by
      rcases hph with e | e <;> rw [e]
      · intro h
        rw [h] at hp
        exact hf (Option.some.inj hp).symm
      · simp
    obtain ⟨hlt, e⟩ | ⟨-, -, e⟩ | ⟨-, -, e⟩ := blockLoop_cases u
    all_goals rw [e]
    · exact .of_parts hlen hle hop (fun _ => ⟨hlt, by omega, hbase⟩) fun h => absurd h hsn
    · exact .of_parts hlen hle hop (by simp) (by simp)
    · exact nofun
  | inSnappy u hw _ hip hdecl =>
    obtain ⟨hlen, hop⟩ := hw.cursors hb hc hp
    have hle : u.ip ≤ u.curLen := hw.curLen ▸ hip.ip_le hb hc hd
    have hdecl := hdecl (hc.roomFor hb hp)
    rw [← hw.hostSide.outCap, ← hw.hostSide.maxOut] at hdecl
    obtain ⟨⟨hlt, hlt'⟩, e⟩ | ⟨-, -, e⟩ | ⟨-, -, e⟩ := snLoop_cases u
    all_goals rw [e]
    · exact .of_parts hlen hle hop (by simp) fun _ => ⟨hlt, hlt', hdecl⟩
    · exact nofun
    · exact nofun

theorem RegistersFit.outCap_le {s : State} (h : RegistersFit s) : s.outCap ≤ s.params.sizeMax := by
  obtain ⟨-, hcap, -⟩ := h
  exact hcap

theorem RegistersFit.of_same {s t : State} (hs : RegistersFit s) (h : HostSideSame s t)
    (hres : t.outLen = s.outLen ∧ t.result = s.result) : RegistersFit t := by
  simpa only [RegistersFit, h.params, h.inLen, h.outCap, h.maxOut, hres] using hs

/-- The end of a command leaves the results within the widths. -/
theorem RegistersFit.of_ended {s t : State} (hs : RegistersFit s) (h : OperandsSame s t)
    (hlen : t.outLen ≤ s.params.sizeMax) (hres : t.result ≤ s.params.sizeMax) : RegistersFit t := by
  obtain ⟨hp, hin, hcap, hmax, -⟩ := h
  obtain ⟨h1, h2, h3, -, -⟩ := hs
  simp only [RegistersFit, hp, hin, hcap, hmax]
  exact ⟨h1, h2, h3, hlen, hres⟩

/-- The parts of `Inv` that are not about the memories and the place. -/
abbrev Bounded (s : State) : Prop := s.params.Admissible ∧ BusyIsHandsOff s ∧ RegistersFit s ∧ CursorsInBounds s

theorem EngineTo.keeps_bounded {s t : State} (h : EngineTo s t) (hb : s.status = .busy) (hs : Bounded s) : Bounded t := by
  obtain ⟨hp, hoff, hfit, hc⟩ := hs
  have hfail {f k u} (hw : Wrote f s u) : Bounded (u.fail k) :=
    ⟨hw.hostSide.params ▸ hp, nofun, hfit.of_ended hw.hostSide.operands (Nat.zero_le _) (Nat.zero_le _), nofun⟩
  cases h with
  | stuck => exact ⟨hp, hoff, hfit, hc⟩
  | bad k u _ hw => exact hfail hw
  | element hph hd he =>
    have hcur := he.keeps_cursors hb hc hph hd
    cases he.toEnd with
    | goesOn _ hw =>
      exact ⟨hw.hostSide.params ▸ hp, fun _ => hw.hostSide.unread ▸ hoff hb, hfit.of_same hw.hostSide hw.results, hcur⟩
    | completes u hw =>
      obtain ⟨hroom, -⟩ := hw.room (hc.roomFor hb hph)
      exact ⟨hw.hostSide.params ▸ hp, nofun,
        hfit.of_ended hw.hostSide.operands (hroom.trans hfit.outCap_le) (Nat.zero_le _), nofun⟩
    | raises k u hw => exact hfail hw

theorem CommandEnd.keeps_bounded {code : BitVec 8} {s t : State} (h : CommandEnd (s.start code) t)
    (hp : s.params.Admissible) (hfit : RegistersFit s) : Bounded t := by
  cases h with
  | completes slot bytes u res ha hres =>
    exact ⟨ha.hostSide.params ▸ hp, nofun, hfit.of_ended ha.hostSide.operands (ha.fits.trans hfit.outCap_le) (hres hp), nofun⟩
  | raises k u ho =>
    exact ⟨ho.hostSide.params ▸ hp, nofun, hfit.of_ended ho.hostSide.operands (Nat.zero_le _) (Nat.zero_le _), nofun⟩
  | atBlock hlt =>
    refine ⟨hp, fun _ => rfl, hfit, .of_parts rfl (Nat.zero_le _) ⟨Nat.zero_le _, Nat.zero_le _⟩ (fun _ => ?_) (by simp)⟩
    exact ⟨hlt, le_rfl, le_rfl⟩
  | atField p hph =>
    refine ⟨hp, fun _ => rfl, hfit, .of_parts rfl (Nat.zero_le _) ⟨Nat.zero_le _, Nat.zero_le _⟩ ?_ ?_⟩
    all_goals rcases hph with rfl | rfl <;> simp

theorem CommandTo.keeps_bounded {s t : State} (h : CommandTo s t) (hs : Bounded s) : Bounded t := by
  obtain ⟨hp, hoff, hfit, hc⟩ := hs
  cases h with
  | ignored => exact ⟨hp, hoff, hfit, hc⟩
  | illegal code =>
    exact ⟨hp, nofun, hfit.of_ended (OperandsSame.refl s) (Nat.zero_le _) (Nat.zero_le _), nofun⟩
  | runs code hend => exact hend.keeps_bounded hp hfit

theorem sizeValue_le (s : State) (v : Nat) : sizeValue s v ≤ s.params.sizeMax :=
  Nat.le_sub_one_of_lt (Nat.mod_lt _ (Nat.two_pow_pos _))

theorem writeArg_keeps_bounded (r : Reg) (v : Nat) {s : State} (hoff : ¬ HandsOff s) (hs : Bounded s) :
    Bounded (writeArg r v s) := by
  obtain ⟨hp, ho, hfit, hc⟩ := hs
  obtain ⟨h1, h2, h3, h4, h5⟩ := hfit
  have hidle : s.status ≠ .busy := fun h => hoff (.inl h)
  have hv := sizeValue_le s v
  cases r with
  | inLen => exact ⟨hp, ho, ⟨hv, h2, h3, h4, h5⟩, fun h => absurd h hidle⟩
  | outCap => exact ⟨hp, ho, ⟨h1, hv, h3, h4, h5⟩, fun h => absurd h hidle⟩
  | maxOut => exact ⟨hp, ho, ⟨h1, h2, hv, h4, h5⟩, fun h => absurd h hidle⟩
  | cmd | status | err | opts | contentSize | outLen | result => exact ⟨hp, ho, ⟨h1, h2, h3, h4, h5⟩, hc⟩

/-- A reset leaves every register at its reset value. -/
theorem hostReset_bounded {s : State} (hp : s.params.Admissible) : Bounded (hostReset s) :=
  ⟨hp, nofun, ⟨Nat.zero_le _, Nat.zero_le _, le_rfl, Nat.zero_le _, Nat.zero_le _⟩, nofun⟩

theorem hostRead_keeps_bounded (r : Reg) {s : State} (hs : Bounded s) : Bounded (hostRead r s) := by
  obtain ⟨hp, ho, hfit, hc⟩ := hs
  refine ⟨hp, fun hb => ?_, hfit, hc⟩
  rw [hostRead_unread, if_neg fun h => h.2 hb]
  exact ho hb

theorem HostTo.keeps_bounded {s t : State} (h : HostTo s t) (hs : Bounded s) : Bounded t := by
  cases h with
  | arg r v hoff => exact writeArg_keeps_bounded r v hoff hs
  | read r => exact hostRead_keeps_bounded r hs
  | reset => exact hostReset_bounded hs.1
  | abandon => exact hostReset_bounded hs.1
  | nothing | writeIn | writeOut | peek | provide => exact hs

theorem StepTo.keeps_bounded {s t : State} (h : StepTo s t) (hs : Bounded s) : Bounded t := by
  cases h with
  | engine hm he =>
    have hs0 := EngineMoves_eq hm
    exact he.keeps_bounded (hs0 ▸ hm.1) (hs0 ▸ hs)
  | waits => exact hs
  | command v r hr hc => exact hc.keeps_bounded hs
  | host a r hr hh => exact hh.keeps_bounded hs

/-- Settles O49: the memories and the place are kept by every step alone, the bounds by the room tests, by the length of
what was fetched and by the width of the registers. -/
theorem stepKeepsInvariant : Obligations.StepKeepsInvariant := by
  rintro s t ⟨hp, hmem, hphase, hoff, hfit, hc⟩ h
  obtain ⟨hp', hoff', hfit', hc'⟩ := (step_to h).keeps_bounded ⟨hp, hoff, hfit, hc⟩
  exact ⟨hp', stepKeepsMemoriesCanonical s t hmem h, stepKeepsPhase s t hphase h, hoff', hfit', hc'⟩

end Sys2Proof.Machine
end

section
/-! SUPPORT. The host's actions, each with its exact next state, and the instruction a step runs. -/

namespace Sys2Proof.Machine

/-! ### The host's action, once it is the oldest one -/

theorem step_of_hostAct {s : State} {a : HostAction} {r : List HostAction} {o : Host.Outcome State Fault Refusal}
    (hr : s.host = a :: r) (ht : a ≠ .tick) (hp : a ≠ .poll) (h : hostAct a { s with host := r } = .out o) :
    step s = o := by
  refine step_of_out (.trans ?_ h)
  unfold nextEvent
  split <;> simp_all

theorem step_writeReg {s : State} {q : Reg} {v : Nat} {r : List HostAction} (hr : s.host = .writeReg q v :: r)
    (hq : q ≠ .cmd) (hoff : ¬ HandsOff s) : step s = .next (writeArg q v { s with host := r }) := by
  refine step_of_hostAct hr (by simp) (by simp) ((if_neg hq).trans ?_)
  exact congrArg Event.out (if_neg fun h => hoff h.1)

theorem hostAccess_refused {size a : Nat} {s s' : State} (hoff : HandsOff s) :
    hostAccess size a s s' = .refused .hostWhileBusy :=
  if_pos hoff

theorem hostAccess_done {size a : Nat} {s s' : State} (hoff : ¬ HandsOff s) (ha : a < size) :
    hostAccess size a s s' = .next s' :=
  (if_neg hoff).trans (if_pos ha)

theorem hostAccess_fault {size a : Nat} {s s' : State} (hoff : ¬ HandsOff s) (ha : size ≤ a) :
    hostAccess size a s s' = .fault .noSuchByte :=
  (if_neg hoff).trans (if_neg (Nat.not_lt.mpr ha))

/-! ### The statements -/

/-- Settles O14: outside the handshake the write is `writeArg`'s. -/
theorem argumentWrites : Obligations.ArgumentWrites := by
  intro s v r hoff
  refine ⟨?_, ?_, ?_, ?_, ?_⟩
  all_goals exact fun hr => step_writeReg hr (by simp) hoff

/-- Settles O15: the value is the register's code, and the read is `hostRead`'s. -/
theorem registerReads : Obligations.RegisterReads := by
  intro s q r hr
  rw [step_of_hostAct hr (by simp) (by simp) rfl, hostRead]
  congr 2
  cases q
  case status =>
    cases s.status <;> rfl
  case err =>
    rcases s.err with _ | k
    · rfl
    · cases k <;> rfl
  all_goals rfl

/-- Settles O16: outside the handshake an access is done exactly where its byte exists, inside it is refused. -/
theorem hostBufferAccess : Obligations.HostBufferAccess := by
  refine ⟨fun s ranges r hr => ?_, fun s a b r => ?_⟩
  · rw [step_of_hostAct hr (by simp) (by simp) rfl]
    exact ⟨fun hoff => if_neg hoff, fun hoff => if_pos hoff⟩
  · have hwi (hr : s.host = .writeIn a b :: r) := step_of_hostAct hr (by simp) (by simp) rfl
    have hri (hr : s.host = .readIn a :: r) := step_of_hostAct hr (by simp) (by simp) rfl
    have hwo (hr : s.host = .writeOut a b :: r) := step_of_hostAct hr (by simp) (by simp) rfl
    have hro (hr : s.host = .readOut a :: r) := step_of_hostAct hr (by simp) (by simp) rfl
    refine ⟨fun hoff ha => ⟨fun hr => (hwi hr).trans (hostAccess_done hoff ha),
        fun hr => (hri hr).trans (hostAccess_done hoff ha)⟩,
      fun hoff ha => ⟨fun hr => (hwo hr).trans (hostAccess_done hoff ha),
        fun hr => (hro hr).trans (hostAccess_done hoff ha)⟩,
      fun hoff ha hr => ?_, fun hoff ha hr => ?_, fun hoff hr => ?_⟩
    · rcases hr with hr | hr
      · exact (hwi hr).trans (hostAccess_fault hoff ha)
      · exact (hri hr).trans (hostAccess_fault hoff ha)
    · rcases hr with hr | hr
      · exact (hwo hr).trans (hostAccess_fault hoff ha)
      · exact (hro hr).trans (hostAccess_fault hoff ha)
    · rcases hr with hr | hr | hr | hr
      · exact (hwi hr).trans (hostAccess_refused hoff)
      · exact (hri hr).trans (hostAccess_refused hoff)
      · exact (hwo hr).trans (hostAccess_refused hoff)
      · exact (hro hr).trans (hostAccess_refused hoff)

/-- Settles O6: the event of the step is the instruction that the bytes at `ip`, or the value written to `CMD`, decode
to. -/
theorem stepRunsDecodedInstruction : Obligations.StepRunsDecodedInstruction := by
  refine ⟨fun s f i rest hb hp hd => ?_, fun s v i r hb hr hd => ?_⟩
  · have hrun {s0} (hm : EngineMoves s s0) : step s = exec i s0 := by
      have hs0 := EngineMoves_eq hm
      refine step_of_run ((nextEvent_of_EngineMoves hm).trans ?_)
      rw [hs0]
      simp only [engineEvent, hp, show fetchBytes { s with host := s0.host } = fetchBytes s from rfl, hd]
    exact ⟨fun hr => hrun ⟨hb, .inl ⟨hr, rfl⟩⟩, fun r hr => hrun ⟨hb, .inr (.inl ⟨r, hr, rfl⟩)⟩,
      fun r hr => hrun ⟨hb, .inr (.inr ⟨r, hr, rfl⟩)⟩⟩
  · have hi : decodeCommand (BitVec.ofNat 8 v) = some i := by
      dsimp only [decode] at hd
      split at hd
      · cases hd
      · next i' e => cases hd; exact e
    refine step_of_run ?_
    simp only [nextEvent, hr, hostAct, if_true, hostCommand, if_neg hb, hi]

end Sys2Proof.Machine
end

section
/-! SUPPORT. Two runs of a decompress command that agree in its place, its limits, its input and its output so far stay in
agreement, or end alike (10_state.md rule R29). -/

namespace Sys2Proof.Machine

/-! ### Agreement -/

/-- `DecompressAgree` of two states whose `OUT` is in canonical form, field by field. -/
structure Agree (s u : State) : Prop where
  busy : s.status = .busy
  busy' : u.status = .busy
  phase : u.phase = s.phase
  ip : u.ip = s.ip
  op : u.op = s.op
  curLen : u.curLen = s.curLen
  endIdx : u.endIdx = s.endIdx
  base : u.base = s.base
  flg : u.flg = s.flg
  hdrLen : u.hdrLen = s.hdrLen
  declared : u.declared = s.declared
  outCap : u.outCap = s.outCap
  maxOut : u.maxOut = s.maxOut
  inMem : MemAgree s.curLen s.inMem u.inMem
  outMem : MemAgree s.op s.outMem u.outMem
  wf : Memory.wf s.outMem
  wf' : Memory.wf u.outMem

theorem Agree.of_decompressAgree {s u : State} (h : DecompressAgree s u) (hs : Memory.wf s.outMem)
    (hu : Memory.wf u.outMem) : Agree s u := by
  obtain ⟨h1, h2, h3, h4, h5, h6, h7, h8, h9, h10, h11, h12, h13, h14, h15⟩ := h
  exact ⟨h1, h2, h3, h4, h5, h6, h7, h8, h9, h10, h11, h12, h13, h14, h15, hs, hu⟩

/-- What two steps of the command may differ in: nothing that the command depends on while it runs, and nothing of its
outcome once it is over. -/
abbrev OutcomeAgree (s u : State) : Prop :=
  (s.status = .busy → DecompressAgree s u) ∧
  (s.status ≠ .busy → u.status = s.status ∧ u.err = s.err ∧ u.outLen = s.outLen ∧ u.result = s.result ∧
    ∀ a, a < s.outLen → Memory.read u.outMem a = Memory.read s.outMem a)

theorem Agree.outcome {s u : State} (h : Agree s u) : OutcomeAgree s u :=
  ⟨fun _ => ⟨h.busy, h.busy', h.phase, h.ip, h.op, h.curLen, h.endIdx, h.base, h.flg, h.hdrLen, h.declared, h.outCap,
    h.maxOut, h.inMem, h.outMem⟩, fun hb => absurd h.busy hb⟩

theorem OutcomeAgree.fail (k : ErrKind) (s u : State) : OutcomeAgree (s.fail k) (u.fail k) :=
  ⟨nofun, fun _ => ⟨rfl, rfl, rfl, rfl, nofun⟩⟩

theorem Agree.complete {s u : State} (h : Agree s u) (n : Nat) : OutcomeAgree (s.complete n) (u.complete n) :=
  ⟨nofun, fun _ => ⟨rfl, rfl, h.op, rfl, h.outMem⟩⟩

/-- Two runs that go on in states related by `P`, or raise the same kind. -/
def RunAgree (P : State → State → Prop) : Run → Run → Prop
  | .ok s, .ok u => P s u
  | .raise k _, .raise k' _ => k = k'
  | _, _ => False

theorem RunAgree.raise {P : State → State → Prop} (k : ErrKind) (s u : State) : RunAgree P (.raise k s) (.raise k u) := rfl

theorem RunAgree.andThen {P Q : State → State → Prop} {r r' : Run} {f g : State → Run} (h : RunAgree P r r')
    (hf : ∀ s u, P s u → RunAgree Q (f s) (g u)) : RunAgree Q (r.andThen f) (r'.andThen g) := by
  cases r <;> cases r'
  case ok.ok s u => exact hf s u h
  case raise.raise => exact h
  all_goals exact h.elim

theorem RunAgree.settle {r r' : Run} (h : RunAgree OutcomeAgree r r') : OutcomeAgree r.settle r'.settle := by
  cases r <;> cases r'
  case ok.ok => exact h
  case raise.raise k s k' u =>
    obtain rfl : k = k' := h
    exact .fail k s u
  all_goals exact h.elim

/-- Two tests on the same condition. -/
theorem rel_ite {α : Type} {R : α → α → Prop} {c c' : Prop} [Decidable c] [Decidable c'] {x y x' y' : α} (hc : c' ↔ c)
    (hx : c → R x x') (hy : ¬ c → R y y') : R (if c then x else y) (if c' then x' else y') := by
  by_cases h : c
  · rw [if_pos h, if_pos (hc.mpr h)]
    exact hx h
  · rw [if_neg h, if_neg (hc.not.mpr h)]
    exact hy h

/-! ### The memories -/

theorem MemAgree.writeBytes {m m' : Memory} {op : Nat} (h : MemAgree op m m') (hm : Memory.wf m) (hm' : Memory.wf m')
    (bytes : List Byte) : MemAgree (op + bytes.length) (Memory.writeBytes m op bytes) (Memory.writeBytes m' op bytes) := by
  intro a ha
  rcases Nat.lt_or_ge a op with hlt | hge
  · rw [Memory_read_writeBytes_outside _ _ (.inl hlt), Memory_read_writeBytes_outside _ _ (.inl hlt), h a hlt]
  · obtain ⟨k, rfl⟩ := Nat.exists_eq_add_of_le hge
    rw [Memory_read_writeBytes hm _ _ (by omega), Memory_read_writeBytes hm' _ _ (by omega)]

theorem MemAgree.matchMem {m m' : Memory} {offset op : Nat} (hoff : 1 ≤ offset) (hop : offset ≤ op) (n : Nat)
    (h : MemAgree op m m') (hm : Memory.wf m) (hm' : Memory.wf m') :
    MemAgree (op + n) (matchMem offset n m op) (matchMem offset n m' op) := by
  induction n generalizing m m' op with
  | zero => exact h
  | succ n ih =>
    have hb : Memory.read m' (op - offset) = Memory.read m (op - offset) := h _ (by omega)
    have := ih (op := op + 1) (by omega) (h.writeBytes hm hm' [Memory.read m (op - offset)]) (Memory_write_wf hm _ _)
      (Memory_write_wf hm' _ _)
    rw [Machine.matchMem, Machine.matchMem, hb]
    rwa [show op + 1 + n = op + (n + 1) by omega] at this

theorem Agree.putBytes {s u : State} (h : Agree s u) (bytes : List Byte) (k : Nat) :
    Agree { s with outMem := Memory.writeBytes s.outMem s.op bytes, op := s.op + bytes.length, ip := s.ip + k }
      { u with outMem := Memory.writeBytes u.outMem u.op bytes, op := u.op + bytes.length, ip := u.ip + k } where
  __ := h
  ip := congrArg (· + k) h.ip
  op := congrArg (· + _) h.op
  outMem := h.op ▸ h.outMem.writeBytes h.wf h.wf' bytes
  wf := Memory_writeBytes_wf h.wf _ _
  wf' := Memory_writeBytes_wf h.wf' _ _

theorem Agree.matchCopy {s u : State} (h : Agree s u) {offset : Nat} (hoff : 1 ≤ offset) (hop : offset ≤ s.op) (n : Nat) :
    Agree (matchCopy offset n s) (matchCopy offset n u) := by
  rw [matchCopy_eq, matchCopy_eq]
  exact { h with
    op := congrArg (· + n) h.op
    outMem := h.op ▸ h.outMem.matchMem hoff hop n h.wf h.wf'
    wf := matchMem_wf h.wf _ _ _
    wf' := matchMem_wf h.wf' _ _ _ }

/-! ### The shared operations -/

theorem checkRoom_agree {P : State → State → Prop} (n : Nat) {s u : State} (h : Agree s u) (hP : P s u) :
    RunAgree P (checkRoom n s) (checkRoom n u) :=
  rel_ite (by rw [h.op, h.maxOut]) (fun _ => rfl) fun _ => rel_ite (by rw [h.op, h.outCap]) (fun _ => rfl) fun _ => hP

theorem lz4Literals_agree (token : Byte) (lits : List Byte) {s u : State} (h : Agree s u) :
    RunAgree Agree (lz4Literals token lits s) (lz4Literals token lits u) := by
  have h1 : Agree (atLiterals token lits s) (atLiterals token lits u) :=
    { h with ip := congrArg (· + 1 + lz4FieldExtSize lits.length) h.ip }
  rw [lz4Literals_eq, lz4Literals_eq]
  exact (checkRoom_agree _ h1 h1).andThen fun s u h => h.putBytes lits _

/-- After a sequence's offset the two agree in it too, and it is within the output. -/
abbrev AgreeAtMatch (s u : State) : Prop :=
  Agree s u ∧ u.offset = s.offset ∧ 1 ≤ s.offset.toNat ∧ s.offset.toNat ≤ s.op

theorem lz4Offset_agree (offset : BitVec 16) {s u : State} (h : Agree s u) :
    RunAgree AgreeAtMatch (lz4Offset offset s) (lz4Offset offset u) := by
  refine rel_ite (by simp only [h.op, h.base]) (fun _ => rfl) fun hoff => ?_
  have h0 : offset.toNat ≠ 0 := fun h0 => hoff (.inl (BitVec.eq_of_toNat_eq h0))
  have hle : ¬ s.op - s.base < offset.toNat := fun hlt => hoff (.inr hlt)
  have h16 := offset.isLt
  have hval : (BitVec.ofNat 32 offset.toNat).toNat = offset.toNat := by
    rw [BitVec.toNat_ofNat]
    omega
  refine ⟨{ h with ip := congrArg (· + 2) h.ip }, rfl, ?_⟩
  simp only [hval]
  omega

theorem lz4Match_agree (mlen : Nat) {s u : State} (h : AgreeAtMatch s u) :
    RunAgree Agree (lz4Match mlen s) (lz4Match mlen u) := by
  obtain ⟨h, hoffset, h1, hop⟩ := h
  have hm : Agree (atMatch mlen s) (atMatch mlen u) :=
    { h with ip := congrArg (· + lz4FieldExtSize (mlen - 4)) h.ip }
  refine (checkRoom_agree (P := AgreeAtMatch) mlen hm ⟨hm, hoffset, h1, hop⟩).andThen fun s u ⟨h, hoffset, h1, hop⟩ => ?_
  rw [hoffset]
  exact h.matchCopy h1 hop mlen

theorem blockLoop_agree {s u : State} (h : Agree s u) :
    RunAgree OutcomeAgree (.ok (blockLoop s)) (.ok (blockLoop u)) :=
  rel_ite (R := OutcomeAgree) (by rw [h.ip, h.endIdx]) (fun _ => h.outcome) fun _ =>
    rel_ite (by rw [h.phase]) (fun _ => Agree.outcome { h with phase := rfl }) fun _ => h.complete 0

theorem snLoop_agree {s u : State} (h : Agree s u) : RunAgree OutcomeAgree (snLoop s) (snLoop u) :=
  rel_ite (R := RunAgree OutcomeAgree) (by rw [h.ip, h.curLen, h.op, h.declared])
    (fun _ => Agree.outcome { h with phase := rfl }) fun _ =>
      rel_ite (by rw [h.op, h.declared]) (fun _ => h.complete 0) fun _ => rfl

/-! ### The elements -/

theorem execLz4Seq_agree (lits : List Byte) (offset : BitVec 16) (mlen : Nat) {s u : State} (h : Agree s u) :
    ∃ s' u', execLz4Seq lits offset mlen s = .next s' ∧ execLz4Seq lits offset mlen u = .next u' ∧ OutcomeAgree s' u' :=
  ⟨_, _, rfl, rfl, ((lz4Literals_agree _ lits h).andThen fun _ _ h => (lz4Offset_agree offset h).andThen fun _ _ h =>
    (lz4Match_agree mlen h).andThen fun _ _ h => blockLoop_agree h).settle⟩

theorem execLz4Last_agree (ml : BitVec 4) (lits : List Byte) {s u : State} (h : Agree s u) :
    ∃ s' u', execLz4Last ml lits s = .next s' ∧ execLz4Last ml lits u = .next u' ∧ OutcomeAgree s' u' :=
  ⟨_, _, rfl, rfl, ((lz4Literals_agree _ lits h).andThen fun _ _ h => blockLoop_agree h).settle⟩

theorem execSnLen_agree (value : BitVec 32) (nbytes : Nat) {s u : State} (h : Agree s u) :
    ∃ s' u', execSnLen value nbytes s = .next s' ∧ execSnLen value nbytes u = .next u' ∧ OutcomeAgree s' u' := by
  refine ⟨_, _, rfl, rfl, RunAgree.settle ?_⟩
  refine rel_ite (by simp only [h.maxOut]) (fun _ => rfl) fun _ =>
    rel_ite (by simp only [h.outCap]) (fun _ => rfl) fun _ => snLoop_agree ?_
  exact { h with ip := congrArg (· + nbytes) h.ip, op := rfl, declared := rfl, outMem := nofun }

theorem snLiteral_agree (tag : Byte) (lenBytes : Nat) (lits : List Byte) {s u : State} (h : Agree s u) :
    OutcomeAgree (snLiteral tag lenBytes lits s) (snLiteral tag lenBytes lits u) := by
  have h1 : Agree { s with tag := tag, len := lits.length, ip := s.ip + 1 + lenBytes }
      { u with tag := tag, len := lits.length, ip := u.ip + 1 + lenBytes } :=
    { h with ip := congrArg (· + 1 + lenBytes) h.ip }
  refine RunAgree.settle (rel_ite (by simp only [h.op, h.declared]) (fun _ => rfl) fun _ => ?_)
  rw [literalCopy_eq, literalCopy_eq]
  exact snLoop_agree (h1.putBytes lits _)

theorem snCopyCommon_agree (tag : Byte) (size offset len : Nat) {s u : State} (h : Agree s u) :
    OutcomeAgree (snCopyCommon tag size offset len s) (snCopyCommon tag size offset len u) := by
  have h1 : Agree { s with tag := tag, len := len, offset := BitVec.ofNat 32 offset, ip := s.ip + size }
      { u with tag := tag, len := len, offset := BitVec.ofNat 32 offset, ip := u.ip + size } :=
    { h with ip := congrArg (· + size) h.ip }
  refine RunAgree.settle (rel_ite (by simp only [h.op]) (fun _ => rfl) fun hoff =>
    rel_ite (by simp only [h.op, h.declared]) (fun _ => rfl) fun _ => ?_)
  exact snLoop_agree (h1.matchCopy (Nat.pos_of_ne_zero fun h0 => hoff (.inl h0))
    (Nat.le_of_not_lt fun hlt => hoff (.inr hlt)) len)

/-- After a block size word the two agree, and the `n` bytes that follow are within the input. -/
abbrev AgreeAtBytes (n : Nat) (s u : State) : Prop := Agree s u ∧ n ≤ s.curLen - s.ip

theorem lz4fBlockWord_agree (stored : Bool) (blen : BitVec 31) {s u : State} (h : Agree s u) :
    RunAgree (AgreeAtBytes blen.toNat) (lz4fBlockWord stored blen s) (lz4fBlockWord stored blen u) :=
  rel_ite (R := RunAgree _) (by simp only [h.curLen, h.ip]) (fun _ => rfl) fun hlen =>
    ⟨{ h with ip := congrArg (· + 4) h.ip }, Nat.le_of_not_lt hlen⟩

theorem execLz4fEnd_agree {s u : State} (h : Agree s u) :
    ∃ s' u', execLz4fEnd s = .next s' ∧ execLz4fEnd u = .next u' ∧ OutcomeAgree s' u' := by
  have h1 : Agree { s with bs := 0, ip := s.ip + 4 } { u with bs := 0, ip := u.ip + 4 } :=
    { h with ip := congrArg (· + 4) h.ip }
  exact ⟨_, _, rfl, rfl, rel_ite (R := OutcomeAgree) (by simp only [flgCChecksum, h.flg])
    (fun _ => Agree.outcome { h1 with phase := rfl }) fun _ => h1.complete 0⟩

theorem execLz4fBlock_agree (blen : BitVec 31) {s u : State} (h : Agree s u) :
    ∃ s' u', execLz4fBlock blen s = .next s' ∧ execLz4fBlock blen u = .next u' ∧ OutcomeAgree s' u' := by
  refine ⟨_, _, rfl, rfl, ((lz4fBlockWord_agree false blen h).andThen fun s u ⟨h, _⟩ => blockLoop_agree ?_).settle⟩
  exact { h with
    base := if_congr (by rw [flgBIndep, flgBIndep, h.flg]) h.op rfl
    endIdx := congrArg (· + blen.toNat) h.ip
    phase := rfl }

/-- A stored block's bytes are the same in both, being within the input. -/
theorem execLz4fStored_agree (blen : BitVec 31) {s u : State} (h : Agree s u) :
    ∃ s' u', execLz4fStored blen s = .next s' ∧ execLz4fStored blen u = .next u' ∧ OutcomeAgree s' u' := by
  refine ⟨_, _, rfl, rfl, RunAgree.settle ((lz4fBlockWord_agree true blen h).andThen fun s u ⟨h, hlen⟩ =>
    (checkRoom_agree (P := AgreeAtBytes blen.toNat) blen.toNat h ⟨h, hlen⟩).andThen fun s u ⟨h, hlen⟩ => ?_)⟩
  have hbytes : inBytes u u.ip blen.toNat = inBytes s s.ip blen.toNat := by
    rw [h.ip]
    exact h.inMem.slice_of_le_sub hlen
  rw [hbytes, literalCopy_eq, literalCopy_eq]
  exact Agree.outcome { h.putBytes (inBytes s s.ip blen.toNat) _ with phase := rfl }

theorem execLz4fCchk_agree (checksum : BitVec 32) {s u : State} (h : Agree s u) :
    ∃ s' u', execLz4fCchk checksum s = .next s' ∧ execLz4fCchk checksum u = .next u' ∧ OutcomeAgree s' u' := by
  have hbytes : outBytes u 0 u.op = outBytes s 0 s.op := by
    rw [h.op]
    exact h.outMem.slice (Nat.zero_add _).le
  have h1 : Agree { s with ip := s.ip + 4 } { u with ip := u.ip + 4 } := { h with ip := congrArg (· + 4) h.ip }
  exact ⟨_, _, rfl, rfl, RunAgree.settle (rel_ite (by rw [hbytes]) (fun _ => h1.complete 0) fun _ => rfl)⟩

/-- A header field whose value is tested once it is read. -/
theorem OutcomeAgree.of_test {s u : State} {c c' : Prop} [Decidable c] [Decidable c'] (k : ErrKind) (hc : c' ↔ c)
    (h : Agree s u) : OutcomeAgree (if c then Run.raise k s else .ok s).settle (if c' then Run.raise k u else .ok u).settle :=
  RunAgree.settle (rel_ite hc (fun _ => rfl) fun _ => h.outcome)

theorem exec_agree {i : Instr} {s u : State} (hi : IsElement i) (h : Agree s u) :
    ∃ s' u', exec i s = .next s' ∧ exec i u = .next u' ∧ OutcomeAgree s' u' := by
  cases i
  case lz4Seq lits offset mlen => exact execLz4Seq_agree lits offset mlen h
  case lz4Last ml lits => exact execLz4Last_agree ml lits h
  case snLen value nbytes => exact execSnLen_agree value nbytes h
  case snLit lits => exact ⟨_, _, rfl, rfl, snLiteral_agree _ _ _ h⟩
  case snLit1 lits => exact ⟨_, _, rfl, rfl, snLiteral_agree _ _ _ h⟩
  case snLit2 lits => exact ⟨_, _, rfl, rfl, snLiteral_agree _ _ _ h⟩
  case snLit3 lits => exact ⟨_, _, rfl, rfl, snLiteral_agree _ _ _ h⟩
  case snLit4 lits => exact ⟨_, _, rfl, rfl, snLiteral_agree _ _ _ h⟩
  case snCopy1 m o => exact ⟨_, _, rfl, rfl, snCopyCommon_agree _ _ _ _ h⟩
  case snCopy2 m o => exact ⟨_, _, rfl, rfl, snCopyCommon_agree _ _ _ _ h⟩
  case snCopy4 m o => exact ⟨_, _, rfl, rfl, snCopyCommon_agree _ _ _ _ h⟩
  case lz4fMagic =>
    exact ⟨_, _, rfl, rfl, .of_test _ (by simp only [h.curLen]) { h with ip := congrArg (· + 4) h.ip, phase := rfl }⟩
  case lz4fFlg b c k =>
    exact ⟨_, _, rfl, rfl, Agree.outcome
      { h with flg := rfl, hdrLen := rfl, ip := congrArg (· + 1) h.ip, phase := rfl }⟩
  case lz4fBd c =>
    refine ⟨_, _, rfl, rfl, .of_test _ (by simp only [h.curLen, h.hdrLen]) ?_⟩
    exact { h with ip := congrArg (· + 1) h.ip, phase := if_congr (by rw [flgCSize, flgCSize, h.flg]) rfl rfl }
  case lz4fCsize size =>
    exact ⟨_, _, rfl, rfl, .of_test _ (by simp only [h.maxOut])
      { h with declared := rfl, ip := congrArg (· + 8) h.ip, phase := rfl }⟩
  case lz4fHc hc =>
    exact ⟨_, _, rfl, rfl, Agree.outcome { h with ip := congrArg (· + 1) h.ip, op := rfl, phase := rfl, outMem := nofun }⟩
  case lz4fEnd => exact execLz4fEnd_agree h
  case lz4fBlock blen => exact execLz4fBlock_agree blen h
  case lz4fStored blen => exact execLz4fStored_agree blen h
  case lz4fCchk checksum => exact execLz4fCchk_agree checksum h
  all_goals exact absurd rfl hi

theorem badElement_agree (e : DecodeError) {s u : State} (h : Agree s u) :
    OutcomeAgree (badElement e s) (badElement e u) := by
  cases e
  case cut =>
    simp only [badElement, h.phase]
    exact .fail _ s u
  case cutOffset token lits =>
    exact RunAgree.settle ((lz4Literals_agree token lits h).andThen fun s u _ => .raise _ s u)
  case cutMatchExt token lits offset =>
    exact RunAgree.settle ((lz4Literals_agree token lits h).andThen fun _ _ h =>
      (lz4Offset_agree offset h).andThen fun s u _ => .raise _ s u)
  all_goals exact .fail _ s u

/-- The bytes an object is fetched from are within the input. -/
theorem Agree.fetchBytes {s u : State} (h : Agree s u) (hc : CursorsInBounds s) : fetchBytes u = fetchBytes s := by
  have hlimit := hc.fetchLimit_le h.busy
  have e : fetchLimit u = fetchLimit s := by simp only [fetchLimit, h.phase, h.endIdx, h.curLen]
  rw [Machine.fetchBytes, Machine.fetchBytes, e, h.ip]
  exact h.inMem.slice_sub hlimit

/-- Settles O53: what is fetched is the same, and each element keeps the agreement or ends both commands alike. -/
theorem decompressDependsOnOperands : Obligations.DecompressDependsOnOperands := by
  rintro s u s' ⟨-, ⟨-, hws, -⟩, -, -, -, hc⟩ hwu hhs hhu hagree hstep
  have h := Agree.of_decompressAgree hagree hws hwu
  have hs := nextEvent_of_EngineMoves (s := s) ⟨h.busy, .inl ⟨hhs, rfl⟩⟩
  have hu := nextEvent_of_EngineMoves (s := u) ⟨h.busy', .inl ⟨hhu, rfl⟩⟩
  obtain ⟨hp, e⟩ | ⟨f, i, rest, hp, hd, e⟩ | ⟨f, e', hp, hd, e⟩ := engineEvent_cases s
  · have eu : engineEvent u = .out (.next u) := by simp only [engineEvent, h.phase, hp]
    obtain rfl := Host.Outcome.next.inj ((step_of_out (hs.trans e)).symm.trans hstep)
    exact ⟨u, step_of_out (hu.trans eu), h.outcome⟩
  · have eu : engineEvent u = .run i u := by simp only [engineEvent, h.phase, hp, h.fetchBytes hc, hd]
    obtain ⟨rfl, -⟩ := decode_took hd
    obtain ⟨s1, u1, es, eu1, hout⟩ := exec_agree (phaseFormat_isElement hp) h
    obtain rfl := Host.Outcome.next.inj ((es.symm.trans (step_of_run (hs.trans e)).symm).trans hstep)
    exact ⟨u1, (step_of_run (hu.trans eu)).trans eu1, hout⟩
  · have eu : engineEvent u = .out (.next (badElement e' u)) := by
      simp only [engineEvent, h.phase, hp, h.fetchBytes hc, hd]
    obtain rfl := Host.Outcome.next.inj ((step_of_out (hs.trans e)).symm.trans hstep)
    exact ⟨_, step_of_out (hu.trans eu), badElement_agree e' h⟩

end Sys2Proof.Machine
end

section
/-! SUPPORT. When a command may be launched, said once for all ten, and what `OUT_CAP` decides of a compress command. -/

namespace Sys2Proof.Machine

/-! ### The launch of a command -/

/-- Every command is one launch, its test by its instruction. -/
theorem exec_eq_launch {i : Instr} (hi : i.format = .cmd8) :
    ∃ code body, ∀ s, exec i s = launch code (commandRefusal i) body s := by
  cases i
  case lz4bCompress => exact ⟨_, _, execLz4bCompress.eq_def⟩
  case lz4bDecompress => exact ⟨_, _, execLz4bDecompress.eq_def⟩
  case lz4fCompress => exact ⟨_, _, execLz4fCompress.eq_def⟩
  case lz4fDecompress => exact ⟨_, _, execLz4fDecompress.eq_def⟩
  case snCompress => exact ⟨_, _, execSnCompress.eq_def⟩
  case snDecompress => exact ⟨_, _, execSnDecompress.eq_def⟩
  case lz4bMax => exact ⟨_, _, execLz4bMax.eq_def⟩
  case lz4fMax => exact ⟨_, _, execLz4fMax.eq_def⟩
  case snMax => exact ⟨_, _, execSnMax.eq_def⟩
  case snSize => exact ⟨_, _, execSnSize.eq_def⟩
  all_goals cases hi

section
variable {i : Instr} {s : State} (hi : i.format = .cmd8)
include hi

theorem exec_of_busy (hb : s.status = .busy) : exec i s = .next s := by
  obtain ⟨code, body, e⟩ := exec_eq_launch hi
  rw [e]
  exact if_pos hb

/-- Where no command runs, a launch is refused, or goes through, as its test says. -/
theorem exec_launch_cases (hb : s.status ≠ .busy) :
    (commandRefusal i s ≠ none ∧ ∃ r, exec i s = .refused r) ∨ (commandRefusal i s = none ∧ ∃ t, exec i s = .next t) := by
  obtain ⟨code, body, e⟩ := exec_eq_launch hi
  rw [e]
  obtain ⟨hb', -⟩ | ⟨-, r, hr, h⟩ | ⟨-, hr, h⟩ := launch_cases code (commandRefusal i) body s
  · exact absurd hb' hb
  · exact .inl ⟨by simp [hr], r, h⟩
  · exact .inr ⟨hr, _, h⟩

theorem exec_refused_iff (hb : s.status ≠ .busy) : (∃ r, exec i s = .refused r) ↔ commandRefusal i s ≠ none := by
  obtain ⟨hr, r, e⟩ | ⟨hr, t, e⟩ := exec_launch_cases hi hb
  all_goals simp [hr, e]

theorem exec_next_iff (hb : s.status ≠ .busy) : (∃ t, exec i s = .next t) ↔ commandRefusal i s = none := by
  obtain ⟨hr, r, e⟩ | ⟨hr, t, e⟩ := exec_launch_cases hi hb
  all_goals simp [hr, e]

end

/-! ### The launch tests -/

/-- Two ranges overlap where the later one starts inside the earlier one (20_memory.md rule R35). -/
theorem buffersOverlap_iff (b : Buffers) : buffersOverlap b = true ↔ SomeByteInBoth b := by
  rw [buffersOverlap, decide_eq_true_iff]
  constructor
  · intro h
    exact ⟨max b.inBase b.outBase, by omega, by omega, by omega, by omega⟩
  · rintro ⟨a, h1, h2, h3, h4⟩
    omega

theorem launchRefusal_ne_none (s : State) :
    launchRefusal s ≠ none ↔ SomeByteInBoth s.bufs ∨ s.bufs.outSize < s.outCap := by
  rw [ne_eq, launchRefusal_eq_none, ← buffersOverlap_iff, Bool.eq_false_iff, ← Nat.not_lt]
  tauto

theorem buffersRefusal_ne_none (s : State) :
    buffersRefusal s ≠ none ↔ SomeByteInBoth s.bufs ∨ s.bufs.inSize < s.inLen ∨ s.bufs.outSize < s.outCap := by
  rw [ne_eq, buffersRefusal_eq_none, ← buffersOverlap_iff, Bool.eq_false_iff, ← Nat.not_lt, ← Nat.not_lt]
  tauto

/-- A compress command is accepted exactly within the command's limit, within what a cell holds and within the ranges
(70_reset_and_hazards.md rule R206). -/
theorem compressRefusal_eq_none (limit : Option Nat) (s : State) :
    compressRefusal limit s = none ↔
      overLimit limit s.inLen = false ∧ ¬ TooLongForCells s ∧ buffersRefusal s = none := by
  unfold compressRefusal
  by_cases hl : overLimit limit s.inLen = true
  · simp [hl]
  · by_cases hc : TooLongForCells s
    · simp [hl, hc]
    · rw [if_neg hl, if_neg hc]
      simp [hl, hc]

theorem compressRefusal_ne_none (limit : Option Nat) (s : State) :
    compressRefusal limit s ≠ none ↔
      (SomeByteInBoth s.bufs ∨ s.bufs.inSize < s.inLen ∨ s.bufs.outSize < s.outCap) ∨ TooLongForCells s ∨
        overLimit limit s.inLen = true := by
  rw [← buffersRefusal_ne_none, ne_eq, compressRefusal_eq_none, Bool.eq_false_iff]
  tauto

theorem overLimit_some (l n : Nat) : overLimit (some l) n = true ↔ l < n := decide_eq_true_iff

/-- Settles O17: a command's launch is refused exactly where its test answers a refusal, and each test is a conjunction
of limits. -/
theorem launchLimits : Obligations.LaunchLimits := by
  intro s bad
  refine ⟨fun hb => ⟨?_, ?_, ?_, ?_, ?_, ?_, ?_, ?_, ?_, ?_⟩, fun hb i hi => exec_of_busy hi hb⟩
  all_goals rw [exec_refused_iff rfl hb]
  · exact (compressRefusal_ne_none none s).trans (by simp [bad, overLimit])
  · exact (compressRefusal_ne_none _ s).trans (by rw [overLimit_some]; rfl)
  · exact (compressRefusal_ne_none _ s).trans (by rw [overLimit_some]; rfl)
  · exact buffersRefusal_ne_none s
  · exact buffersRefusal_ne_none s
  · exact buffersRefusal_ne_none s
  · exact buffersRefusal_ne_none s
  · exact launchRefusal_ne_none s
  · exact launchRefusal_ne_none s
  · exact launchRefusal_ne_none s

/-! ### `OUT_CAP` and the compress commands -/

theorem IsCompress.format {i : Instr} (hi : IsCompress i) : i.format = .cmd8 := by
  rcases hi with rfl | rfl | rfl <;> rfl

theorem compressRefusal_setOutCap {limit : Option Nat} {s : State} {c : Nat} (hc : c ≤ s.bufs.outSize)
    (h : compressRefusal limit s = none) : compressRefusal limit { s with outCap := c } = none := by
  rw [compressRefusal_eq_none, buffersRefusal_eq_none] at h ⊢
  obtain ⟨hlimit, hcells, ⟨hoverlap, -⟩, hin⟩ := h
  exact ⟨hlimit, hcells, ⟨hoverlap, hc⟩, hin⟩

/-- A compress command that was launched could be with any `OUT_CAP` within the range. -/
theorem exec_compress_setOutCap {i : Instr} {s t : State} {c : Nat} (hi : IsCompress i) (hb : s.status ≠ .busy)
    (h : exec i s = .next t) (hc : c ≤ s.bufs.outSize) : ∃ v, exec i { s with outCap := c } = .next v := by
  have hr := (exec_next_iff hi.format hb).mp ⟨t, h⟩
  refine (exec_next_iff (s := { s with outCap := c }) hi.format hb).mpr ?_
  rcases hi with rfl | rfl | rfl
  · exact compressRefusal_setOutCap (limit := none) hc hr
  · exact compressRefusal_setOutCap (limit := some lz4fMaxIn) hc hr
  · exact compressRefusal_setOutCap (limit := some snMaxIn) hc hr

theorem compressBytes_setOutCap (i : Instr) (s : State) (c : Nat) :
    compressBytes i { s with outCap := c } = compressBytes i s := by
  unfold compressBytes
  rfl

/-- A compress command is done with its whole output where that fits, and else ends in `OutputTooSmall` (20_memory.md rule
R38). -/
theorem exec_compress_outcome {i : Instr} {s t : State} (hi : IsCompress i) (hb : s.status ≠ .busy)
    (hw : Memory.wf s.outMem) (h : exec i s = .next t) :
    ((compressBytes i s).length ≤ s.outCap ∧ Completed (compressBytes i s).length 0 t ∧
      outBytes t 0 (compressBytes i s).length = compressBytes i s) ∨
    (s.outCap < (compressBytes i s).length ∧ Raised .outputTooSmall t) := by
  obtain ⟨code, slot, bytes, r, hbytes, he, rfl⟩ := exec_compress hi hb h
  obtain rfl := hbytes hw
  obtain ⟨t, ht, e⟩ | ⟨hfull, t, -, e⟩ := he.finish_cases
  all_goals rw [e]
  · have hop : t.op = (compressBytes i s).length := ht.op.trans (Nat.zero_add _)
    obtain ⟨-, hholds⟩ := ht.content hw
    exact .inl ⟨hop ▸ ht.fits, ⟨rfl, rfl, hop, rfl, rfl⟩, hholds.slice 0⟩
  · exact .inr ⟨hfull.trans_eq (Nat.zero_add _), rfl, rfl, rfl, rfl, rfl⟩

/-- Settles O26: the output does not depend on `OUT_CAP`, which only decides whether it fits. -/
theorem compressCapacity : Obligations.CompressCapacity := by
  intro i s t n c hi hb hw h hn hc
  obtain ⟨v, hv⟩ := exec_compress_setOutCap hi hb h hc
  have hout := exec_compress_outcome (s := { s with outCap := c }) hi hb hw hv
  rw [compressBytes_setOutCap] at hout
  obtain ⟨hdone, -, hlen, -⟩ := hn
  obtain ⟨-, ⟨-, -, hlen', -⟩, hbytes⟩ | ⟨-, herror, -⟩ := exec_compress_outcome hi hb hw h
  · obtain rfl : n = (compressBytes i s).length := hlen.symm.trans hlen'
    obtain ⟨hfit, hv', hbytes'⟩ | ⟨hfull, hv'⟩ := hout
    · exact ⟨fun _ => ⟨v, hv, hv', hbytes'.trans hbytes.symm⟩, fun hlt => absurd hfit (Nat.not_le.mpr hlt)⟩
    · exact ⟨fun hle => absurd hfull (Nat.not_lt.mpr hle), fun _ => ⟨v, hv, hv'⟩⟩
  · exact absurd (hdone.symm.trans herror) (by decide)

end Sys2Proof.Machine
end

section
/-! SUPPORT. The tests an element makes before it writes, as one `if` chain each, and what it has written when one fails. -/

namespace Sys2Proof.Machine

/-! ### The tests -/

/-- Settles O57: with `op` within both limits, the room left is the difference the test takes. -/
theorem checkRoomOrder : Obligations.CheckRoomOrder := by
  intro n s hmax hcap
  rw [checkRoom, if_congr (Nat.sub_lt_iff_lt_add' hmax) rfl (if_congr (Nat.sub_lt_iff_lt_add' hcap) rfl rfl)]

/-- What follows a room test runs if both limits leave room (20_memory.md rule R39). -/
theorem checkRoom_settle (n : Nat) (s : State) (f : State → Run) :
    ((checkRoom n s).andThen f).settle =
      if s.maxOut - s.op < n then s.fail .outputTooLarge
      else if s.outCap - s.op < n then s.fail .outputTooSmall
      else (f s).settle := by
  unfold checkRoom
  split_ifs <;> rfl

/-- What follows a sequence's literals runs if there is room for them (42_lz4_block.md rule R113). -/
theorem lz4Literals_settle (token : Byte) (lits : List Byte) (s : State) (f : State → Run) :
    ((lz4Literals token lits s).andThen f).settle =
      if s.maxOut - s.op < lits.length then (atLiterals token lits s).fail .outputTooLarge
      else if s.outCap - s.op < lits.length then (atLiterals token lits s).fail .outputTooSmall
      else (f (afterLiterals token lits s)).settle := by
  rw [lz4Literals_eq, Run.andThen_assoc]
  exact checkRoom_settle lits.length (atLiterals token lits s) _

/-- What follows a sequence's offset runs if the offset is within the output (rule R113). -/
theorem lz4Offset_settle (offset : BitVec 16) (s : State) (f : State → Run) :
    ((lz4Offset offset s).andThen f).settle =
      if offset = 0 ∨ s.op - s.base < offset.toNat then (afterOffset offset s).fail .invalidData
      else (f (afterOffset offset s)).settle := by
  unfold lz4Offset
  dsimp only
  split_ifs <;> rfl

/-- What follows a sequence's match runs if there is room for it (rule R113). -/
theorem lz4Match_settle (mlen : Nat) (s : State) (f : State → Run) :
    ((lz4Match mlen s).andThen f).settle =
      if s.maxOut - s.op < mlen then (atMatch mlen s).fail .outputTooLarge
      else if s.outCap - s.op < mlen then (atMatch mlen s).fail .outputTooSmall
      else (f (afterMatch mlen s)).settle := by
  rw [lz4Match, Run.andThen_assoc]
  simp only [matchCopy_eq]
  exact checkRoom_settle mlen (atMatch mlen s) _

/-- What follows a data block's size word runs if the block is within the input (43_lz4_frame.md rule R124). -/
theorem lz4fBlockWord_settle (stored : Bool) (blen : BitVec 31) (s : State) (f : State → Run) :
    ((lz4fBlockWord stored blen s).andThen f).settle =
      if s.curLen - (s.ip + 4) < blen.toNat then (afterBlockWord stored blen s).fail .unexpectedEof
      else (f (afterBlockWord stored blen s)).settle := by
  by_cases h : s.curLen - (s.ip + 4) < blen.toNat
  · rw [if_pos h, show lz4fBlockWord stored blen s = _ from if_pos h]
    rfl
  · rw [if_neg h, show lz4fBlockWord stored blen s = _ from if_neg h]
    rfl

/-! ### The elements -/

/-- No element changes what is the host's (45_commands.md rule R175). -/
theorem exec_element_hostSide {i : Instr} {s t : State} (hi : IsElement i) (h : exec i s = .next t) :
    HostSideSame s t := by
  cases (exec_element_body hi h).toEnd with
  | goesOn _ hw => exact hw.hostSide
  | completes u hw => exact hw.hostSide
  | raises k u hw => exact hw.hostSide

theorem exec_lz4Last_eq (ml : BitVec 4) (lits : List Byte) (s : State) :
    let token := lz4Token lits.length ml.toNat
    exec (.lz4Last ml lits) s = .next
      (if s.maxOut - s.op < lits.length then (atLiterals token lits s).fail .outputTooLarge
      else if s.outCap - s.op < lits.length then (atLiterals token lits s).fail .outputTooSmall
      else blockLoop (afterLiterals token lits s)) :=
  congrArg Host.Outcome.next (lz4Literals_settle _ lits s _)

theorem exec_lz4Seq_eq (lits : List Byte) (offset : BitVec 16) (mlen : Nat) (s : State) :
    let token := lz4Token lits.length (mlen - 4)
    let s1 := afterLiterals token lits s
    let s2 := afterOffset offset s1
    exec (.lz4Seq lits offset mlen) s = .next
      (if s.maxOut - s.op < lits.length then (atLiterals token lits s).fail .outputTooLarge
      else if s.outCap - s.op < lits.length then (atLiterals token lits s).fail .outputTooSmall
      else if offset = 0 ∨ s.op + lits.length - s.base < offset.toNat then s2.fail .invalidData
      else if s.maxOut - (s.op + lits.length) < mlen then (atMatch mlen s2).fail .outputTooLarge
      else if s.outCap - (s.op + lits.length) < mlen then (atMatch mlen s2).fail .outputTooSmall
      else blockLoop (afterMatch mlen s2)) := by
  intro token s1 s2
  refine congrArg Host.Outcome.next ?_
  rw [lz4Literals_settle, lz4Offset_settle, lz4Match_settle]
  rfl

theorem exec_lz4fStored_eq (blen : BitVec 31) (s : State) :
    let s1 := afterBlockWord true blen s
    exec (.lz4fStored blen) s = .next
      (if s.curLen - (s.ip + 4) < blen.toNat then s1.fail .unexpectedEof
      else if s.maxOut - s.op < blen.toNat then s1.fail .outputTooLarge
      else if s.outCap - s.op < blen.toNat then s1.fail .outputTooSmall
      else { literalCopy (inBytes s (s.ip + 4) blen.toNat) s1 with phase := .bsw }) := by
  intro s1
  refine congrArg Host.Outcome.next ?_
  rw [lz4fBlockWord_settle, checkRoom_settle]
  rfl

@[simp] theorem afterLiterals_status (token : Byte) (lits : List Byte) (s : State) :
    (afterLiterals token lits s).status = s.status := rfl

@[simp] theorem afterOffset_status (offset : BitVec 16) (s : State) : (afterOffset offset s).status = s.status := rfl

@[simp] theorem afterMatch_status (mlen : Nat) (s : State) : (afterMatch mlen s).status = s.status := rfl

/-! ### What is written -/

theorem Raised.fail (k : ErrKind) (s : State) : Raised k (s.fail k) := ⟨rfl, rfl, rfl, rfl, rfl⟩

/-- A kind raised before anything is written. -/
theorem Raised.fail_outSame {s u : State} (k : ErrKind) (h : u.outMem = s.outMem) :
    Raised k (u.fail k) ∧ OutSame s (u.fail k) :=
  ⟨.fail k u, fun a => by rw [State_fail_outMem, h]⟩

/-- Bytes written at `op` stand there, and no other byte has changed. -/
theorem outHolds_of_writeBytes {s t : State} {lits : List Byte} (hw : Memory.wf s.outMem)
    (ho : t.outMem = Memory.writeBytes s.outMem s.op lits) :
    OutHolds s.op lits t ∧ OutSameOutside s.op (s.op + lits.length) s t := by
  rw [OutHolds, OutSameOutside, ho]
  exact ⟨fun k hk => Memory_read_writeBytes hw _ _ hk, fun a ha => Memory_read_writeBytes_outside _ _ ha⟩

/-- A running block goes on or is done. -/
theorem blockLoop_status_ne_error {s : State} (hb : s.status = .busy) : (blockLoop s).status ≠ .error := by
  obtain ⟨-, e⟩ | ⟨-, -, e⟩ | ⟨-, -, e⟩ := blockLoop_cases s
  all_goals simp [e, hb]

/-- Settles O34: each test that fails raises in a state where `OUT` is that of the last piece written. -/
theorem lz4TestOrder : Obligations.Lz4TestOrder := by
  intro lits offset mlen ml s hb hw n literalsOnly
  have hlast := exec_lz4Last_eq ml lits s
  have hseq := exec_lz4Seq_eq lits offset mlen s
  refine ⟨⟨_, hlast, exec_element_hostSide (by simp [Instr.format]) hlast, ?_⟩,
    ⟨_, hseq, exec_element_hostSide (by simp [Instr.format]) hseq, ?_⟩⟩
  · split_ifs
    · exact Raised.fail_outSame _ rfl
    · exact Raised.fail_outSame _ rfl
    · exact blockLoop_status_ne_error (by simpa using hb)
  · have hlits {t : State} (ht : t.outMem = Memory.writeBytes s.outMem s.op lits) : literalsOnly t :=
      outHolds_of_writeBytes hw ht
    split_ifs
    · exact Raised.fail_outSame _ rfl
    · exact Raised.fail_outSame _ rfl
    · exact ⟨.fail _ _, hlits rfl⟩
    · exact ⟨.fail _ _, hlits rfl⟩
    · exact ⟨.fail _ _, hlits rfl⟩
    · exact blockLoop_status_ne_error (by simpa using hb)

/-- Settles O40: the size word and the room are tested before anything is written, then the block's bytes are. -/
theorem frameStored : Obligations.FrameStored := by
  intro blen s hw n
  have hexec := exec_lz4fStored_eq blen s
  refine ⟨_, hexec, exec_element_hostSide (by simp [Instr.format]) hexec, ?_⟩
  split_ifs
  · exact Raised.fail_outSame _ rfl
  · exact Raised.fail_outSame _ rfl
  · exact Raised.fail_outSame _ rfl
  · have hlen : (inBytes s (s.ip + 4) n).length = n := Memory_slice_length _ _ _
    rw [literalCopy_eq, hlen]
    generalize inBytes s (s.ip + 4) n = lits at hlen
    have hlits := outHolds_of_writeBytes (t := { s with outMem := Memory.writeBytes s.outMem s.op lits }) hw rfl
    rw [hlen] at hlits
    obtain ⟨hholds, houtside⟩ := hlits
    exact ⟨hholds, houtside, rfl⟩

end Sys2Proof.Machine
end

section
/-! SUPPORT. When the host's hands are off: what takes them off, what puts them on, what leaves them as they are. -/

namespace Sys2Proof.Machine

/-- A command's first step leaves the host's hands off, whether it ends or goes on. -/
theorem CommandEnd.unread {s t : State} (h : CommandEnd s t) : t.unread = s.unread := by
  cases h with
  | completes slot bytes u res ha => exact ha.hostSide.unread
  | raises k u ho => exact ho.hostSide.unread
  | atBlock => rfl
  | atField => rfl

theorem EngineTo.unread {s t : State} (h : EngineTo s t) : t.unread = s.unread := by
  cases h with
  | stuck => rfl
  | bad k u _ hw => exact hw.hostSide.unread
  | element hp _ he =>
    cases he.toEnd with
    | goesOn _ hw => exact hw.hostSide.unread
    | completes u hw => exact hw.hostSide.unread
    | raises k u hw => exact hw.hostSide.unread

/-- A write to `CMD` is ignored while `BUSY`, or takes the host's hands off. -/
theorem CommandTo.ignored_or_unread {s t : State} (h : CommandTo s t) :
    (s.status = .busy ∧ t = s) ∨ t.unread = true := by
  cases h with
  | ignored hb => exact .inl ⟨hb, rfl⟩
  | illegal code => exact .inr rfl
  | runs code hc => exact .inr hc.unread

/-- Whether the host's hands are off is known from `State.unread` alone where they are while `BUSY`. -/
theorem BusyIsHandsOff.handsOff_iff {s : State} (h : BusyIsHandsOff s) : HandsOff s ↔ s.unread = true :=
  ⟨fun hoff => hoff.elim h id, .inr⟩

/-- No register read puts the host's hands on while a command runs. -/
theorem hostRead_keeps_handsOff (r : Reg) {s : State} (h : BusyIsHandsOff s) : BusyIsHandsOff (hostRead r s) := by
  intro hb
  rw [hostRead_unread, if_neg fun hr => hr.2 hb]
  exact h hb

theorem hostRead_status_not_handsOff {s : State} (hb : s.status ≠ .busy) : ¬ HandsOff (hostRead .status s) := by
  simp [HandsOff, hostRead_unread, hb]

theorem HostTo.keeps_handsOff {s t : State} (h : HostTo s t) (hs : BusyIsHandsOff s) : BusyIsHandsOff t := by
  cases h with
  | arg r v => cases r <;> exact hs
  | read r => exact hostRead_keeps_handsOff r hs
  | reset => exact nofun
  | abandon => exact nofun
  | nothing | writeIn | writeOut | peek | provide => exact hs

/-- The host's hands are off while `BUSY` after every step (70_reset_and_hazards.md rule R205). -/
theorem step_keeps_handsOff {s t : State} (hs : BusyIsHandsOff s) (h : step s = .next t) : BusyIsHandsOff t := by
  cases step_to h with
  | engine hm he =>
    have hs0 := EngineMoves_eq hm
    intro _
    rw [he.unread, hs0]
    exact hs hm.1
  | waits => exact hs
  | command v r hr hc =>
    obtain ⟨-, rfl⟩ | hu := hc.ignored_or_unread
    · exact hs
    · exact fun _ => hu
  | host a r hr hh => exact hh.keeps_handsOff hs

/-- An action that can put the host's hands on: a read of `STATUS` while no command runs, or a reset. -/
abbrev PutsHandsOn (a : HostAction) (s : State) : Prop :=
  (a = .readReg .status ∧ s.status ≠ .busy) ∨ a = .reset ∨ ∃ v, a = .abandon v

/-- Every other action of the host that is no write to `CMD` leaves them as they are. -/
theorem hostAct_unread {a : HostAction} {s t : State} (hcmd : ∀ v, a ≠ .writeReg .cmd v) (hon : ¬ PutsHandsOn a s)
    (h : hostAct a s = .out (.next t)) : t.unread = s.unread := by
  cases a
  case writeReg r v =>
    have hr : r ≠ .cmd := fun e => hcmd v (e ▸ rfl)
    have ht : hostWriteReg r v s = .next t := Event.out.inj ((if_neg hr).symm.trans h)
    unfold hostWriteReg at ht
    split_ifs at ht
    cases ht
    cases r <;> rfl
  case readReg r =>
    cases h
    rw [hostRead_unread, if_neg]
    rintro ⟨rfl, hb⟩
    exact hon (.inl ⟨rfl, hb⟩)
  case writeIn a b => rw [hostAccess_next (Event.out.inj h)]
  case readIn a => rw [hostAccess_next (Event.out.inj h)]
  case writeOut a b => rw [hostAccess_next (Event.out.inj h)]
  case readOut a => rw [hostAccess_next (Event.out.inj h)]
  case provide inBase inSize outBase outSize =>
    have ht := Event.out.inj h
    split_ifs at ht
    cases ht
    rfl
  case reset => exact absurd (.inr (.inl rfl)) hon
  case abandon v => exact absurd (.inr (.inr ⟨v, rfl⟩)) hon
  case tick => cases h; rfl
  case poll => cases h; rfl

/-- A step leaves the host's hands off unless it is the end of the host's wait, or a reset. -/
theorem step_unread {s t : State} (hu : s.unread = true) (h : step s = .next t) :
    t.unread = true ∨ ∃ a r, s.host = a :: r ∧ (PutsHandsOn a s ∨ a = .poll ∧ s.status ≠ .busy) := by
  obtain ⟨s0, hm, -⟩ | ⟨-, -, e⟩ | ⟨-, r, hr, e⟩ | ⟨hb, r, hr, -⟩ | ⟨a, r, hr, -, -, e⟩ := nextEvent_cases s
  · left
    rw [(step_engine hm h).unread, EngineMoves_eq hm]
    exact hu
  · obtain rfl := Host.Outcome.next.inj ((step_of_out e).symm.trans h)
    exact .inl hu
  · obtain rfl := Host.Outcome.next.inj ((step_of_out e).symm.trans h)
    exact .inl hu
  · exact .inr ⟨_, r, hr, .inr ⟨rfl, hb⟩⟩
  · by_cases hon : PutsHandsOn a s
    · exact .inr ⟨a, r, hr, .inl hon⟩
    left
    by_cases hcmd : ∃ v, a = .writeReg .cmd v
    · obtain ⟨v, rfl⟩ := hcmd
      obtain ⟨-, rfl⟩ | hu' := (step_command hr h).ignored_or_unread
      · exact hu
      · exact hu'
    · have hcmd' (v) : a ≠ .writeReg .cmd v := fun ha => hcmd ⟨v, ha⟩
      obtain ⟨o, ho, -⟩ := hostAct_to (t := t) (s := { s with host := r }) hcmd'
      obtain rfl : o = .next t := (step_of_out (e.trans ho)).symm.trans h
      exact (hostAct_unread (s := { s with host := r }) hcmd' hon ho).trans hu

/-- Settles O60: a write to `CMD` sets `State.unread`, and only the end of the host's wait or a reset clears it. -/
theorem handsOffUntilStatusRead : Obligations.HandsOffUntilStatusRead := by
  refine ⟨fun s t v r hb hr h => ?_, fun s t hs hoff h hon => ?_, fun s r hb hr => ?_, fun s t => step_keeps_handsOff⟩
  · obtain ⟨hb', -⟩ | hu := (step_command hr h).ignored_or_unread
    · exact absurd hb' hb
    · exact .inr hu
  · obtain hu | ⟨a, r, hr, (⟨rfl, hb⟩ | rfl | ⟨v, rfl⟩) | ⟨rfl, hb⟩⟩ := step_unread (hs.handsOff_iff.mp hoff) h
    · exact absurd (.inr hu) hon
    · exact .inl ⟨hb, r, .inl hr⟩
    · exact .inr (.inl ⟨r, hr⟩)
    · exact .inr (.inr ⟨v, r, hr⟩)
    · exact .inl ⟨hb, r, .inr hr⟩
  · refine ⟨hostRead .status { s with host := r }, ?_, hostRead_status_not_handsOff hb⟩
    rcases hr with hr | hr
    · exact step_of_hostAct hr (by simp) (by simp) rfl
    · exact step_of_out (by simp [nextEvent, hr, hb])

end Sys2Proof.Machine
end

section
/-! SUPPORT. The field codecs in both directions: what the reader of a field accepts is what its writer writes
(30_encoding.md rules R53, R67; 40_varint_length_codecs.md rules R80 to R83). -/

namespace Sys2Proof

/-! ### Words and numbers -/

theorem toNat_ofNat_of_lt {n v : Nat} (h : v < 2 ^ n) : (BitVec.ofNat n v).toNat = v := by
  rw [BitVec.toNat_ofNat, Nat.mod_eq_of_lt h]

theorem ofNat_eq_of_toNat {n v : Nat} {b : BitVec n} (h : b.toNat = v) : BitVec.ofNat n v = b := by
  rw [← h, BitVec.ofNat_toNat, BitVec.setWidth_eq]

theorem ofNat_toNat_self {n : Nat} (b : BitVec n) : BitVec.ofNat n b.toNat = b := ofNat_eq_of_toNat rfl

/-! ### Little-endian fields -/

theorem leNat_leBytes (n v : Nat) : leNat (leBytes n v) = v % 256 ^ n := by
  induction n generalizing v with
  | zero => simp [leBytes, leNat, Nat.mod_one]
  | succ n ih =>
    rw [leBytes, leNat, ih, BitVec.toNat_ofNat, Nat.pow_succ' (n := n), Nat.mod_mul]

theorem leNat_leBytes_of_lt {n v : Nat} (h : v < 256 ^ n) : leNat (leBytes n v) = v := by
  rw [leNat_leBytes, Nat.mod_eq_of_lt h]

theorem leNat_lt (bs : List Byte) : leNat bs < 256 ^ bs.length := by
  induction bs with
  | nil => exact Nat.one_pos
  | cons b r ih =>
    have := b.isLt
    simp only [leNat, List.length_cons, Nat.pow_succ]
    omega

theorem leBytes_leNat (bs : List Byte) : leBytes bs.length (leNat bs) = bs := by
  induction bs with
  | nil => rfl
  | cons b r ih =>
    have := b.isLt
    have hdiv : (b.toNat + 256 * leNat r) / 256 = leNat r := by omega
    have hhead : BitVec.ofNat 8 (b.toNat + 256 * leNat r) = b := by
      apply BitVec.eq_of_toNat_eq
      rw [BitVec.toNat_ofNat]
      omega
    simp only [List.length_cons, leBytes, leNat, hdiv, hhead, ih]

/-- The first `n` bytes of a long enough list are a field of `n` bytes. -/
theorem leBytes_take {n : Nat} {bs : List Byte} (h : n ≤ bs.length) :
    leNat (bs.take n) < 256 ^ n ∧ leBytes n (leNat (bs.take n)) ++ bs.drop n = bs := by
  have hlen : (bs.take n).length = n := List.length_take_of_le h
  have hlt := leNat_lt (bs.take n)
  have hbytes := leBytes_leNat (bs.take n)
  rw [hlen] at hlt hbytes
  exact ⟨hlt, by rw [hbytes, List.take_append_drop]⟩

@[simp] theorem take_leBytes_append (n v : Nat) (rest : List Byte) : (leBytes n v ++ rest).take n = leBytes n v :=
  List.take_left' (leBytes_length n v)

@[simp] theorem drop_leBytes_append (n v : Nat) (rest : List Byte) : (leBytes n v ++ rest).drop n = rest :=
  List.drop_left' (leBytes_length n v)

/-- A field of `n` bytes is read exactly where it stands. -/
theorem decodeWord_eq_ok {n : Nat} {bs rest : List Byte} {f : Nat → Except DecodeError Instr} {i : Instr} :
    decodeWord n bs f = .ok (i, rest) ↔ ∃ v, v < 256 ^ n ∧ f v = .ok i ∧ leBytes n v ++ rest = bs := by
  constructor
  · intro h
    unfold decodeWord at h
    split_ifs at h with hlen
    split at h
    · cases h
    · next hf =>
      cases h
      obtain ⟨hlt, hbytes⟩ := leBytes_take (Nat.le_of_not_lt hlen)
      exact ⟨_, hlt, hf, hbytes⟩
  · rintro ⟨v, hv, hf, rfl⟩
    simp [decodeWord, leNat_leBytes_of_lt hv, hf]

theorem decodeWord_leBytes {n v : Nat} {f : Nat → Except DecodeError Instr} {i : Instr} (rest : List Byte)
    (hv : v < 256 ^ n) (hf : f v = .ok i) : decodeWord n (leBytes n v ++ rest) f = .ok (i, rest) :=
  decodeWord_eq_ok.mpr ⟨v, hv, hf, rfl⟩

/-! ### The LZ4 length extension -/

theorem lz4LenExt_of_lt {r : Nat} (h : r < 255) : lz4LenExt r = [BitVec.ofNat 8 r] := by
  simp [lz4LenExt, Nat.div_eq_of_lt h, Nat.mod_eq_of_lt h]

theorem lz4LenExt_add (r : Nat) : lz4LenExt (r + 255) = 255 :: lz4LenExt r := by
  simp [lz4LenExt, List.replicate_succ]

/-- The extension is read exactly where it stands (40_varint_length_codecs.md rule R84). -/
theorem readLz4LenExt_eq_some {bs rest : List Byte} {r : Nat} :
    readLz4LenExt bs = some (r, rest) ↔ lz4LenExt r ++ rest = bs := by
  constructor
  · intro h
    induction bs generalizing r with
    | nil => cases h
    | cons b bs ih =>
      unfold readLz4LenExt at h
      split_ifs at h with hb
      · obtain ⟨⟨r', rest'⟩, h', e⟩ := Option.map_eq_some_iff.mp h
        cases e
        rw [lz4LenExt_add, List.cons_append, ih h', hb]
      · cases h
        have hne : b.toNat ≠ 255 := fun h => hb (BitVec.eq_of_toNat_eq h)
        rw [lz4LenExt_of_lt (by have := b.isLt; omega), ofNat_toNat_self]
        rfl
  · rintro rfl
    induction r using Nat.strongRecOn with
    | ind r ih =>
      rcases Nat.lt_or_ge r 255 with hr | hr
      · have hne : BitVec.ofNat 8 r ≠ 255 := fun h => by
          have h255 : r % 256 = 255 := congrArg BitVec.toNat h
          omega
        rw [lz4LenExt_of_lt hr, List.singleton_append, readLz4LenExt, if_neg hne, BitVec.toNat_ofNat,
          Nat.mod_eq_of_lt (by omega)]
      · obtain ⟨r, rfl⟩ := Nat.exists_eq_add_of_le' hr
        rw [lz4LenExt_add, List.cons_append, readLz4LenExt, if_pos rfl, ih r (by omega)]
        rfl

/-- A length field is read exactly where its nibble and its extension say so (30_encoding.md rule R53). -/
theorem readLz4Field_eq_some {nibble n : Nat} {bs rest : List Byte} (hnibble : nibble < 16) :
    readLz4Field nibble bs = some (n, rest) ↔ nibble = min n 15 ∧ lz4FieldExt n ++ rest = bs := by
  unfold readLz4Field lz4FieldExt
  by_cases h15 : nibble = 15
  · rw [if_pos h15, Option.map_eq_some_iff]
    constructor
    · rintro ⟨⟨r, rest'⟩, h, e⟩
      cases e
      exact ⟨by omega, by rw [if_neg (by omega)]; exact readLz4LenExt_eq_some.mp h⟩
    · rintro ⟨hmin, h⟩
      rw [if_neg (by omega)] at h
      exact ⟨_, readLz4LenExt_eq_some.mpr h, by rw [Nat.sub_add_cancel (by omega)]⟩
  · rw [if_neg h15, Option.some_inj, Prod.mk.injEq]
    constructor
    · rintro ⟨rfl, rfl⟩
      exact ⟨by omega, by rw [if_pos (by omega)]; rfl⟩
    · rintro ⟨hmin, h⟩
      rw [if_pos (by omega)] at h
      exact ⟨by omega, h.symm⟩

/-! ### The varint -/

/-- A varint of `n` bytes that starts at the `k`-th of the five holds `v`, and `v` fits in the bits of the 32 that are
left there (40_varint_length_codecs.md rule R81). -/
abbrev VarintFits (k v n : Nat) : Prop := 1 ≤ n ∧ k + n ≤ 5 ∧ v < 128 ^ n ∧ v < 2 ^ 32 / 128 ^ k

theorem varintFits_one {k v : Nat} (hk : k ≤ 4) (hv : v < 128) : VarintFits k v 1 ↔ ¬(k = 4 ∧ 15 < v) := by
  unfold VarintFits
  interval_cases k <;> omega

/-- One group more in front. -/
theorem varintFits_succ {k a w n : Nat} (hk : k < 4) (ha : a < 128) (hn : 1 ≤ n) :
    VarintFits k (a + 128 * w) (n + 1) ↔ VarintFits (k + 1) w n := by
  have hbytes : a + 128 * w < 128 ^ (n + 1) ↔ w < 128 ^ n := by rw [Nat.pow_succ]; omega
  have hbits : a + 128 * w < 2 ^ 32 / 128 ^ k ↔ w < 2 ^ 32 / 128 ^ (k + 1) := by interval_cases k <;> omega
  rw [VarintFits, VarintFits, hbytes, hbits]
  omega

theorem varintBytes_succ {a w n : Nat} (ha : a < 128) (hn : 1 ≤ n) :
    varintBytes (n + 1) (a + 128 * w) = BitVec.ofNat 8 (a + 128) :: varintBytes n w := by
  obtain ⟨m, rfl⟩ := Nat.exists_eq_add_of_le' hn
  have hmod : (a + 128 * w) % 128 = a := by omega
  have hdiv : (a + 128 * w) / 128 = w := by omega
  rw [varintBytes, hmod, hdiv]

/-- A byte with its top bit set is followed by the rest of the varint. -/
theorem readVarint_cons_high {k : Nat} {b : Byte} {r : List Byte} (hk : k ≠ 4) (hb : 128 ≤ b.toNat) :
    readVarint k (b :: r) =
      (readVarint (k + 1) r).map fun p => (b.toNat % 128 + 128 * p.1, p.2.1 + 1, p.2.2) := by
  rw [readVarint, if_neg (fun h => hk h.1), if_neg (Nat.not_lt.mpr hb)]
  cases readVarint (k + 1) r <;> rfl

theorem readVarint_cons_low {k : Nat} {b : Byte} {r : List Byte} (hb : b.toNat < 128) :
    readVarint k (b :: r) = if k = 4 ∧ 15 < b.toNat then .error .badVarint else .ok (b.toNat, 1, r) := by
  rw [readVarint, if_pos hb]

theorem readVarint_ok_from {k v n : Nat} {bs rest : List Byte} (hk : k ≤ 4) (h : readVarint k bs = .ok (v, n, rest)) :
    VarintFits k v n ∧ varintBytes n v ++ rest = bs := by
  induction bs generalizing k v n with
  | nil => simp [readVarint] at h
  | cons b bs ih =>
    rcases Nat.lt_or_ge b.toNat 128 with hb | hb
    · rw [readVarint_cons_low hb] at h
      split_ifs at h with hbits
      cases h
      exact ⟨(varintFits_one hk hb).mpr hbits, by simp [varintBytes]⟩
    · have hk4 : k ≠ 4 := fun hk4 => by
        rw [readVarint, if_pos ⟨hk4, by omega⟩] at h
        cases h
      rw [readVarint_cons_high hk4 hb] at h
      cases hr : readVarint (k + 1) bs with
      | error e => rw [hr] at h; cases h
      | ok p =>
        obtain ⟨w, m, rest'⟩ := p
        rw [hr] at h
        cases h
        obtain ⟨hfits, rfl⟩ := ih (by omega) hr
        have ha : b.toNat % 128 < 128 := Nat.mod_lt _ (by decide)
        refine ⟨(varintFits_succ (by omega) ha hfits.1).mpr hfits, ?_⟩
        have hhead : BitVec.ofNat 8 (b.toNat % 128 + 128) = b := ofNat_eq_of_toNat (by have := b.isLt; omega)
        rw [varintBytes_succ ha hfits.1, hhead, List.cons_append]

theorem readVarint_varintBytes_from {k v n : Nat} (rest : List Byte) (h : VarintFits k v n) :
    readVarint k (varintBytes n v ++ rest) = .ok (v, n, rest) := by
  induction n generalizing k v with
  | zero => exact absurd h.1 (by decide)
  | succ n ih =>
    obtain ⟨-, hkn, hv, -⟩ := id h
    rcases Nat.eq_zero_or_pos n with rfl | hn
    · replace hv : v < 128 := hv
      have hbyte : (BitVec.ofNat 8 v).toNat = v := toNat_ofNat_of_lt (by omega)
      rw [varintBytes, List.singleton_append, readVarint_cons_low (by omega), hbyte,
        if_neg ((varintFits_one (by omega) hv).mp h)]
    · have ha : v % 128 < 128 := Nat.mod_lt _ (by decide)
      rw [← Nat.mod_add_div v 128] at h ⊢
      have hbyte : (BitVec.ofNat 8 (v % 128 + 128)).toNat = v % 128 + 128 := toNat_ofNat_of_lt (by omega)
      rw [varintBytes_succ ha hn, List.cons_append, readVarint_cons_high (by omega) (by omega),
        ih ((varintFits_succ (by omega) ha hn).mp h), hbyte]
      simp [Except.map]

/-- A varint is read exactly where it stands, minimal or not (30_encoding.md rule R67). -/
theorem readVarint_eq_ok {v n : Nat} {bs rest : List Byte} :
    readVarint 0 bs = .ok (v, n, rest) ↔ VarintFits 0 v n ∧ varintBytes n v ++ rest = bs := by
  constructor
  · exact readVarint_ok_from (Nat.zero_le 4)
  · rintro ⟨hfits, rfl⟩
    exact readVarint_varintBytes_from rest hfits

end Sys2Proof
end

section
/-! SUPPORT. The decoder and the encoder are inverse to each other, format by format (30_encoding.md rules R51 to
R75). -/

namespace Sys2Proof

/-- What `EncodeInvertsDecode` says of one object beyond its format. -/
abbrev Encodes (bs : List Byte) (i : Instr) (rest : List Byte) : Prop := i.wf = true ∧ encode i ++ rest = bs

/-! ### Command codes -/

theorem decodeCommand_encodes {b : Byte} {i : Instr} {rest : List Byte} (h : decodeCommand b = some i) :
    Encodes (b :: rest) i rest := by
  unfold decodeCommand at h
  split at h <;> cases h
  all_goals exact ⟨rfl, congrArg (· :: rest) (ofNat_eq_of_toNat ‹_›)⟩

/-! ### The frame's fields -/

@[simp] theorem leBytes_one (b : Byte) : leBytes 1 b.toNat = [b] := by simp [leBytes]

/-- A field of one byte. -/
theorem decodeWord_one_eq_ok {bs rest : List Byte} {f : Nat → Except DecodeError Instr} {i : Instr} :
    decodeWord 1 bs f = .ok (i, rest) ↔ ∃ b : Byte, f b.toNat = .ok i ∧ b :: rest = bs := by
  rw [decodeWord_eq_ok]
  constructor
  · rintro ⟨v, hv, hf, rfl⟩
    have hb : (BitVec.ofNat 8 v).toNat = v := Nat.mod_eq_of_lt hv
    exact ⟨BitVec.ofNat 8 v, by rw [hb]; exact hf, rfl⟩
  · rintro ⟨b, hf, rfl⟩
    exact ⟨b.toNat, b.isLt, hf, by rw [leBytes_one]; rfl⟩

/-- The accepted `FLG` bytes are those the encoder writes (30_encoding.md rules R59, R76). -/
theorem encode_of_decodeFlg {b : Byte} {i : Instr} (h : decodeFlg b.toNat = .ok i) :
    i.wf = true ∧ encode i = [b] := by
  have hbits : ∀ b : Byte, b &&& 0xD3 = 0x40 →
      flgByte (b.toNat.testBit 5) (b.toNat.testBit 3) (b.toNat.testBit 2) = b := by decide
  rw [decodeFlg, ofNat_toNat_self] at h
  split_ifs at h with hb
  cases h
  exact ⟨rfl, congrArg ([·]) (hbits b hb)⟩

theorem decodeFlg_flgByte : ∀ bIndep cSize cChecksum : Bool,
    decodeFlg (flgByte bIndep cSize cChecksum).toNat = .ok (.lz4fFlg bIndep cSize cChecksum) := by
  decide

/-- The accepted `BD` bytes are those the encoder writes (rules R60, R76). -/
theorem encode_of_decodeBd {b : Byte} {i : Instr} (h : decodeBd b.toNat = .ok i) : i.wf = true ∧ encode i = [b] := by
  have hbits : ∀ b : Byte, b &&& 0xCF = 0x40 → bdByte (BitVec.ofNat 2 (b.toNat / 16)) = b := by decide
  rw [decodeBd, ofNat_toNat_self] at h
  split_ifs at h with hb
  cases h
  exact ⟨rfl, congrArg ([·]) (hbits b hb)⟩

theorem decodeBd_bdByte : ∀ classM4 : BitVec 2, decodeBd (bdByte classM4).toNat = .ok (.lz4fBd classM4) := by
  decide

/-- The top bit of a block size word says whether the block is stored, and zero is the end mark (rules R63, R64). -/
theorem encode_decodeBsw {v : Nat} (hv : v < 2 ^ 32) :
    (decodeBsw v).wf = true ∧ encode (decodeBsw v) = leBytes 4 v := by
  unfold decodeBsw
  split_ifs with h0 h31
  · exact ⟨rfl, by rw [h0]; rfl⟩
  · have hblen : (BitVec.ofNat 31 v).toNat = v := toNat_ofNat_of_lt h31
    have hne : BitVec.ofNat 31 v ≠ 0 := fun h => h0 (hblen ▸ congrArg BitVec.toNat h)
    exact ⟨decide_eq_true hne, by rw [encode, hblen]⟩
  · have hblen : (BitVec.ofNat 31 (v - 0x80000000)).toNat = v - 0x80000000 := toNat_ofNat_of_lt (by omega)
    exact ⟨rfl, by rw [encode, hblen, Nat.add_sub_cancel' (Nat.le_of_not_lt h31)]⟩

theorem decodeBsw_blen {blen : BitVec 31} (h : blen ≠ 0) : decodeBsw blen.toNat = .lz4fBlock blen := by
  have h0 : blen.toNat ≠ 0 := fun h0 => h (BitVec.eq_of_toNat_eq h0)
  rw [decodeBsw, if_neg h0, if_pos blen.isLt, ofNat_toNat_self]

theorem decodeBsw_stored (blen : BitVec 31) : decodeBsw (0x80000000 + blen.toNat) = .lz4fStored blen := by
  rw [decodeBsw, if_neg (by omega), if_neg (by omega), Nat.add_sub_cancel_left, ofNat_toNat_self]

/-! ### LZ4 sequences -/

theorem lz4Token_toNat (lit ml : Nat) : (lz4Token lit ml).toNat = min lit 15 * 16 + min ml 15 :=
  toNat_ofNat_of_lt (by omega)

theorem eq_lz4Token {token : Byte} {lit ml : Nat} (hlit : token.toNat / 16 = min lit 15)
    (hml : token.toNat % 16 = min ml 15) : lz4Token lit ml = token := by
  apply BitVec.eq_of_toNat_eq
  rw [lz4Token_toNat]
  omega

/-- A sequence is its token, its literals with their length, and what follows them (42_lz4_block.md rule R108). -/
theorem decodeLz4_eq_ok {bs : List Byte} {p : Instr × List Byte} :
    decodeLz4 bs = .ok p ↔ ∃ token lits tail, token.toNat / 16 = min lits.length 15 ∧
      token :: (lz4FieldExt lits.length ++ (lits ++ tail)) = bs ∧ decodeLz4Tail token lits tail = .ok p := by
  constructor
  · intro h
    unfold decodeLz4 at h
    split at h
    · cases h
    next token r =>
    split at h
    · cases h
    next lit r' hlit =>
    split_ifs at h with hlen
    obtain ⟨hnibble, rfl⟩ := (readLz4Field_eq_some (by have := token.isLt; omega)).mp hlit
    have htake : (r'.take lit).length = lit := List.length_take_of_le (Nat.le_of_not_lt hlen)
    exact ⟨token, r'.take lit, r'.drop lit, by rw [htake, hnibble], by rw [htake, List.take_append_drop], h⟩
  · rintro ⟨token, lits, tail, hnibble, rfl, h⟩
    have hfield := (readLz4Field_eq_some (by have := token.isLt; omega)).mpr
      ⟨hnibble, rfl (a := lz4FieldExt lits.length ++ (lits ++ tail))⟩
    simp [decodeLz4, hfield, h]

/-- After its literals a sequence ends, and is the last, or goes on with its match. -/
theorem decodeLz4Tail_eq_ok {token : Byte} {lits tail rest : List Byte} {i : Instr} :
    decodeLz4Tail token lits tail = .ok (i, rest) ↔
      (.lz4Last (BitVec.ofNat 4 token.toNat) lits = i ∧ tail = [] ∧ rest = []) ∨
      ∃ (offset : BitVec 16) (ml : Nat), .lz4Seq lits offset (ml + 4) = i ∧ token.toNat % 16 = min ml 15 ∧
        leBytes 2 offset.toNat ++ (lz4FieldExt ml ++ rest) = tail := by
  constructor
  · intro h
    unfold decodeLz4Tail at h
    split at h
    · cases h
      exact .inl ⟨rfl, rfl, rfl⟩
    · cases h
    · next lo hi r =>
      dsimp only at h
      split at h
      · cases h
      next ml r' hml =>
      cases h
      obtain ⟨hnibble, rfl⟩ := (readLz4Field_eq_some (by omega)).mp hml
      have hlt : leNat [lo, hi] < 2 ^ 16 := (leNat_lt [lo, hi]).trans_eq (by norm_num)
      have hoffset : (BitVec.ofNat 16 (leNat [lo, hi])).toNat = leNat [lo, hi] := toNat_ofNat_of_lt hlt
      refine .inr ⟨_, ml, rfl, hnibble, ?_⟩
      rw [hoffset]
      exact congrArg (· ++ _) (leBytes_leNat [lo, hi])
  · rintro (⟨rfl, rfl, rfl⟩ | ⟨offset, ml, rfl, hnibble, rfl⟩)
    · rfl
    · have hfield := (readLz4Field_eq_some (by omega)).mpr ⟨hnibble, rfl (a := lz4FieldExt ml ++ rest)⟩
      have hoffset : BitVec.ofNat 16 (leNat (leBytes 2 offset.toNat)) = offset := by
        rw [leNat_leBytes_of_lt offset.isLt, ofNat_toNat_self]
      simp only [leBytes] at hoffset
      simp only [leBytes, List.cons_append, List.nil_append, decodeLz4Tail, hfield, hoffset]

theorem decodeLz4_encodes {bs rest : List Byte} {i : Instr} (h : decodeLz4 bs = .ok (i, rest)) : Encodes bs i rest := by
  obtain ⟨token, lits, tail, hlit, rfl, htail⟩ := decodeLz4_eq_ok.mp h
  obtain ⟨rfl, rfl, rfl⟩ | ⟨offset, ml, rfl, hml, rfl⟩ := decodeLz4Tail_eq_ok.mp htail
  · have htoken : lz4Token lits.length (BitVec.ofNat 4 token.toNat).toNat = token :=
      eq_lz4Token hlit (by rw [BitVec.toNat_ofNat]; omega)
    exact ⟨rfl, by simp only [encode, htoken, List.cons_append, List.append_assoc]⟩
  · refine ⟨decide_eq_true (Nat.le_add_left 4 ml), ?_⟩
    simp [encode, eq_lz4Token hlit hml]

theorem decodeLz4_lz4Seq (lits : List Byte) (offset : BitVec 16) {mlen : Nat} (h : 4 ≤ mlen) (rest : List Byte) :
    decodeLz4 (encode (.lz4Seq lits offset mlen) ++ rest) = .ok (.lz4Seq lits offset mlen, rest) := by
  have htoken := lz4Token_toNat lits.length (mlen - 4)
  exact decodeLz4_eq_ok.mpr ⟨lz4Token lits.length (mlen - 4), lits, _, by omega, by simp [encode],
    decodeLz4Tail_eq_ok.mpr (.inr ⟨offset, mlen - 4, by rw [Nat.sub_add_cancel h], by omega, rfl⟩)⟩

theorem decodeLz4_lz4Last (ml : BitVec 4) (lits : List Byte) :
    decodeLz4 (encode (.lz4Last ml lits)) = .ok (.lz4Last ml lits, []) := by
  have htoken := lz4Token_toNat lits.length ml.toNat
  have hml := ml.isLt
  refine decodeLz4_eq_ok.mpr ⟨lz4Token lits.length ml.toNat, lits, [], by omega, by simp [encode],
    decodeLz4Tail_eq_ok.mpr (.inl ⟨?_, rfl, rfl⟩)⟩
  congr 1
  apply BitVec.eq_of_toNat_eq
  rw [BitVec.toNat_ofNat]
  omega

/-! ### Snappy elements -/

/-- A literal with `k` length bytes is those and as many bytes as they say (30_encoding.md rule R69). -/
theorem decodeSnLitExt_eq_ok {mk : List Byte → Instr} {k : Nat} {r rest : List Byte} {i : Instr} :
    decodeSnLitExt mk k r = .ok (i, rest) ↔ ∃ lits, (1 ≤ lits.length ∧ lits.length ≤ 256 ^ k) ∧ mk lits = i ∧
      leBytes k (lits.length - 1) ++ (lits ++ rest) = r := by
  constructor
  · intro h
    unfold decodeSnLitExt at h
    dsimp only at h
    split_ifs at h with hk hlen
    cases h
    obtain ⟨hlt, hbytes⟩ := leBytes_take (Nat.le_of_not_lt hk)
    have htake : ((r.drop k).take (leNat (r.take k) + 1)).length = leNat (r.take k) + 1 :=
      List.length_take_of_le (Nat.le_of_not_lt hlen)
    refine ⟨_, ?_, rfl, ?_⟩
    · omega
    · rw [htake, Nat.add_sub_cancel, List.take_append_drop, hbytes]
  · rintro ⟨lits, ⟨hpos, hle⟩, rfl, rfl⟩
    have hlen : leNat (leBytes k (lits.length - 1)) + 1 = lits.length := by
      rw [leNat_leBytes_of_lt (by omega), Nat.sub_add_cancel hpos]
    simp [decodeSnLitExt, hlen]

theorem decodeSnLit_of_lt {v : Nat} (h : v < 60) (r : List Byte) :
    decodeSnLit v r = if r.length < v + 1 then .error .cut else .ok (.snLit (r.take (v + 1)), r.drop (v + 1)) := by
  unfold decodeSnLit
  split
  any_goals omega
  rfl

section Tag
variable {tag : Byte} (r : List Byte)

theorem decodeSn_literal (h : tag.toNat % 4 = 0) : decodeSn (tag :: r) = decodeSnLit (tag.toNat / 4) r := by
  simp [decodeSn, h]

theorem decodeSn_copy1 (b : Byte) (h : tag.toNat % 4 = 1) :
    decodeSn (tag :: b :: r) =
      .ok (.snCopy1 (BitVec.ofNat 3 (tag.toNat / 4)) (BitVec.ofNat 11 (tag.toNat / 32 * 256 + b.toNat)), r) := by
  simp [decodeSn, h]

theorem decodeSn_copy2 (h : tag.toNat % 4 = 2) :
    decodeSn (tag :: r) =
      decodeWord 2 r fun v => .ok (.snCopy2 (BitVec.ofNat 6 (tag.toNat / 4)) (BitVec.ofNat 16 v)) := by
  simp [decodeSn, h, decodeWord]

theorem decodeSn_copy4 (h : tag.toNat % 4 = 3) :
    decodeSn (tag :: r) =
      decodeWord 4 r fun v => .ok (.snCopy4 (BitVec.ofNat 6 (tag.toNat / 4)) (BitVec.ofNat 32 v)) := by
  simp [decodeSn, h, decodeWord]

end Tag

theorem decodeSnLitExt_encodes {mk : List Byte → Instr} {k : Nat} {tag : Byte} {r rest : List Byte} {i : Instr}
    (hwf : ∀ lits, 1 ≤ lits.length ∧ lits.length ≤ 256 ^ k → (mk lits).wf = true)
    (hencode : ∀ lits, encode (mk lits) = snLitBytes k lits) (htag : tag.toNat = (59 + k) * 4)
    (h : decodeSnLitExt mk k r = .ok (i, rest)) : Encodes (tag :: r) i rest := by
  obtain ⟨lits, hlen, rfl, rfl⟩ := decodeSnLitExt_eq_ok.mp h
  refine ⟨hwf lits hlen, ?_⟩
  rw [hencode, snLitBytes, ofNat_eq_of_toNat htag, List.cons_append, List.append_assoc]

theorem decodeSnLit_encodes {tag : Byte} {r rest : List Byte} {i : Instr} (htag : tag.toNat % 4 = 0)
    (h : decodeSnLit (tag.toNat / 4) r = .ok (i, rest)) : Encodes (tag :: r) i rest := by
  rcases Nat.lt_or_ge (tag.toNat / 4) 60 with hv | hv
  · rw [decodeSnLit_of_lt hv] at h
    split_ifs at h with hlen
    cases h
    have htake : (r.take (tag.toNat / 4 + 1)).length = tag.toNat / 4 + 1 :=
      List.length_take_of_le (Nat.le_of_not_lt hlen)
    refine ⟨decide_eq_true (by omega), ?_⟩
    rw [encode, ofNat_eq_of_toNat (b := tag) (by omega), List.cons_append, List.take_append_drop]
  · have hlt := tag.isLt
    obtain hv | hv | hv | hv :
        tag.toNat / 4 = 60 ∨ tag.toNat / 4 = 61 ∨ tag.toNat / 4 = 62 ∨ tag.toNat / 4 = 63 := by omega
    all_goals rw [hv] at h
    · exact decodeSnLitExt_encodes (mk := .snLit1) (fun _ => decide_eq_true) (fun _ => rfl) (by omega) h
    · exact decodeSnLitExt_encodes (mk := .snLit2) (fun _ => decide_eq_true) (fun _ => rfl) (by omega) h
    · exact decodeSnLitExt_encodes (mk := .snLit3) (fun _ => decide_eq_true) (fun _ => rfl) (by omega) h
    · exact decodeSnLitExt_encodes (mk := .snLit4) (fun _ => decide_eq_true) (fun _ => rfl) (by omega) h

/-- The tag of a copy is its class in the low two bits and the length field above (rules R71, R72). -/
theorem ofNat_copyTag {tag : Byte} {cls : Nat} (h : tag.toNat % 4 = cls) :
    BitVec.ofNat 8 (cls + 4 * (BitVec.ofNat 6 (tag.toNat / 4)).toNat) = tag := by
  have := tag.isLt
  rw [toNat_ofNat_of_lt (by omega)]
  exact ofNat_eq_of_toNat (by omega)

/-- A one-byte-offset copy spreads its offset over the top of the tag and the byte after it (rule R70). -/
theorem encode_snCopy1_of_tag {tag b : Byte} (h : tag.toNat % 4 = 1) :
    encode (.snCopy1 (BitVec.ofNat 3 (tag.toNat / 4)) (BitVec.ofNat 11 (tag.toNat / 32 * 256 + b.toNat))) = [tag, b] := by
  have htlt := tag.isLt
  have hblt := b.isLt
  have hlen : (BitVec.ofNat 3 (tag.toNat / 4)).toNat = tag.toNat / 4 % 8 := BitVec.toNat_ofNat _ _
  have hoffset : (BitVec.ofNat 11 (tag.toNat / 32 * 256 + b.toNat)).toNat = tag.toNat / 32 * 256 + b.toNat :=
    toNat_ofNat_of_lt (by omega)
  have htag : BitVec.ofNat 8 (1 + 4 * (tag.toNat / 4 % 8) + 32 * ((tag.toNat / 32 * 256 + b.toNat) / 256)) = tag :=
    ofNat_eq_of_toNat (by omega)
  have hlow : BitVec.ofNat 8 (tag.toNat / 32 * 256 + b.toNat) = b := BitVec.eq_of_toNat_eq (by
    rw [BitVec.toNat_ofNat]
    omega)
  rw [encode, hlen, hoffset, htag, hlow]

theorem decodeSn_encodes {bs rest : List Byte} {i : Instr} (h : decodeSn bs = .ok (i, rest)) : Encodes bs i rest := by
  cases bs with
  | nil => cases h
  | cons tag r =>
    have hlt := tag.isLt
    obtain htag | htag | htag | htag :
        tag.toNat % 4 = 0 ∨ tag.toNat % 4 = 1 ∨ tag.toNat % 4 = 2 ∨ tag.toNat % 4 = 3 := by omega
    · rw [decodeSn_literal r htag] at h
      exact decodeSnLit_encodes htag h
    · cases r with
      | nil => simp [decodeSn, htag] at h
      | cons b r =>
        rw [decodeSn_copy1 r b htag] at h
        cases h
        exact ⟨rfl, by rw [encode_snCopy1_of_tag htag]; rfl⟩
    · rw [decodeSn_copy2 r htag] at h
      obtain ⟨v, hv, hi, rfl⟩ := decodeWord_eq_ok.mp h
      cases hi
      refine ⟨rfl, ?_⟩
      rw [encode, toNat_ofNat_of_lt (v := v) hv, ofNat_copyTag htag]
      rfl
    · rw [decodeSn_copy4 r htag] at h
      obtain ⟨v, hv, hi, rfl⟩ := decodeWord_eq_ok.mp h
      cases hi
      refine ⟨rfl, ?_⟩
      rw [encode, toNat_ofNat_of_lt (v := v) hv, ofNat_copyTag htag]
      rfl

theorem decodeSn_snLit {lits : List Byte} (hpos : 1 ≤ lits.length) (hle : lits.length ≤ 60) (rest : List Byte) :
    decodeSn (encode (.snLit lits) ++ rest) = .ok (.snLit lits, rest) := by
  have htag : (BitVec.ofNat 8 ((lits.length - 1) * 4)).toNat = (lits.length - 1) * 4 :=
    toNat_ofNat_of_lt (by omega)
  have hv : (lits.length - 1) * 4 / 4 + 1 = lits.length := by omega
  rw [encode, List.cons_append, decodeSn_literal _ (by omega), htag, decodeSnLit_of_lt (by omega), hv]
  simp

/-- The four literals whose length stands after the tag. -/
theorem decodeSn_snLitBytes {mk : List Byte → Instr} {k : Nat} {lits : List Byte} (rest : List Byte) (hk : k ≤ 4)
    (hmk : ∀ r, decodeSnLit (59 + k) r = decodeSnLitExt mk k r) (hlen : 1 ≤ lits.length ∧ lits.length ≤ 256 ^ k) :
    decodeSn (snLitBytes k lits ++ rest) = .ok (mk lits, rest) := by
  have htag : (BitVec.ofNat 8 ((59 + k) * 4)).toNat = (59 + k) * 4 := toNat_ofNat_of_lt (by omega)
  rw [snLitBytes, List.cons_append, List.append_assoc, decodeSn_literal _ (by omega), htag,
    Nat.mul_div_cancel _ (by decide), hmk]
  exact decodeSnLitExt_eq_ok.mpr ⟨lits, hlen, rfl, rfl⟩

theorem decodeSn_snCopy1 (lenM4 : BitVec 3) (offset : BitVec 11) (rest : List Byte) :
    decodeSn (encode (.snCopy1 lenM4 offset) ++ rest) = .ok (.snCopy1 lenM4 offset, rest) := by
  have hlen := lenM4.isLt
  have hoff := offset.isLt
  have htag : (BitVec.ofNat 8 (1 + 4 * lenM4.toNat + 32 * (offset.toNat / 256))).toNat =
    1 + 4 * lenM4.toNat + 32 * (offset.toNat / 256) := toNat_ofNat_of_lt (by omega)
  have hlen' : BitVec.ofNat 3 ((1 + 4 * lenM4.toNat + 32 * (offset.toNat / 256)) / 4) = lenM4 :=
    BitVec.eq_of_toNat_eq (by rw [BitVec.toNat_ofNat]; omega)
  have hoff' : (1 + 4 * lenM4.toNat + 32 * (offset.toNat / 256)) / 32 * 256 + (BitVec.ofNat 8 offset.toNat).toNat =
      offset.toNat := by rw [BitVec.toNat_ofNat]; omega
  rw [encode, List.cons_append, List.singleton_append, decodeSn_copy1 _ _ (by omega), htag, hlen', hoff',
    ofNat_toNat_self]

theorem decodeSn_snCopy2 (lenM1 : BitVec 6) (offset : BitVec 16) (rest : List Byte) :
    decodeSn (encode (.snCopy2 lenM1 offset) ++ rest) = .ok (.snCopy2 lenM1 offset, rest) := by
  have hlen := lenM1.isLt
  have htag : (BitVec.ofNat 8 (2 + 4 * lenM1.toNat)).toNat = 2 + 4 * lenM1.toNat := toNat_ofNat_of_lt (by omega)
  have hdiv : (2 + 4 * lenM1.toNat) / 4 = lenM1.toNat := by omega
  rw [encode, List.cons_append, decodeSn_copy2 _ (by omega), htag, hdiv]
  exact decodeWord_eq_ok.mpr ⟨_, offset.isLt, by simp, rfl⟩

theorem decodeSn_snCopy4 (lenM1 : BitVec 6) (offset : BitVec 32) (rest : List Byte) :
    decodeSn (encode (.snCopy4 lenM1 offset) ++ rest) = .ok (.snCopy4 lenM1 offset, rest) := by
  have hlen := lenM1.isLt
  have htag : (BitVec.ofNat 8 (3 + 4 * lenM1.toNat)).toNat = 3 + 4 * lenM1.toNat := toNat_ofNat_of_lt (by omega)
  have hdiv : (3 + 4 * lenM1.toNat) / 4 = lenM1.toNat := by omega
  rw [encode, List.cons_append, decodeSn_copy4 _ (by omega), htag, hdiv]
  exact decodeWord_eq_ok.mpr ⟨_, offset.isLt, by simp, rfl⟩

/-! ### The statements -/

/-- Settles O3: each format's reader accepts exactly what its writer writes, so no bit of an object is ignored. -/
theorem encodeInvertsDecode : Obligations.EncodeInvertsDecode := by
  intro f bytes i rest h
  refine ⟨(decode_took h).1, ?_⟩
  change Encodes bytes i rest
  cases f <;> dsimp only [decode] at h
  case cmd8 =>
    split at h
    · cases h
    split at h
    · cases h
    · next hi =>
      cases h
      exact decodeCommand_encodes hi
  case lz4Tok => exact decodeLz4_encodes h
  case snVarint =>
    split at h
    · cases h
    next v n r hv =>
    cases h
    obtain ⟨⟨hpos, hfive, hbytes, hbits⟩, rfl⟩ := readVarint_eq_ok.mp hv
    have hv : (BitVec.ofNat 32 v).toNat = v := toNat_ofNat_of_lt (by omega)
    exact ⟨decide_eq_true ⟨hpos, by omega, by rw [hv]; exact hbytes⟩, by rw [encode, hv]⟩
  case snTag => exact decodeSn_encodes h
  case magic32 =>
    obtain ⟨v, -, hi, rfl⟩ := decodeWord_eq_ok.mp h
    split_ifs at hi with hmagic
    cases hi
    exact ⟨rfl, by rw [hmagic]; rfl⟩
  case flg8 =>
    obtain ⟨b, hi, rfl⟩ := decodeWord_one_eq_ok.mp h
    obtain ⟨hwf, hencode⟩ := encode_of_decodeFlg hi
    exact ⟨hwf, by rw [hencode]; rfl⟩
  case bd8 =>
    obtain ⟨b, hi, rfl⟩ := decodeWord_one_eq_ok.mp h
    obtain ⟨hwf, hencode⟩ := encode_of_decodeBd hi
    exact ⟨hwf, by rw [hencode]; rfl⟩
  case csize64 =>
    obtain ⟨v, hv, hi, rfl⟩ := decodeWord_eq_ok.mp h
    cases hi
    exact ⟨rfl, by rw [encode, toNat_ofNat_of_lt hv]⟩
  case hc8 =>
    obtain ⟨b, hi, rfl⟩ := decodeWord_one_eq_ok.mp h
    cases hi
    exact ⟨rfl, by rw [encode, ofNat_eq_of_toNat rfl]; rfl⟩
  case bsw =>
    obtain ⟨v, hv, hi, rfl⟩ := decodeWord_eq_ok.mp h
    cases hi
    obtain ⟨hwf, hencode⟩ := encode_decodeBsw hv
    exact ⟨hwf, by rw [hencode]⟩
  case cchk32 =>
    obtain ⟨v, hv, hi, rfl⟩ := decodeWord_eq_ok.mp h
    cases hi
    exact ⟨rfl, by rw [encode, toNat_ofNat_of_lt hv]⟩

/-- Settles O2: what the writer of an instruction writes, the reader of its format takes back whole. -/
theorem decodeInvertsEncode : Obligations.DecodeInvertsEncode := by
  intro i rest hwf hlast
  cases i
  case lz4Seq lits offset mlen => exact decodeLz4_lz4Seq lits offset (of_decide_eq_true hwf) rest
  case lz4Last ml lits =>
    rw [hlast ml lits rfl, List.append_nil]
    exact decodeLz4_lz4Last ml lits
  case snLen value nbytes =>
    obtain ⟨hpos, hfive, hbytes⟩ := of_decide_eq_true hwf
    have hread := readVarint_eq_ok.mpr
      ⟨⟨hpos, by omega, hbytes, value.isLt⟩, rfl (a := varintBytes nbytes value.toNat ++ rest)⟩
    simp [Instr.format, encode, decode, hread]
  case snLit lits =>
    obtain ⟨hpos, hle⟩ := of_decide_eq_true hwf
    exact decodeSn_snLit hpos hle rest
  case snLit1 lits => exact decodeSn_snLitBytes (k := 1) rest (by decide) (fun _ => rfl) (of_decide_eq_true hwf)
  case snLit2 lits => exact decodeSn_snLitBytes (k := 2) rest (by decide) (fun _ => rfl) (of_decide_eq_true hwf)
  case snLit3 lits => exact decodeSn_snLitBytes (k := 3) rest (by decide) (fun _ => rfl) (of_decide_eq_true hwf)
  case snLit4 lits => exact decodeSn_snLitBytes (k := 4) rest (by decide) (fun _ => rfl) (of_decide_eq_true hwf)
  case snCopy1 lenM4 offset => exact decodeSn_snCopy1 lenM4 offset rest
  case snCopy2 lenM1 offset => exact decodeSn_snCopy2 lenM1 offset rest
  case snCopy4 lenM1 offset => exact decodeSn_snCopy4 lenM1 offset rest
  case lz4fMagic =>
    dsimp only [Instr.format, encode, decode]
    exact decodeWord_leBytes rest (by decide) (if_pos rfl)
  case lz4fFlg bIndep cSize cChecksum =>
    exact decodeWord_one_eq_ok.mpr ⟨_, decodeFlg_flgByte bIndep cSize cChecksum, rfl⟩
  case lz4fBd classM4 => exact decodeWord_one_eq_ok.mpr ⟨_, decodeBd_bdByte classM4, rfl⟩
  case lz4fCsize size =>
    dsimp only [Instr.format, encode, decode]
    exact decodeWord_leBytes rest size.isLt (by simp)
  case lz4fHc hc =>
    dsimp only [Instr.format, encode, decode]
    exact decodeWord_one_eq_ok.mpr ⟨hc, by simp, rfl⟩
  case lz4fEnd =>
    dsimp only [Instr.format, encode, decode]
    exact decodeWord_leBytes rest (by decide) rfl
  case lz4fBlock blen =>
    have hblen : blen ≠ 0 := of_decide_eq_true hwf
    dsimp only [Instr.format, encode, decode]
    exact decodeWord_leBytes rest (blen.isLt.trans (by decide)) (congrArg Except.ok (decodeBsw_blen hblen))
  case lz4fStored blen =>
    dsimp only [Instr.format, encode, decode]
    exact decodeWord_leBytes rest (by omega) (congrArg Except.ok (decodeBsw_stored blen))
  case lz4fCchk checksum =>
    dsimp only [Instr.format, encode, decode]
    exact decodeWord_leBytes rest checksum.isLt (by simp)
  all_goals rfl

end Sys2Proof
end

section
/-! SUPPORT. Which bytes are no instruction of their format, and fixed words (30_encoding.md rules R52 to R77). -/

namespace Sys2Proof

theorem decode_cmd8_accepts (b : Byte) (r : List Byte) :
    (∃ i, decode .cmd8 (b :: r) = .ok (i, r)) ↔ 1 ≤ b.toNat ∧ b.toNat ≤ 10 := by
  have hcodes : ∀ b : Byte, (decodeCommand b).isSome = true ↔ 1 ≤ b.toNat ∧ b.toNat ≤ 10 := by decide
  rw [← hcodes]
  cases h : decodeCommand b <;> simp [decode, h]

/-- A field that is all there is read by its value. -/
theorem decodeWord_append (bs r : List Byte) (f : Nat → Except DecodeError Instr) :
    decodeWord bs.length (bs ++ r) f = (f (leNat bs)).map (·, r) := by
  rw [decodeWord, if_neg (by simp), List.take_left, List.drop_left]
  cases f (leNat bs) <;> rfl

theorem decodeWord_one_cons (b : Byte) (r : List Byte) (f : Nat → Except DecodeError Instr) :
    decodeWord 1 (b :: r) f = (f b.toNat).map (·, r) :=
  decodeWord_append [b] r f

theorem decode_flg8_cons (b : Byte) (r : List Byte) :
    decode .flg8 (b :: r) =
      if b &&& 0xD3 = 0x40 then .ok (.lz4fFlg (b.toNat.testBit 5) (b.toNat.testBit 3) (b.toNat.testBit 2), r)
      else .error .badFlg := by
  rw [decode, decodeWord_one_cons, decodeFlg, ofNat_eq_of_toNat rfl]
  split_ifs <;> rfl

theorem decode_bd8_cons (b : Byte) (r : List Byte) :
    decode .bd8 (b :: r) =
      if b &&& 0xCF = 0x40 then .ok (.lz4fBd (BitVec.ofNat 2 (b.toNat / 16)), r) else .error .badBd := by
  rw [decode, decodeWord_one_cons, decodeBd, ofNat_eq_of_toNat rfl]
  split_ifs <;> rfl

/-- The four bytes of the magic are those of its number, lowest first (00_scope.md rule R4). -/
theorem leNat_eq_magic (b0 b1 b2 b3 : Byte) :
    leNat [b0, b1, b2, b3] = lz4fMagicWord ↔ b0 = 0x04 ∧ b1 = 0x22 ∧ b2 = 0x4D ∧ b3 = 0x18 := by
  constructor
  · intro h
    have hbytes := leBytes_leNat [b0, b1, b2, b3]
    rw [h, show leBytes [b0, b1, b2, b3].length lz4fMagicWord = [0x04, 0x22, 0x4D, 0x18] from rfl] at hbytes
    simpa using hbytes.symm
  · rintro ⟨rfl, rfl, rfl, rfl⟩
    rfl

theorem decode_magic32_cons (b0 b1 b2 b3 : Byte) (r : List Byte) :
    decode .magic32 (b0 :: b1 :: b2 :: b3 :: r) =
      if b0 = 0x04 ∧ b1 = 0x22 ∧ b2 = 0x4D ∧ b3 = 0x18 then .ok (.lz4fMagic, r) else .error .badMagic := by
  rw [decode, show decodeWord 4 (b0 :: b1 :: b2 :: b3 :: r) _ = _ from decodeWord_append [b0, b1, b2, b3] r _]
  simp only [leNat_eq_magic]
  split_ifs <;> rfl

theorem accepted_iff {c : Prop} [Decidable c] {i : Instr} {e : DecodeError} {r : List Byte} :
    (∃ j, (if c then .ok (i, r) else .error e : Except DecodeError (Instr × List Byte)) = .ok (j, r)) ↔ c := by
  split_ifs with h <;> simp [h]

theorem accepted_of_ne_error {c : Prop} [Decidable c] {i : Instr} {e : DecodeError} {r : List Byte}
    (h : (if c then .ok (i, r) else .error e : Except DecodeError (Instr × List Byte)) ≠ .error e) :
    ∃ j, (if c then .ok (i, r) else .error e : Except DecodeError (Instr × List Byte)) = .ok (j, r) :=
  accepted_iff.mpr (by_contra fun hc => h (if_neg hc))

/-- Settles O4: each one-byte object is tested by one mask, whose 256 cases are the bits the rules name. -/
theorem reservedEncodingsRejected : Obligations.ReservedEncodingsRejected := by
  have hflg : ∀ b : Byte, b &&& 0xD3 = 0x40 ↔
      b.toNat / 64 = 1 ∧ b.getLsbD 4 = false ∧ b.getLsbD 1 = false ∧ b.getLsbD 0 = false := by decide
  have hbd : ∀ b : Byte, b &&& 0xCF = 0x40 ↔ b = 0x40 ∨ b = 0x50 ∨ b = 0x60 ∨ b = 0x70 := by decide
  refine ⟨decode_cmd8_accepts, fun b r => ?_, fun b r => ?_, fun b r => ?_, fun b r => ?_, decode_magic32_cons⟩
  · rw [decode_flg8_cons, accepted_iff]
    exact hflg b
  · rw [decode_flg8_cons]
    exact accepted_of_ne_error
  · rw [decode_bd8_cons, accepted_iff]
    exact hbd b
  · rw [decode_bd8_cons]
    exact accepted_of_ne_error

/-- Settles O1: the decoder evaluates on each of the words. -/
theorem specWordsDecode : Obligations.SpecWordsDecode :=
  ⟨rfl, rfl, rfl, rfl, rfl, rfl, rfl, rfl, rfl, rfl, rfl, rfl, rfl, rfl, rfl⟩

end Sys2Proof
end

section
/-! SUPPORT. A frame is made of the block of the same input; the two block size words that copy no byte. -/

namespace Sys2Proof.Machine

/-- A launch of `LZ4F.COMPRESS` that is accepted would be accepted as one of `LZ4B.COMPRESS`, which has one limit less
(70_reset_and_hazards.md rule R206). -/
theorem exec_lz4bCompress_of_lz4fCompress {s t : State} (hb : s.status ≠ .busy) (h : exec .lz4fCompress s = .next t) :
    ∃ b, exec .lz4bCompress s = .next b := by
  have hf : compressRefusal (some lz4fMaxIn) s = none := (exec_next_iff rfl hb).mp ⟨t, h⟩
  obtain ⟨-, hcells, hbufs⟩ := (compressRefusal_eq_none _ s).mp hf
  exact (exec_next_iff rfl hb).mpr ((compressRefusal_eq_none none s).mpr ⟨rfl, hcells, hbufs⟩)

/-- The frame's bytes, spelled out around those of its block (43_lz4_frame.md rule R122). -/
theorem compressBytes_lz4fCompress (s : State) :
    let desc : List Byte := flgByte true (optCsize s) (optCchk s) :: 0x70 ::
      (if optCsize s = true then leBytes 8 s.contentSize.toNat else [])
    compressBytes .lz4fCompress s =
      [0x04, 0x22, 0x4D, 0x18] ++ desc ++ [headerChecksum desc] ++ leBytes 4 (compressBytes .lz4bCompress s).length ++
        compressBytes .lz4bCompress s ++ [0, 0, 0, 0] ++
        (if optCchk s = true then leBytes 4 (xxh32 (inBytes s 0 s.inLen) 0).toNat else []) := by
  intro desc
  have hheader : lz4fHeaderBytes s.opts s.contentSize = [0x04, 0x22, 0x4D, 0x18] ++ desc := rfl
  have htrailer : lz4fTrailerBytes s.inMem s.inLen s.opts = [0, 0, 0, 0] ++
      if optCchk s = true then leBytes 4 (xxh32 (inBytes s 0 s.inLen) 0).toNat else [] := rfl
  simp only [compressBytes, lz4fBytes, hheader, htrailer, List.append_assoc]
  rfl

theorem ite_nil_length (c : Bool) (bs : List Byte) : (if c = true then bs else []).length = bs.length * c.toNat := by
  cases c <;> simp

/-- Settles O28: the frame's bytes contain the block's, so the block fits where the frame does. -/
theorem frameWrapsBlock : Obligations.FrameWrapsBlock := by
  intro s t hb hw h hdone desc
  obtain ⟨b, hexec⟩ := exec_lz4bCompress_of_lz4fCompress hb h
  have hbytes := compressBytes_lz4fCompress s
  have hlen := congrArg List.length hbytes
  simp only [List.length_append, List.length_cons, List.length_nil, leBytes_length, ite_nil_length] at hlen
  obtain ⟨hfits, ⟨-, -, htlen, -⟩, htout⟩ | ⟨-, herror, -⟩ := exec_compress_outcome (.inr (.inl rfl)) hb hw h
  · obtain ⟨-, ⟨hbdone, -, hblen, -⟩, hbout⟩ | ⟨hfull, -⟩ := exec_compress_outcome (.inl rfl) hb hw hexec
    · refine ⟨b, hexec, hbdone, ?_, ?_⟩
      · omega
      · rw [htlen, htout, hblen, hbout]
        exact hbytes
    · omega
  · exact absurd (hdone.symm.trans herror) (by decide)

theorem exec_lz4fEnd_eq (s : State) :
    exec .lz4fEnd s = .next
      (if s.flg.getLsbD 2 = true then { s with bs := 0, ip := s.ip + 4, phase := .cchk }
      else State.complete 0 { s with bs := 0, ip := s.ip + 4 }) := rfl

theorem blockLoop_of_lt {s : State} (h : s.ip < s.endIdx) : blockLoop s = s := if_pos h

/-- Where the block is within the input and not empty, its loop goes on at its first token. -/
theorem exec_lz4fBlock_eq {blen : BitVec 31} (hblen : blen ≠ 0) (s : State) :
    exec (.lz4fBlock blen) s = .next
      (if s.curLen - (s.ip + 4) < blen.toNat then (afterBlockWord false blen s).fail .unexpectedEof
      else { afterBlockWord false blen s with
        base := if s.flg.getLsbD 5 = true then s.op else 0, endIdx := s.ip + 4 + blen.toNat,
        phase := .frameBlock }) := by
  have hpos : 0 < blen.toNat := Nat.pos_of_ne_zero fun h => hblen (BitVec.eq_of_toNat_eq h)
  have hloop : s.ip + 4 < s.ip + 4 + blen.toNat := Nat.lt_add_of_pos_right hpos
  refine congrArg Host.Outcome.next ((lz4fBlockWord_settle false blen s _).trans ?_)
  rw [Run_settle_ok, blockLoop_of_lt]
  · rfl
  · exact hloop

/-- Settles O39: each word raises, ends the command or moves on in one update, and none of these writes `OUT`. -/
theorem frameBlockWords : Obligations.FrameBlockWords := by
  intro s
  refine ⟨?_, fun blen hblen => ?_⟩
  · have hexec := exec_lz4fEnd_eq s
    refine ⟨_, hexec, exec_element_hostSide (by simp [Instr.format]) hexec, ?_⟩
    split_ifs
    · exact ⟨fun _ => rfl, rfl, rfl⟩
    · exact ⟨fun _ => rfl, rfl, rfl, rfl, rfl, rfl, rfl⟩
  · have hexec := exec_lz4fBlock_eq hblen s
    refine ⟨_, hexec, exec_element_hostSide (by simp [Instr.format]) hexec, ?_⟩
    by_cases hin : s.curLen - (s.ip + 4) < blen.toNat
    · rw [if_pos hin, if_pos hin]
      exact (Raised.fail_outSame _ rfl).symm
    · rw [if_neg hin, if_neg hin]
      exact ⟨fun _ => rfl, rfl⟩

end Sys2Proof.Machine
end

section
/-! SUPPORT. The encoder's varint is the minimal one, a varint beyond 32 bits is rejected, and the launch that would write
one is refused (40_varint_length_codecs.md rules R80, R81, R84). -/

namespace Sys2Proof.Machine

/-- The encoder writes a varint of the least number of bytes that hold the value (40_varint_length_codecs.md rule R80). -/
theorem varintEncode_eq_varintBytes {fuel v : Nat} (hfuel : 1 ≤ fuel) (hv : v < 128 ^ fuel) :
    ∃ m, varintEncode fuel v = varintBytes (m + 1) v ∧ m < fuel ∧ v < 128 ^ (m + 1) ∧ (m = 0 ∨ 128 ^ m ≤ v) := by
  induction fuel generalizing v with
  | zero => exact absurd hfuel (by decide)
  | succ fuel ih =>
    rcases Nat.lt_or_ge v 128 with hlow | hhigh
    · exact ⟨0, if_pos hlow, hfuel, hlow, .inl rfl⟩
    · have hfuel' : 1 ≤ fuel := Nat.pos_of_ne_zero fun h => by subst h; omega
      obtain ⟨m, he, hle, hlt, hmin⟩ := ih (v := v / 128) hfuel' (by rw [Nat.pow_succ] at hv; omega)
      refine ⟨m + 1, ?_, by omega, by rw [Nat.pow_succ]; omega, .inr ?_⟩
      · rw [varintEncode, if_neg (Nat.not_lt.mpr hhigh), he, varintBytes]
      · rcases hmin with rfl | hmin
        · exact hhigh
        · rw [Nat.pow_succ]
          omega

/-- The fifth byte may hold four bits, and nothing may follow it (40_varint_length_codecs.md rule R81). -/
theorem readVarint_four_cons {b : Byte} (r : List Byte) (h : 15 < b.toNat) : readVarint 4 (b :: r) = .error .badVarint := by
  rw [readVarint, if_pos ⟨rfl, h⟩]

/-- A varint that reaches the fifth byte and holds more than the bits of the 32 that are left is rejected there. -/
theorem readVarint_varintBytes_too_large {k v n : Nat} (rest : List Byte) (hk : k ≤ 4) (hkn : 5 ≤ k + n)
    (hv : v < 128 ^ n) (hbig : 2 ^ 32 / 128 ^ k ≤ v) : readVarint k (varintBytes n v ++ rest) = .error .badVarint := by
  have hbyte (a : Nat) (ha : a < 128) : (BitVec.ofNat 8 (a + 128)).toNat = a + 128 := toNat_ofNat_of_lt (by omega)
  have hmod : v % 128 < 128 := Nat.mod_lt _ (by decide)
  induction n generalizing k v with
  | zero => omega
  | succ n ih =>
    rcases Nat.eq_zero_or_pos n with rfl | hn
    · obtain rfl : k = 4 := by omega
      have hlast : (BitVec.ofNat 8 v).toNat = v := toNat_ofNat_of_lt (by omega)
      exact readVarint_four_cons _ (by rw [hlast]; omega)
    · rw [← Nat.mod_add_div v 128, varintBytes_succ hmod hn, List.cons_append]
      rcases Nat.lt_or_eq_of_le hk with hk4 | rfl
      · have hrest := ih (k := k + 1) (v := v / 128) hk4 (by omega) (by rw [Nat.pow_succ] at hv; omega)
          (by rw [Nat.pow_succ (m := k), ← Nat.div_div_eq_div_mul]; exact Nat.div_le_div_right hbig)
          (Nat.mod_lt _ (by decide))
        rw [readVarint_cons_high (by omega) (by rw [hbyte _ hmod]; omega), hrest]
        rfl
      · exact readVarint_four_cons _ (by rw [hbyte _ hmod]; omega)

/-- Below `2^32` the encoder's varint is one of at most five bytes. -/
theorem readVarint_varintEncode {v : Nat} (rest : List Byte) (hv : v < 2 ^ 32) :
    readVarint 0 (varintEncode 10 v ++ rest) = .ok (v, (varintEncode 10 v).length, rest) := by
  obtain ⟨m, he, -, hlt, hmin⟩ := varintEncode_eq_varintBytes (fuel := 10) (v := v) (by decide) (by omega)
  have hm : m < 5 := by
    by_contra h5
    have hpow : 128 ^ 5 ≤ 128 ^ m := Nat.pow_le_pow_right (by decide) (by omega)
    omega
  rw [he, varintBytes_length]
  exact readVarint_eq_ok.mpr ⟨⟨by omega, by omega, hlt, by omega⟩, rfl⟩

/-- From `2^32` on the encoder's varint has at least five bytes, and the decoder rejects it. -/
theorem readVarint_varintEncode_too_large {v : Nat} (rest : List Byte) (hlo : 2 ^ 32 ≤ v) (hhi : v < 2 ^ 64) :
    5 ≤ (varintEncode 10 v).length ∧ (varintEncode 10 v).length ≤ 10 ∧
      readVarint 0 (varintEncode 10 v ++ rest) = .error .badVarint := by
  obtain ⟨m, he, hm10, hlt, -⟩ := varintEncode_eq_varintBytes (fuel := 10) (v := v) (by decide) (by omega)
  have hm : 4 ≤ m := by
    by_contra h4
    have hpow : 128 ^ (m + 1) ≤ 128 ^ 4 := Nat.pow_le_pow_right (by decide) (by omega)
    omega
  rw [he, varintBytes_length]
  exact ⟨by omega, hm10, readVarint_varintBytes_too_large rest (by decide) (by omega) hlt (by omega)⟩

/-- Where no command runs, a launch is refused for the reason its test names. -/
theorem exec_refused_of_commandRefusal {i : Instr} {s : State} {r : Refusal} (hi : i.format = .cmd8)
    (hb : s.status ≠ .busy) (h : commandRefusal i s = some r) : exec i s = .refused r := by
  obtain ⟨code, body, e⟩ := exec_eq_launch hi
  rw [e, launch, if_neg hb, h]

/-- The command's limit is tested before anything else (70_reset_and_hazards.md rule R206). -/
theorem compressRefusal_of_overLimit {limit : Option Nat} {s : State} (h : overLimit limit s.inLen = true) :
    compressRefusal limit s = some .inputTooLong :=
  if_pos h

/-- Settles O5: the encoder's varint is the minimal `varintBytes`, which the decoder reads exactly where it fits 32 bits;
the LZ4 extension is read exactly where its writer's bytes stand. -/
theorem lengthCodecLaws : Obligations.LengthCodecLaws := by
  refine ⟨fun v rest => readVarint_varintEncode rest, fun r rest => readLz4LenExt_eq_some.mpr rfl, fun bytes r h => ?_,
    ?_, fun v rest => readVarint_varintEncode_too_large rest, fun s hb hlen => ?_⟩
  · rw [← readLz4LenExt_eq_some.mp h, List.append_nil]
  · exact ⟨[0x00], [0x80, 0x00], by decide, 0, 1, 2, rfl, rfl⟩
  · have hover : overLimit (some snMaxIn) s.inLen = true := (overLimit_some _ _).mpr hlen
    exact exec_refused_of_commandRefusal rfl hb (compressRefusal_of_overLimit hover)

end Sys2Proof.Machine
end

section
/-! SUPPORT. What a step is where the bytes at `ip` are no element, and the kind a cut object raises (60_exceptions.md rule
R189). -/

namespace Sys2Proof.Machine

/-- When the engine moves and the bytes at `ip` are no element, the step is what the engine does with them. -/
theorem step_of_badElement {s s0 : State} {f : Format} {e : DecodeError} (hm : EngineMoves s s0)
    (hp : phaseFormat s.phase = some f) (hd : decode f (fetchBytes s) = .error e) :
    step s = .next (badElement e s0) := by
  have hs0 := EngineMoves_eq hm
  refine step_of_out ((nextEvent_of_EngineMoves hm).trans ?_)
  rw [hs0]
  simp only [engineEvent, hp, show fetchBytes { s with host := s0.host } = fetchBytes s from rfl, hd]

/-- A cut object is `InvalidData` in the preamble and in the frame header alone (60_exceptions.md rule R189). -/
theorem cutKind_eq (p : Phase) :
    cutKind p = if p = .snLen ∨ p = .magic ∨ p = .flg ∨ p = .bd ∨ p = .csize ∨ p = .hc then .invalidData
      else .unexpectedEof := by
  cases p <;> rfl

/-- A raise where the engine's move begins leaves all that is the host's and `OUT`. -/
theorem fail_of_EngineMoves {s s0 : State} (hm : EngineMoves s s0) (k : ErrKind) :
    HostSideSame s0 (s0.fail k) ∧ OutSame s (s0.fail k) ∧ Raised k (s0.fail k) := by
  have hout : s0.outMem = s.outMem := by rw [EngineMoves_eq hm]
  exact ⟨.refl s0, (Raised.fail_outSame k hout).symm⟩

/-- Settles O7: but for an LZ4 sequence cut after its literals, the engine raises before it does anything else. -/
theorem badObjectKind : Obligations.BadObjectKind := by
  intro s s0 f e hm hp hd
  have hstep := step_of_badElement hm hp hd
  refine ⟨?_, ?_⟩
  · rintro rfl
    have hphase : s0.phase = s.phase := by rw [EngineMoves_eq hm]
    rw [← cutKind_eq, ← hphase]
    exact ⟨_, hstep, fail_of_EngineMoves hm _⟩
  · rintro (rfl | rfl | rfl | rfl)
    all_goals exact ⟨_, hstep, fail_of_EngineMoves hm .invalidData⟩

end Sys2Proof.Machine
end

section
/-! SUPPORT. What the match finder's operations compute (41_match_finder.md): the hash, the scan step, the match
extension and the match copy. -/

namespace Sys2Proof.Machine

/-! ### The hash -/

/-- The wrapped product has 32 bits, so what is left of it after the shift fits the 14 bits of a slot (rule R90). -/
theorem hash4_toNat (w mult : BitVec 32) : (hash4 w mult).toNat = w.toNat * mult.toNat % 2 ^ 32 / 2 ^ 18 := by
  have hslot : (w * mult).toNat / 2 ^ 18 < 2 ^ 14 := Nat.div_lt_of_lt_mul (w * mult).isLt
  rw [hash4, toNat_ofNat_of_lt hslot, BitVec.toNat_mul]

/-- Settles O58: the shifted product needs no further truncation; the examples are evaluated. -/
theorem hashIndex : Obligations.HashIndex :=
  ⟨hash4_toNat, by decide⟩

/-! ### The scan step -/

/-- Four bytes of a buffer make a word of 32 bits, so the register `w` holds it whole. -/
theorem word_toNat (m : Memory) (i : Nat) : (BitVec.ofNat 32 (Memory.readLE m i 4)).toNat = Memory.readLE m i 4 := by
  have hlt := leNat_lt (Memory.slice m i 4)
  rw [Memory_slice_length] at hlt
  exact toNat_ofNat_of_lt hlt

/-- The scan step leaves the probe's state but for the register `c`, and answers `candidate` (rule R92). -/
theorem findMatch_eq_candidate (mult : BitVec 32) (s : State) :
    ∃ c, findMatch mult s = ({ probe mult s with c := c }, candidate mult s.inMem s.ht s.i) := by
  rw [candidate, findMatch]
  by_cases hempty : HashTable.cell s.ht (probeSlot mult s.inMem s.i) = 0
  · rw [if_pos hempty]
    exact ⟨s.c, if_pos hempty⟩
  · rw [if_neg hempty]
    refine ⟨(probe mult s).cand - 1, (if_neg hempty).trans ?_⟩
    simp only [apply_ite (Prod.mk _)]
    rfl

/-- A candidate is the position the cell names, where it is near enough and has the word at `i` (rule R92). -/
theorem candidate_eq_some {mult : BitVec 32} {m : Memory} {ht : HashTable} {i c : Nat} :
    candidate mult m ht i = some c ↔
      HashTable.cell ht (probeSlot mult m i) = c + 1 ∧ i - c ≤ maxOffset ∧
        Memory.readLE m c 4 = Memory.readLE m i 4 := by
  rw [candidate, word_toNat]
  cases HashTable.cell ht (probeSlot mult m i) with
  | zero => simp
  | succ d =>
    rw [if_neg (Nat.succ_ne_zero d), Nat.add_sub_cancel, Nat.add_right_cancel_iff]
    split_ifs with hfar hword
    · refine iff_of_false nofun ?_
      rintro ⟨rfl, hnear, -⟩
      omega
    · rw [Option.some_inj]
      refine ⟨?_, And.left⟩
      rintro rfl
      exact ⟨rfl, Nat.not_lt.mp hfar, hword⟩
    · refine iff_of_false nofun ?_
      rintro ⟨rfl, -, hsame⟩
      exact hword hsame

theorem cell_inserted {ht : HashTable} (hht : HashTable.wf ht) (mult : BitVec 32) (m : Memory) (i k : Nat) :
    HashTable.cell (inserted mult m ht i) k = if k = probeSlot mult m i then i + 1 else HashTable.cell ht k := by
  split
  · next h => rw [h]; exact HashTable_cell_setCell_self hht _ _
  · next h => exact HashTable_cell_setCell_ne ht h _

/-- Settles O56: the state is the probe's but for `c`, and the answer is `candidate`. -/
theorem findMatchResult : Obligations.FindMatchResult := by
  intro mult s hht hcells
  obtain ⟨c', hfind⟩ := findMatch_eq_candidate mult s
  simp only [hfind]
  refine ⟨rfl, word_toNat s.inMem s.i, rfl, cell_inserted hht mult s.inMem s.i, fun c hc => ?_, fun hnone => ?_⟩
  · obtain ⟨hold, hnear, hword⟩ := candidate_eq_some.mp hc
    have hle := hcells (probeSlot mult s.inMem s.i)
    exact ⟨hold, by omega, hnear, hword⟩
  · by_contra! hcon
    obtain ⟨hold, hnear, hword⟩ := hcon
    have hsome := candidate_eq_some.mpr ⟨(Nat.succ_pred hold).symm, hnear, hword⟩
    exact Option.some_ne_none _ (hsome.symm.trans hnone)

/-! ### The match extension -/

/-- Where `MatchExtend` stops short of its limit, the next bytes differ (rule R95). -/
theorem matchExtend_stops (m : Memory) (a b n : Nat) (h : matchExtend m a b n < n) :
    Memory.read m (a + matchExtend m a b n) ≠ Memory.read m (b + matchExtend m a b n) := by
  induction n generalizing a b with
  | zero => omega
  | succ n ih =>
    unfold matchExtend at h ⊢
    split_ifs at h ⊢ with heq
    · have := ih (a + 1) (b + 1) (by omega)
      rwa [Nat.add_right_comm, Nat.add_right_comm b] at this
    · exact heq

/-- Settles O55: each unit of the length is a pair of equal bytes, and the first unequal pair ends it. -/
theorem matchExtendIsLongest : Obligations.MatchExtendIsLongest := fun m a b max =>
  ⟨matchExtend_le m a b max, fun _ hj => matchExtend_agree m a b max hj, matchExtend_stops m a b max⟩

/-! ### The match copy -/

/-- The bytes a match copy writes are those before `op`, over and over (rule R97). -/
theorem matchMem_pattern {offset op n k : Nat} {m : Memory} (hoff : 1 ≤ offset) (hm : Memory.wf m)
    (hop : offset ≤ op) (hk : k < n) :
    Memory.read (matchMem offset n m op) (op + k) = Memory.read m (op - offset + k % offset) := by
  induction k using Nat.strong_induction_on with
  | _ k ih =>
    rw [matchMem_repeats hoff n hm hop hk]
    rcases Nat.lt_or_ge k offset with hlt | hge
    · rw [matchMem_outside _ _ _ (by omega), Nat.mod_eq_of_lt hlt, Nat.sub_add_comm hop]
    · rw [Nat.add_sub_assoc hge, ih (k - offset) (by omega) (by omega), ← Nat.mod_eq_sub_mod hge]

/-- Settles O54: every byte written repeats the one `offset` before it, and so, period by period, one of the pattern. -/
theorem matchCopyRepeatsPattern : Obligations.MatchCopyRepeatsPattern := by
  intro offset n s hwf hoff hop
  rw [matchCopy_eq]
  exact ⟨fun k hk => matchMem_pattern hoff hwf hop hk, fun a ha => matchMem_outside offset n s.outMem ha, rfl⟩

end Sys2Proof.Machine
end

section
/-! SUPPORT. The two elements of an LZ4 block where every test passes, and a sequence that is cut after its literals
(42_lz4_block.md rules R108, R113, R114). -/

namespace Sys2Proof.Machine

/-! ### Where the elements leave `ip` -/

/-- The last sequence of a block is its literals alone. -/
theorem afterLiterals_eq {token : Byte} {ml : BitVec 4} {lits : List Byte} {s : State} {ip : Nat}
    (h : ip = s.ip + (Instr.lz4Last ml lits).size) :
    afterLiterals token lits s =
      { s with token := token, lit := lits.length, ip := ip, op := s.op + lits.length,
               outMem := Memory.writeBytes s.outMem s.op lits } := by
  obtain rfl : ip = s.ip + 1 + lz4FieldExtSize lits.length + lits.length := by
    simp only [h, Instr.size]
    omega
  rfl

/-- The state after a sequence's match, from the one before its token. -/
def afterSequence (lits : List Byte) (offset : BitVec 16) (mlen : Nat) (s : State) : State :=
  afterMatch mlen (afterOffset offset (afterLiterals (lz4Token lits.length (mlen - 4)) lits s))

/-- `OUT` after a sequence: its literals, then its match. -/
def sequenceMem (lits : List Byte) (offset : BitVec 16) (mlen : Nat) (m : Memory) (op : Nat) : Memory :=
  matchMem (BitVec.ofNat 32 offset.toNat).toNat mlen (Memory.writeBytes m op lits) (op + lits.length)

theorem afterSequence_eq {lits : List Byte} {offset : BitVec 16} {mlen : Nat} {s : State} {ip : Nat}
    (h : ip = s.ip + (Instr.lz4Seq lits offset mlen).size) :
    afterSequence lits offset mlen s =
      { s with token := lz4Token lits.length (mlen - 4), lit := lits.length, offset := BitVec.ofNat 32 offset.toNat,
               ml := mlen - 4, mlen := mlen, ip := ip, op := s.op + lits.length + mlen,
               outMem := sequenceMem lits offset mlen s.outMem s.op } := by
  obtain rfl : ip = s.ip + 1 + lz4FieldExtSize lits.length + lits.length + 2 + lz4FieldExtSize (mlen - 4) := by
    simp only [h, Instr.size]
    omega
  simp only [afterSequence, afterMatch, atMatch, afterOffset, afterLiterals, atLiterals, sequenceMem]

/-! ### What a sequence writes -/

/-- A sequence appends its literals, then its match, whose bytes repeat those `offset` before them. -/
theorem outHolds_of_sequenceMem {lits : List Byte} {offset : BitVec 16} {mlen : Nat} {s t : State}
    (hw : Memory.wf s.outMem) (hne : offset ≠ 0) (hoff : offset.toNat ≤ s.op + lits.length)
    (ho : t.outMem = sequenceMem lits offset mlen s.outMem s.op) :
    OutHolds s.op lits t ∧ OutRepeats (s.op + lits.length) offset.toNat mlen t ∧
      OutSameOutside s.op (s.op + lits.length + mlen) s t := by
  have hpos : 1 ≤ offset.toNat := Nat.pos_of_ne_zero fun h => hne (BitVec.eq_of_toNat_eq h)
  have h32 : (BitVec.ofNat 32 offset.toNat).toNat = offset.toNat := toNat_ofNat_of_lt (by omega)
  rw [sequenceMem, h32] at ho
  rw [OutHolds, OutRepeats, OutSameOutside, ho]
  refine ⟨fun k hk => ?_, fun k hk => ?_, fun a ha => ?_⟩
  · rw [matchMem_outside _ _ _ (.inl (by omega)), Memory_read_writeBytes hw _ _ hk]
  · exact matchMem_repeats hpos mlen (Memory_writeBytes_wf hw _ _) hoff hk
  · rw [matchMem_outside _ _ _ (by omega), Memory_read_writeBytes_outside _ _ (by omega)]

/-! ### The elements that pass their tests -/

/-- With room for its literals, the last sequence copies them and the block goes on or ends. -/
theorem exec_lz4Last_fits (ml : BitVec 4) {lits : List Byte} {s : State} (hmax : s.op + lits.length ≤ s.maxOut)
    (hcap : s.op + lits.length ≤ s.outCap) :
    exec (.lz4Last ml lits) s = .next (blockLoop (afterLiterals (lz4Token lits.length ml.toNat) lits s)) := by
  rw [exec_lz4Last_eq, if_neg (by omega), if_neg (by omega)]

/-- With room for both runs and a valid offset, a sequence copies both and the block goes on or ends. -/
theorem exec_lz4Seq_fits {lits : List Byte} {offset : BitVec 16} {mlen : Nat} {s : State}
    (hmax : s.op + lits.length + mlen ≤ s.maxOut) (hcap : s.op + lits.length + mlen ≤ s.outCap) (hne : offset ≠ 0)
    (hoff : offset.toNat ≤ s.op + lits.length - s.base) :
    exec (.lz4Seq lits offset mlen) s = .next (blockLoop (afterSequence lits offset mlen s)) := by
  have hvalid : ¬(offset = 0 ∨ s.op + lits.length - s.base < offset.toNat) := by
    rintro (h | h)
    · exact hne h
    · omega
  rw [exec_lz4Seq_eq, if_neg (by omega), if_neg (by omega), if_neg hvalid, if_neg (by omega), if_neg (by omega)]
  rfl

/-- Settles O32: the literals stand at `op` and `ip` at the block's end, so the loop leaves the block. -/
theorem lz4Last : Obligations.Lz4Last := by
  intro ml lits s hw _ hmax hcap hend
  have hexec := exec_lz4Last_fits ml hmax hcap
  refine ⟨_, hexec, exec_element_hostSide (by simp [Instr.format]) hexec, ?_⟩
  rw [afterLiterals_eq hend, blockLoop, if_neg (lt_irrefl _), blockEnd]
  obtain ⟨hholds, hsame⟩ := outHolds_of_writeBytes (lits := lits)
    (t := { s with outMem := Memory.writeBytes s.outMem s.op lits }) hw rfl
  dsimp only
  split_ifs
  · exact ⟨rfl, hholds, hsame, rfl⟩
  · exact ⟨rfl, hholds, hsame, rfl, rfl, rfl, rfl, rfl⟩

/-- Settles O33: after the two runs the loop goes on, or leaves the block where `ip` has reached its end. -/
theorem lz4Sequence : Obligations.Lz4Sequence := by
  intro lits offset mlen s _ hw hphase hmax hcap hne hoff n ip op
  have hexec := exec_lz4Seq_fits hmax hcap hne hoff
  refine ⟨_, hexec, exec_element_hostSide (by simp [Instr.format]) hexec, ?_⟩
  rw [afterSequence_eq (ip := ip) rfl]
  obtain ⟨hholds, hrepeats, hsame⟩ := outHolds_of_sequenceMem (lits := lits) (mlen := mlen)
    (t := { s with outMem := sequenceMem lits offset mlen s.outMem s.op }) hw hne (by omega) rfl
  rw [blockLoop, blockEnd]
  dsimp only
  rcases Nat.lt_or_ge ip s.endIdx with hlt | hle
  · have hgoes : ¬ s.endIdx ≤ ip := Nat.not_le.mpr hlt
    rw [if_pos hlt, if_neg fun h => hgoes h.1, if_neg hgoes]
    exact ⟨rfl, hholds, hrepeats, hsame, rfl⟩
  · rw [if_neg (Nat.not_lt.mpr hle), if_pos hle]
    rcases hphase with hphase | hphase
    · rw [if_neg (by simp [hphase]), if_pos ⟨hle, hphase⟩]
      exact ⟨rfl, hholds, hrepeats, hsame, rfl, rfl, rfl, rfl, rfl⟩
    · rw [if_pos hphase, if_neg (by simp [hphase])]
      exact ⟨rfl, hholds, hrepeats, hsame, rfl⟩

/-! ### A sequence cut after its literals -/

theorem lz4CutOffset_eq (token : Byte) (lits : List Byte) (s : State) :
    lz4CutOffset token lits s =
      if s.maxOut - s.op < lits.length then (atLiterals token lits s).fail .outputTooLarge
      else if s.outCap - s.op < lits.length then (atLiterals token lits s).fail .outputTooSmall
      else (afterLiterals token lits s).fail .unexpectedEof :=
  lz4Literals_settle token lits s _

/-- Where the offset is complete it is tested, and `ip` stands after it, before the missing extension is met. -/
theorem lz4CutMatchExt_eq (token : Byte) (lits : List Byte) (offset : BitVec 16) (s : State) :
    lz4CutMatchExt token lits offset s =
      if s.maxOut - s.op < lits.length then (atLiterals token lits s).fail .outputTooLarge
      else if s.outCap - s.op < lits.length then (atLiterals token lits s).fail .outputTooSmall
      else (afterOffset offset (afterLiterals token lits s)).fail
        (if offset = 0 ∨ s.op + lits.length - s.base < offset.toNat then .invalidData else .unexpectedEof) := by
  rw [lz4CutMatchExt, lz4Literals_settle, lz4Offset_settle, apply_ite (State.fail · _)]
  rfl

theorem badElement_hostSide (e : DecodeError) (s : State) : HostSideSame s (badElement e s) := by
  obtain ⟨k, u, h, hw⟩ := badElement_eq_fail e .lz4Tok s
  rw [h]
  exact hw.hostSide

/-- Settles O8: the step is the cut sequence's, whose literals are tested and written before what is missing. -/
theorem cutSequenceEffects : Obligations.CutSequenceEffects := by
  intro s s0 token lits offset hm hp hw n literals
  have hs0 := EngineMoves_eq hm
  have hlits {k : ErrKind} {t : State} (ht : t.outMem = Memory.writeBytes s.outMem s.op lits) :
      Raised k (t.fail k) ∧ OutHolds s.op lits (t.fail k) ∧ OutSameOutside s.op (s.op + n) s (t.fail k) :=
    ⟨.fail k t, outHolds_of_writeBytes hw ht⟩
  refine ⟨fun hd => ⟨_, step_of_badElement hm hp hd, badElement_hostSide _ _, ?_⟩,
    fun hd => ⟨_, step_of_badElement hm hp hd, badElement_hostSide _ _, ?_⟩⟩
  · rw [badElement, lz4CutOffset_eq, hs0]
    dsimp only [literals]
    split_ifs
    · exact Raised.fail_outSame _ rfl
    · exact Raised.fail_outSame _ rfl
    · exact hlits rfl
  · rw [badElement, lz4CutMatchExt_eq, hs0]
    dsimp only [literals]
    split_ifs
    · exact Raised.fail_outSame _ rfl
    · exact Raised.fail_outSame _ rfl
    · exact hlits rfl
    · exact hlits rfl

end Sys2Proof.Machine
end

section
/-! SUPPORT. The commands whose whole outcome is one update of the state: the three bound queries, and the compress
commands of an input too short to be scanned (42_lz4_block.md rules R105, R110, 44_snappy.md rules R140, R152). -/

namespace Sys2Proof.Machine

/-! ### The bound queries -/

/-- A query whose launch is accepted is over at once, with its result and nothing appended. -/
theorem launch_query {code : BitVec 8} {s : State} (res : State → Nat) (hb : s.status ≠ .busy)
    (hr : launchRefusal s = none) :
    ∃ t, launch code launchRefusal (fun s1 => s1.complete (res s1)) s = .next t ∧
      Completed 0 (res (s.start code)) t ∧ t.cmd = code ∧ OperandsSame s t ∧ t.outMem = s.outMem ∧ t.ht = s.ht := by
  refine ⟨(s.start code).complete (res (s.start code)), ?_, ⟨rfl, rfl, rfl, rfl, rfl⟩, rfl, OperandsSame.refl s, rfl,
    rfl⟩
  rw [launch, if_neg hb, hr]

/-- Settles O18: each query's body is the end of its command, with the bound of the sampled `IN_LEN`. -/
theorem boundQueries : Obligations.BoundQueries := by
  intro s hb hoverlap hcap n max sat
  have hr : launchRefusal s = none := (launchRefusal_eq_none s).mpr ⟨hoverlap, hcap⟩
  exact ⟨launch_query (fun s1 => lz4BlockMax s1.params s1.curLen) hb hr,
    launch_query (fun s1 => lz4FrameMax s1.params s1.curLen) hb hr,
    launch_query (fun s1 => snMaxSize s1.params s1.curLen) hb hr⟩

/-! ### Launching a compress command -/

/-- Within the host's contract a compress command with no length beyond its limit is accepted. -/
theorem compressRefusal_of_launchable {limit : Option Nat} {s : State} (hl : Launchable s) (hc : CellsHoldPositions s)
    (hlimit : overLimit limit s.inLen = false) : compressRefusal limit s = none := by
  obtain ⟨-, hoverlap, hin, hcap⟩ := hl
  have hbufs : buffersRefusal s = none := (buffersRefusal_eq_none s).mpr ⟨⟨hoverlap, hcap⟩, hin⟩
  refine (compressRefusal_eq_none limit s).mpr ⟨hlimit, ?_, hbufs⟩
  rintro ⟨hbits, hlen⟩
  omega

theorem exec_lz4bCompress_launchable {s : State} (hl : Launchable s) (hc : CellsHoldPositions s) :
    exec .lz4bCompress s = .next (lz4BlockCompress (s.start 1)).finish := by
  have hr : lz4bCompressRefusal s = none := compressRefusal_of_launchable hl hc rfl
  exact (if_neg hl.1).trans (by rw [hr])

theorem exec_snCompress_launchable {s : State} (hl : Launchable s) (hc : CellsHoldPositions s)
    (hn : s.inLen ≤ snMaxIn) :
    exec .snCompress s = .next (snCompressBody (s.start 5)).finish := by
  have hr : snCompressRefusal s = none := compressRefusal_of_launchable hl hc (decide_eq_false (Nat.not_lt.mpr hn))
  exact (if_neg hl.1).trans (by rw [hr])

/-! ### Inputs too short to be scanned -/

/-- Bytes that fit are appended, and nothing else changes. -/
theorem emitBytes_fits {bytes : List Byte} {s : State} (h : s.op + bytes.length ≤ s.outCap) :
    emitBytes bytes s =
      .ok { s with outMem := Memory.writeBytes s.outMem s.op bytes, op := s.op + bytes.length } := by
  rw [emitBytes_eq bytes s (by omega), if_pos h, putBytes_eq]

/-- One LZ4 sequence of fewer than 15 literals is its token and the literals (30_encoding.md rules R52, R53). -/
theorem encode_lz4Last_short {lits : List Byte} (h : lits.length < 15) :
    encode (.lz4Last 0 lits) = BitVec.ofNat 8 (16 * lits.length) :: lits := by
  have htoken : lz4Token lits.length 0 = BitVec.ofNat 8 (16 * lits.length) := by
    rw [lz4Token, Nat.min_eq_left h.le, Nat.zero_min, Nat.mul_comm, Nat.add_zero]
  have hext : lz4FieldExt lits.length = [] := if_pos h
  exact congrArg₂ (fun t e => t :: (e ++ lits)) htoken hext

theorem encode_snLiteralOf_short {lits : List Byte} (h : lits.length ≤ 60) :
    encode (snLiteralOf lits) = BitVec.ofNat 8 (4 * (lits.length - 1)) :: lits := by
  rw [snLiteralOf, if_pos (by omega), encode, Nat.mul_comm]

/-- The block encoder on a short input emits one sequence. -/
theorem lz4BlockCompress_short {s : State} (hn : s.curLen < smallInput) (hfit : s.op + (s.curLen + 1) ≤ s.outCap) :
    lz4BlockCompress s =
      .ok { s with
        lit := s.curLen, op := s.op + (s.curLen + 1)
        outMem := Memory.writeBytes s.outMem s.op (BitVec.ofNat 8 (16 * s.curLen) :: inBytes s 0 s.curLen) } := by
  have hlen : (inBytes s 0 s.curLen).length = s.curLen := Memory_slice_length _ _ _
  have hbytes := encode_lz4Last_short (lits := inBytes s 0 s.curLen) (hlen.trans_lt hn)
  rw [hlen] at hbytes
  have hemit := emitBytes_fits (s := { s with lit := s.curLen })
    (bytes := BitVec.ofNat 8 (16 * s.curLen) :: inBytes s 0 s.curLen) (by rw [List.length_cons, hlen]; exact hfit)
  rw [List.length_cons, hlen] at hemit
  rw [lz4BlockCompress, if_pos hn, lz4EmitLast, hbytes]
  exact hemit

/-- The Snappy encoder on the empty input emits the preamble alone. -/
theorem snCompressBody_empty {s : State} (hn : s.curLen = 0) (hfit : 1 ≤ s.outCap) :
    snCompressBody s = .ok { s with op := 1, outMem := Memory.writeBytes s.outMem 0 [0] } := by
  have hpre : varintEncode 10 s.curLen = [0] := by rw [hn]; rfl
  have hemit := emitBytes_fits (s := { s with op := 0 }) (bytes := [0]) hfit
  rw [snCompressBody, hpre, hemit, Run_andThen_ok]
  exact if_pos hn

/-- The Snappy encoder on a short input emits the preamble and one literal. -/
theorem snCompressBody_short {s : State} (hpos : 0 < s.curLen) (hn : s.curLen < smallInput)
    (hfit : s.curLen + 2 ≤ s.outCap) :
    snCompressBody s =
      .ok { s with
        len := s.curLen, op := 1 + (s.curLen + 1)
        outMem := Memory.writeBytes s.outMem 0
          (BitVec.ofNat 8 s.curLen :: BitVec.ofNat 8 (4 * (s.curLen - 1)) :: inBytes s 0 s.curLen) } := by
  have hlen : (inBytes s 0 s.curLen).length = s.curLen := Memory_slice_length _ _ _
  have h15 : s.curLen < 15 := hn
  have hpre : varintEncode 10 s.curLen = [BitVec.ofNat 8 s.curLen] := if_pos (by omega)
  have hlit := encode_snLiteralOf_short (lits := inBytes s 0 s.curLen) (by omega)
  rw [hlen] at hlit
  have hemit := emitBytes_fits
    (s := { s with len := s.curLen, op := 1, outMem := Memory.writeBytes s.outMem 0 [BitVec.ofNat 8 s.curLen] })
    (bytes := BitVec.ofNat 8 (4 * (s.curLen - 1)) :: inBytes s 0 s.curLen)
    (by rw [List.length_cons, hlen]; dsimp only; omega)
  rw [List.length_cons, hlen, ← hlit] at hemit
  rw [snCompressBody, hpre, emitBytes_fits (by dsimp only [List.length_singleton]; omega), Run_andThen_ok]
  refine (if_neg hpos.ne').trans ((if_pos hn).trans (hemit.trans ?_))
  rw [hlit]
  rfl

/-- A command that was launched at `OUT[0]`, has appended its bytes and never ran the match finder. -/
theorem finish_short {code : BitVec 8} {bytes : List Byte} {s u : State} {n : Nat} (hw : Memory.wf s.outMem)
    (hn : u.curLen < smallInput) (hs : HostSideSame (s.start code) u) (hht : u.ht = s.ht) (hlen : bytes.length = n)
    (hop : u.op = n) (ho : u.outMem = Memory.writeBytes s.outMem 0 bytes) :
    (Run.ok u).finish.cmd = code ∧ OperandsSame s (Run.ok u).finish ∧ (Run.ok u).finish.ht = s.ht ∧
      Completed n 0 (Run.ok u).finish ∧ OutSameOutside 0 n s (Run.ok u).finish ∧
      outBytes (Run.ok u).finish 0 n = bytes := by
  rw [Run_finish_ok, if_pos hn]
  have hholds : OutHolds 0 bytes (u.complete 0) := by
    intro k hk
    rw [State_complete_outMem, ho, Memory_read_writeBytes hw _ _ hk]
  refine ⟨hs.1, hs.operands, hht, ⟨rfl, rfl, hop, rfl, rfl⟩, fun a ha => ?_, hlen ▸ hholds.slice 0⟩
  rw [State_complete_outMem, ho, Memory_read_writeBytes_outside _ _ (by omega)]

/-- Settles O21: below `SMALL_INPUT` each encoder emits a preamble, a tag and the input, and never touches the table. -/
theorem smallInputs : Obligations.SmallInputs := by
  intro s hl hc hw hn n
  have hlen : (inBytes s 0 n).length = n := Memory_slice_length _ _ _
  have hsn := exec_snCompress_launchable hl hc (hn.le.trans (by decide))
  refine ⟨fun hfit => ⟨_, exec_lz4bCompress_launchable hl hc, ?_⟩, fun h0 hfit => ⟨_, hsn, ?_⟩,
    fun hpos hfit => ⟨_, hsn, ?_⟩⟩
  · rw [lz4BlockCompress_short (s := s.start 1) hn (by simpa using hfit)]
    exact finish_short hw hn (.refl _) rfl (by simp [hlen]) (Nat.zero_add _) rfl
  · rw [snCompressBody_empty (s := s.start 5) h0 hfit]
    exact finish_short hw hn (.refl _) rfl rfl rfl rfl
  · rw [snCompressBody_short (s := s.start 5) hpos hn hfit]
    exact finish_short hw hn (.refl _) rfl (by simp [hlen]) (Nat.add_comm 1 (n + 1)) rfl

end Sys2Proof.Machine
end

section
/-! SUPPORT. The sequences of an LZ4 block cover its input, each match a repetition of what stands before it; their encoded
length is within the bound, and decoding them one after the other gives the input back (42_lz4_block.md rules R106, R111,
R112). -/

namespace Sys2Proof.Machine

/-! ### The sequences cover the input -/

/-- The sequences cover the first `n` bytes of `m` from `anchor` on: each is the literals up to some `i` and a match of
`mlen` bytes with the bytes at an earlier `c`, and the last is the literals that are left (42_lz4_block.md rule R106). -/
inductive Lz4Covers (m : Memory) (n : Nat) : Nat → List Instr → Prop
  | last {anchor : Nat} (h : anchor ≤ n) : Lz4Covers m n anchor [.lz4Last 0 (Memory.slice m anchor (n - anchor))]
  | seq {anchor i c mlen : Nat} {rest : List Instr} (hanchor : anchor ≤ i) (hc : c < i) (hfar : i - c ≤ maxOffset)
      (hmlen : 4 ≤ mlen) (hmatch : ∀ k, k < mlen → Memory.read m (c + k) = Memory.read m (i + k))
      (h : Lz4Covers m n (i + mlen) rest) :
      Lz4Covers m n anchor
        (.lz4Seq (Memory.slice m anchor (i - anchor)) (BitVec.ofNat 16 (i - c)) mlen :: rest)

theorem Lz4Covers.anchor_le {m : Memory} {n anchor : Nat} {plan : List Instr} (h : Lz4Covers m n anchor plan) :
    anchor ≤ n := by
  induction h with
  | last h => exact h
  | seq => omega

/-- Two words are equal exactly where their bytes are. -/
theorem read_eq_of_readLE_eq {m : Memory} {a b n k : Nat} (h : Memory.readLE m a n = Memory.readLE m b n) (hk : k < n) :
    Memory.read m (a + k) = Memory.read m (b + k) := by
  have hslice : Memory.slice m a n = Memory.slice m b n := by
    have ha := leBytes_leNat (Memory.slice m a n)
    have hb := leBytes_leNat (Memory.slice m b n)
    rw [Memory_slice_length] at ha hb
    rw [← ha, ← hb]
    exact congrArg (leBytes n) h
  rw [← Memory_slice_getD m a n hk, ← Memory_slice_getD m b n hk, hslice]

/-- A candidate matches over its four bytes and over what `MatchExtend` adds (41_match_finder.md rules R92, R95). -/
theorem candidate_matches {mult : BitVec 32} {m : Memory} {ht : HashTable} {i c max k : Nat}
    (hc : candidate mult m ht i = some c) (hk : k < 4 + matchExtend m (c + 4) (i + 4) max) :
    Memory.read m (c + k) = Memory.read m (i + k) := by
  obtain ⟨-, -, hword⟩ := candidate_eq_some.mp hc
  rcases Nat.lt_or_ge k 4 with h4 | h4
  · exact read_eq_of_readLE_eq hword h4
  · obtain ⟨j, rfl⟩ := Nat.exists_eq_add_of_le h4
    rw [← Nat.add_assoc, ← Nat.add_assoc]
    exact matchExtend_agree m _ _ max (by omega)

/-- The scan's sequences cover what is left from its anchor on, whatever the table holds of earlier positions. -/
theorem lz4Plan_covers {p : Params} (hp : p.Admissible) (m : Memory) {n : Nat} (fuel : Nat) {ht : HashTable}
    {i anchor : Nat} (hw : HashTable.wf ht) (hcell : ∀ h, HashTable.cell ht h ≤ i) (hanchor : anchor ≤ i) (hi : i ≤ n) :
    Lz4Covers m n anchor (lz4Plan p m n fuel ht i anchor) := by
  obtain ⟨-, hlimit⟩ := hp
  induction fuel generalizing ht i anchor with
  | zero => exact .last (hanchor.trans hi)
  | succ fuel ih =>
    have hw' := inserted_wf lz4Mult m hw i
    have hcell' := inserted_cell_le (mult := lz4Mult) (m := m) hw hcell
    unfold lz4Plan
    split_ifs with hroom
    · cases hc : candidate lz4Mult m ht i with
      | none => exact ih hw' hcell' (by omega) (by omega)
      | some c =>
        obtain ⟨-, hfar, -⟩ := candidate_eq_some.mp hc
        have hext := matchExtend_le m (c + 4) (i + 4) (n - p.lz4LastLiterals - (i + 4))
        exact .seq hanchor (candidate_lt hcell hc) hfar (by omega) (fun k hk => candidate_matches hc hk)
          (ih hw' (fun h => (hcell' h).trans (by omega)) le_rfl (by omega))
    · exact .last (hanchor.trans hi)

/-- Every block is the encoding of sequences that cover its input; a short input is its literals alone. -/
theorem lz4BlockBytes_covers {p : Params} (hp : p.Admissible) (m : Memory) (n : Nat) :
    ∃ plan, lz4BlockBytes p m n = plan.flatMap encode ∧ Lz4Covers m n 0 plan := by
  unfold lz4BlockBytes
  split
  · exact ⟨[.lz4Last 0 (Memory.slice m 0 n)], by simp, .last (Nat.zero_le n)⟩
  · exact ⟨_, rfl, lz4Plan_covers hp m (n + 1) HashTable_nil_wf (fun _ => le_rfl) le_rfl (Nat.zero_le n)⟩

/-! ### The bound -/

/-- A sequence costs at most one byte more for every 255 it stands for (rule R111). -/
theorem lz4Seq_size_le {lits : List Byte} {offset : BitVec 16} {mlen : Nat} (h : 4 ≤ mlen) :
    (Instr.lz4Seq lits offset mlen).size ≤ lits.length + mlen + (lits.length + mlen) / 255 := by
  simp only [Instr.size, lz4FieldExtSize]
  split_ifs <;> omega

theorem lz4Last_size_le (ml : BitVec 4) (lits : List Byte) :
    (Instr.lz4Last ml lits).size ≤ lits.length + lits.length / 255 + 2 := by
  simp only [Instr.size, lz4FieldExtSize]
  split_ifs <;> omega

theorem Lz4Covers.length_le {m : Memory} {n anchor : Nat} {plan : List Instr} (h : Lz4Covers m n anchor plan) :
    (plan.flatMap encode).length ≤ n - anchor + (n - anchor) / 255 + 2 := by
  induction h with
  | @last anchor h =>
    have hsize := lz4Last_size_le 0 (Memory.slice m anchor (n - anchor))
    rw [Memory_slice_length] at hsize
    simpa only [List.flatMap_cons, List.flatMap_nil, List.append_nil, encode_length] using hsize
  | @seq anchor i c mlen rest hanchor hc hfar hmlen hmatch h ih =>
    have hle := h.anchor_le
    have hsize := lz4Seq_size_le (lits := Memory.slice m anchor (i - anchor)) (offset := BitVec.ofNat 16 (i - c)) hmlen
    rw [Memory_slice_length] at hsize
    rw [List.flatMap_cons, List.length_append, encode_length]
    omega

/-- The length of a block is within `Lz4BlockMax` (42_lz4_block.md rule R111). -/
theorem lz4BlockBytes_length_le {p : Params} (hp : p.Admissible) (m : Memory) (n : Nat) :
    (lz4BlockBytes p m n).length ≤ n + n / 255 + 16 := by
  obtain ⟨plan, e, h⟩ := lz4BlockBytes_covers hp m n
  have hlen := h.length_le
  rw [e]
  omega

theorem lz4BlockMax_of_le {p : Params} {n : Nat} (h : n + n / 255 + 16 ≤ p.sizeMax) :
    lz4BlockMax p n = n + n / 255 + 16 := by
  simp only [lz4BlockMax, satadd]
  omega

/-- Settles O23: the block's bytes are within the bound, so they fit `OUT_CAP`. -/
theorem lz4BlockBound : Obligations.Lz4BlockBound := by
  intro s hp hl hc hsat hcap
  rw [lz4BlockMax_of_le hsat] at hcap
  have hlen := lz4BlockBytes_length_le hp s.inMem s.inLen
  have hemits := lz4BlockCompress_emits (s := s.start 1) (Nat.zero_le _)
  obtain ⟨t, ht, e⟩ | ⟨hfull, -⟩ := hemits.finish_cases
  · refine ⟨t.complete 0, t.op, ?_, ⟨rfl, rfl, rfl, rfl, rfl⟩, ?_⟩
    · rw [exec_lz4bCompress_launchable hl hc, e]
    · rw [ht.op]
      simpa using hlen
  · have hfull : s.outCap < 0 + (lz4BlockBytes s.params s.inMem s.inLen).length := hfull
    omega

end Sys2Proof.Machine
end

section
/-! SUPPORT. Decoding the sequences of an LZ4 block gives back the input they cover (42_lz4_block.md rule R112). -/

namespace Sys2Proof.Machine

/-! ### A block in the middle of its decoding -/

/-- `LZ4B.DECOMPRESS` stands at the first of the sequences `plan`, the first `anchor` bytes of `m` are decoded, and there is
room for all `n`. -/
structure DecodingAt (m : Memory) (n anchor : Nat) (plan : List Instr) (s : State) : Prop where
  busy : s.status = .busy
  alone : s.host = []
  phase : s.phase = .block
  base : s.base = 0
  stream : inBytes s s.ip (s.endIdx - s.ip) = plan.flatMap encode
  op : s.op = anchor
  maxOut : n ≤ s.maxOut
  outCap : n ≤ s.outCap
  wf : Memory.wf s.outMem
  decoded : MemAgree anchor m s.outMem

/-- The next of the sequences is what the decoder reads and the next step runs. -/
theorem DecodingAt.step_eq {m : Memory} {n anchor : Nat} {i : Instr} {plan : List Instr} {s : State}
    (h : DecodingAt m n anchor (i :: plan) s)
    (hd : decode .lz4Tok (encode i ++ plan.flatMap encode) = .ok (i, plan.flatMap encode)) : step s = exec i s := by
  have hfetch : fetchBytes s = encode i ++ plan.flatMap encode := by
    rw [fetchBytes, fetchLimit, if_pos (.inl h.phase), h.stream, List.flatMap_cons]
  obtain ⟨hrun, -⟩ := stepRunsDecodedInstruction.1 s .lz4Tok i (plan.flatMap encode) h.busy (by rw [h.phase]; rfl)
    (by rw [hfetch, hd])
  exact hrun h.alone

theorem Memory_slice_drop (m : Memory) (a n k : Nat) : (Memory.slice m a n).drop k = Memory.slice m (a + k) (n - k) := by
  refine List.ext_getElem (by simp) fun j _ _ => ?_
  simp [Memory.slice, Nat.add_assoc]

/-- After the next of the sequences the rest of them is left, up to the end of the block. -/
theorem DecodingAt.stream_rest {m : Memory} {n anchor : Nat} {i : Instr} {plan : List Instr} {s : State}
    (h : DecodingAt m n anchor (i :: plan) s) :
    s.endIdx - s.ip = i.size + (plan.flatMap encode).length ∧
      inBytes s (s.ip + i.size) (s.endIdx - (s.ip + i.size)) = plan.flatMap encode := by
  have hstream := h.stream
  rw [List.flatMap_cons] at hstream
  have hlen := congrArg List.length hstream
  rw [inBytes, Memory_slice_length, List.length_append, encode_length] at hlen
  refine ⟨hlen, ?_⟩
  have hdrop := congrArg (List.drop i.size) hstream
  rw [inBytes, Memory_slice_drop, List.drop_left' (encode_length i)] at hdrop
  rw [inBytes, ← hdrop, Nat.sub_add_eq]

/-! ### One sequence -/

/-- Literals of `m` appended at `anchor` decode `m` up to `i`. -/
theorem MemAgree.of_literals {m : Memory} {anchor i : Nat} {s t : State} (h : MemAgree anchor m s.outMem)
    (hholds : OutHolds anchor (Memory.slice m anchor (i - anchor)) t)
    (hsame : ∀ a, a < anchor → Memory.read t.outMem a = Memory.read s.outMem a) : MemAgree i m t.outMem := by
  intro a ha
  rcases Nat.lt_or_ge a anchor with hlt | hge
  · rw [hsame a hlt, h a hlt]
  · obtain ⟨k, rfl⟩ := Nat.exists_eq_add_of_le hge
    rw [hholds k (by rw [Memory_slice_length]; omega), Memory_slice_getD m anchor _ (by omega)]

/-- A match that repeats the output decodes `m` as far as `m` repeats itself in the same way. -/
theorem MemAgree.of_match {m m' : Memory} {i c mlen : Nat} (h : MemAgree i m m') (hc : c < i)
    (hmatch : ∀ k, k < mlen → Memory.read m (c + k) = Memory.read m (i + k))
    (hrepeats : ∀ k, k < mlen → Memory.read m' (i + k) = Memory.read m' (i + k - (i - c))) :
    MemAgree (i + mlen) m m' := by
  intro a
  induction a using Nat.strong_induction_on with
  | _ a ih =>
    intro ha
    rcases Nat.lt_or_ge a i with hlt | hge
    · exact h a hlt
    · obtain ⟨k, rfl⟩ := Nat.exists_eq_add_of_le hge
      have hback : i + k - (i - c) = c + k := by omega
      rw [hrepeats k (by omega), hback, ih (c + k) (by omega) (by omega), hmatch k (by omega)]

theorem flatMap_encode_length_pos {i : Instr} (h : i.wf = true) (plan : List Instr) :
    0 < ((i :: plan).flatMap encode).length := by
  rw [List.flatMap_cons, List.length_append, encode_length]
  exact Nat.add_pos_left (Instr.size_pos h) _

theorem Lz4Covers.length_pos {m : Memory} {n anchor : Nat} {plan : List Instr} (h : Lz4Covers m n anchor plan) :
    0 < (plan.flatMap encode).length := by
  cases h with
  | last => exact flatMap_encode_length_pos rfl _
  | @seq _ i c mlen rest _ _ _ hmlen =>
    have hwf : (Instr.lz4Seq (Memory.slice m anchor (i - anchor)) (BitVec.ofNat 16 (i - c)) mlen).wf = true :=
      decide_eq_true hmlen
    exact flatMap_encode_length_pos hwf rest

/-- A sequence decodes its literals and its match, and the next sequence stands at `ip`. -/
theorem DecodingAt.seq {m : Memory} {n anchor i c mlen : Nat} {lits : List Byte} {offset : BitVec 16} {rest : List Instr}
    {s : State} (h : DecodingAt m n anchor (.lz4Seq lits offset mlen :: rest) s) (hanchor : anchor ≤ i) (hc : c < i)
    (hlits : lits = Memory.slice m anchor (i - anchor)) (hoffset : offset.toNat = i - c) (hmlen : 4 ≤ mlen)
    (hmatch : ∀ k, k < mlen → Memory.read m (c + k) = Memory.read m (i + k)) (hrest : Lz4Covers m n (i + mlen) rest) :
    ∃ t, step s = .next t ∧ DecodingAt m n (i + mlen) rest t := by
  obtain rfl := h.op
  have hle := hrest.anchor_le
  have hmax := h.maxOut
  have hcap := h.outCap
  have hlen : lits.length = i - s.op := by rw [hlits, Memory_slice_length]
  have hop : s.op + lits.length = i := by omega
  have hne : offset ≠ 0 := by
    rintro rfl
    exact absurd hoffset (by rw [show (0 : BitVec 16).toNat = 0 from rfl]; omega)
  have hexec := exec_lz4Seq_fits (s := s) (lits := lits) (mlen := mlen) (by omega) (by omega) hne
    (by rw [h.base]; omega)
  obtain ⟨hend, hstream⟩ := h.stream_rest
  have hgoes : s.ip + (Instr.lz4Seq lits offset mlen).size < s.endIdx := by
    have := hrest.length_pos
    omega
  obtain ⟨hholds, hrepeats, hsame⟩ := outHolds_of_sequenceMem (lits := lits) (mlen := mlen)
    (t := { s with outMem := sequenceMem lits offset mlen s.outMem s.op }) h.wf hne (by omega) rfl
  rw [hop, hoffset] at hrepeats
  have hdecoded : MemAgree (i + mlen) m (sequenceMem lits offset mlen s.outMem s.op) :=
    (h.decoded.of_literals (hlits ▸ hholds) fun a ha => hsame a (.inl ha)).of_match hc hmatch hrepeats
  refine ⟨_, (h.step_eq (decodeLz4_lz4Seq _ _ hmlen _)).trans hexec, ?_⟩
  rw [afterSequence_eq rfl, blockLoop_of_lt hgoes]
  exact { h with
    stream := hstream
    op := by dsimp only; rw [hop]
    wf := matchMem_wf (Memory_writeBytes_wf h.wf _ _) _ _ _
    decoded := hdecoded }

/-- The last sequence decodes what is left and ends the command. -/
theorem DecodingAt.last {m : Memory} {n anchor : Nat} {lits : List Byte} {s : State}
    (h : DecodingAt m n anchor [.lz4Last 0 lits] s) (hanchor : anchor ≤ n)
    (hlits : lits = Memory.slice m anchor (n - anchor)) :
    ∃ t, step s = .next t ∧ Completed n 0 t ∧ MemAgree n m t.outMem := by
  obtain rfl := h.op
  have hlen : lits.length = n - s.op := by rw [hlits, Memory_slice_length]
  have hop : s.op + lits.length = n := by omega
  have hsize := Instr.size_pos (i := .lz4Last 0 lits) rfl
  obtain ⟨hend, -⟩ := h.stream_rest
  rw [List.flatMap_nil, List.length_nil] at hend
  obtain ⟨t, hexec, -, -, hholds, hsame, hdone⟩ := lz4Last 0 lits s h.wf (.inl h.phase) (hop.trans_le h.maxOut)
    (hop.trans_le h.outCap) (by omega)
  rw [if_neg (by simp [h.phase]), hop] at hdone
  have hd := decodeLz4_lz4Last 0 lits
  refine ⟨t, (h.step_eq (by simpa [decode] using hd)).trans hexec, hdone, ?_⟩
  exact h.decoded.of_literals (hlits ▸ hholds) fun a ha => hsame a (.inl ha)

/-! ### The whole block -/

theorem core_run_succ {s t : State} (h : step s = .next t) (k : Nat) : core.run (k + 1) s = core.run k t := by
  have h' : core.step s = .next t := h
  simp only [Host.Core.run, h']

/-- Decoding every sequence ends the command with the input. -/
theorem Lz4Covers.decodes {m : Memory} {n anchor : Nat} {plan : List Instr} (hplan : Lz4Covers m n anchor plan) {s : State}
    (h : DecodingAt m n anchor plan s) : ∃ k t, core.run k s = .next t ∧ Completed n 0 t ∧ MemAgree n m t.outMem := by
  induction hplan generalizing s with
  | last hanchor =>
    obtain ⟨t, hstep, hdone⟩ := h.last hanchor rfl
    exact ⟨1, t, core_run_succ hstep 0, hdone⟩
  | seq hanchor hc hfar hmlen hmatch hrest ih =>
    have hoffset := toNat_ofNat_of_lt (hfar.trans_lt (show maxOffset < 2 ^ 16 by decide))
    obtain ⟨u, hstep, hu⟩ := h.seq hanchor hc rfl hoffset hmlen hmatch hrest
    obtain ⟨k, t, hrun, hdone⟩ := ih hu
    exact ⟨k + 1, t, (core_run_succ hstep k).trans hrun, hdone⟩

/-- `LZ4B.DECOMPRESS` of a block that is not empty begins at its first token. -/
theorem exec_lz4bDecompress_launchable {u : State} (hl : Launchable u) (hpos : 0 < u.inLen) :
    exec .lz4bDecompress u = .next { u.start 2 with phase := .block, endIdx := u.inLen, base := 0 } := by
  obtain ⟨hb, hoverlap, hin, hcap⟩ := hl
  have hr : buffersRefusal u = none := (buffersRefusal_eq_none u).mpr ⟨⟨hoverlap, hcap⟩, hin⟩
  refine (if_neg hb).trans ?_
  rw [hr]
  exact congrArg Host.Outcome.next (blockLoop_of_lt hpos)

/-- Settles O30: the output of `LZ4B.COMPRESS` is the encoding of sequences that cover the input, and the decoder runs
them one after the other. -/
theorem lz4BlockRoundTrip : Obligations.Lz4BlockRoundTrip := by
  intro s t u hp hb hw hexec hdone hl hwu hhost hlen hin hcap hmax
  obtain ⟨plan, hbytes, hplan⟩ := lz4BlockBytes_covers hp s.inMem s.inLen
  obtain ⟨-, ⟨-, -, hout, -⟩, hbytes'⟩ | ⟨-, herror, -⟩ := exec_compress_outcome (.inl rfl) hb hw hexec
  · have hstream : inBytes u 0 u.inLen = plan.flatMap encode := by
      rw [hin, hout, hbytes', ← hbytes]
      rfl
    have hpos : 0 < u.inLen := by
      have := hplan.length_pos
      rwa [← hstream, inBytes, Memory_slice_length] at this
    obtain ⟨k, v, hrun, hv, hagree⟩ := hplan.decodes
      (s := { u.start 2 with phase := .block, endIdx := u.inLen, base := 0 })
      ⟨rfl, hhost, rfl, rfl, hstream, rfl, hmax, hcap, hwu, nofun⟩
    exact ⟨_, v, k, exec_lz4bDecompress_launchable hl hpos, hrun, hv, hagree.slice (Nat.zero_add _).le⟩
  · exact absurd (hdone.symm.trans herror) (by decide)

end Sys2Proof.Machine
end

section
/-! SUPPORT. The frame's own fields: their checksum, the length they add to the block's, what the header fields and the
content checksum do (43_lz4_frame.md rules R120 to R127). -/

namespace Sys2Proof.Machine

/-! ### The bound -/

/-- A compress command whose output fits is done with all of it (20_memory.md rule R38). -/
theorem Emits.finish_of_fits {bytes : List Byte} {s : State} {r : Run} (h : Emits bytes s r)
    (hfits : s.op + bytes.length ≤ s.outCap) : Completed (s.op + bytes.length) 0 r.finish := by
  obtain ⟨t, ht, e⟩ | ⟨hfull, -⟩ := h.finish_cases
  · exact e ▸ ⟨rfl, rfl, ht.op, rfl, rfl⟩
  · exact absurd hfits (Nat.not_le.mpr hfull)

/-- A frame is its block and 15 bytes more, 8 for a content size and 4 for a content checksum (43_lz4_frame.md rule
R122). -/
theorem lz4fBytes_length (hc : Byte) (p : Params) (m : Memory) (n : Nat) (opts : BitVec 2) (contentSize : BitVec 64) :
    (lz4fBytes hc p m n opts contentSize).length =
      (lz4BlockBytes p m n).length + 15 + 8 * (opts.getLsbD 1).toNat + 4 * (opts.getLsbD 0).toNat := by
  simp only [lz4fBytes, lz4fHeaderBytes, lz4fTrailerBytes, encode, List.length_append, List.length_cons, List.length_nil,
    leBytes_length, ite_nil_length]
  omega

theorem exec_lz4fCompress_launchable {s : State} (hl : Launchable s) (hc : CellsHoldPositions s)
    (hn : s.inLen ≤ lz4fMaxIn) :
    exec .lz4fCompress s = .next (lz4FrameCompress (s.start 3)).finish := by
  have hr : lz4fCompressRefusal s = none := compressRefusal_of_launchable hl hc (decide_eq_false (Nat.not_lt.mpr hn))
  exact (if_neg hl.1).trans (by rw [hr])

/-- No frame bound of an accepted input saturates (rule R127). -/
theorem lz4FrameMax_of_le {p : Params} {n : Nat} (hp : p.Admissible) (hn : n ≤ lz4fMaxIn) :
    lz4FrameMax p n = n + n / 255 + 43 := by
  have hn : n ≤ 0x7E000000 := hn
  have hmax := lt_two_pow_sizeBits hp (v := n + n / 255 + 43) (by omega)
  rw [lz4FrameMax, lz4BlockMax_of_le (by omega), satadd]
  omega

/-- Settles O24: the block is within its own bound and the frame adds at most 27 bytes, so the frame fits `OUT_CAP`. -/
theorem lz4FrameBound : Obligations.Lz4FrameBound := by
  intro s hp hl hc hn hcap
  rw [lz4FrameMax_of_le hp hn] at hcap
  obtain ⟨hchk, slot, -, hemits⟩ := lz4FrameCompress_emits (s := s.start 3) rfl
  have hlen : (lz4fBytes hchk s.params s.inMem s.inLen s.opts s.contentSize).length ≤ s.inLen + s.inLen / 255 + 43 := by
    have hblock := lz4BlockBytes_length_le hp s.inMem s.inLen
    have hsize := Bool.toNat_le (s.opts.getLsbD 1)
    have hcheck := Bool.toNat_le (s.opts.getLsbD 0)
    rw [lz4fBytes_length]
    omega
  exact ⟨_, _, exec_lz4fCompress_launchable hl hc hn,
    hemits.finish_of_fits ((Nat.zero_add _).trans_le (hlen.trans hcap)), (Nat.zero_add _).trans_le hlen⟩

/-! ### The header fields -/

/-- A field that is tested once and does not write `OUT`: the test raises, or the command goes on in `u`. -/
theorem exec_testedField {i : Instr} {c : Prop} [Decidable c] {k : ErrKind} {s u : State} (hi : IsElement i)
    (hexec : exec i s = .next (if c then Run.raise k u else .ok u).settle) (hout : u.outMem = s.outMem) :
    ∃ t, exec i s = .next t ∧ HostSideSame s t ∧ OutSame s t ∧ if c then Raised k t else t = u := by
  refine ⟨_, hexec, exec_element_hostSide hi hexec, ?_⟩
  split_ifs
  · exact (Raised.fail_outSame k hout).symm
  · exact ⟨fun a => congrArg (Memory.read · a) hout, rfl⟩

/-- Settles O38: three of the fields are tested once, the other two are one update of the state. -/
theorem frameHeader : Obligations.FrameHeader := by
  intro s
  refine ⟨?magic, fun _ _ _ => rfl, fun classM4 => ?bd, fun size => ?csize, fun _ => rfl⟩
  case magic => exact exec_testedField (i := .lz4fMagic) (by simp [Instr.format]) rfl rfl
  case bd => exact exec_testedField (i := .lz4fBd classM4) (by simp [Instr.format]) rfl rfl
  case csize => exact exec_testedField (i := .lz4fCsize size) (by simp [Instr.format]) rfl rfl

/-! ### The checksums -/

/-- Settles O41: the comparison ends the command either way, in a state whose `OUT` is that before it. -/
theorem frameChecksum : Obligations.FrameChecksum := by
  intro checksum s
  have hexec : exec (.lz4fCchk checksum) s = .next
      (if xxh32 (outBytes s 0 s.op) 0 = checksum then Run.ok (State.complete 0 { s with ip := s.ip + 4 })
        else .raise .checksumMismatch s).settle := rfl
  refine ⟨_, hexec, exec_element_hostSide (by simp [Instr.format]) hexec, ?_⟩
  split_ifs
  · exact ⟨fun _ => rfl, ⟨rfl, rfl, rfl, rfl, rfl⟩, rfl⟩
  · exact (Raised.fail_outSame _ rfl).symm

/-- Settles O59: each hash is evaluated. -/
theorem checksumValues : Obligations.ChecksumValues :=
  ⟨rfl, rfl, rfl, rfl, rfl, rfl, rfl, rfl, rfl, rfl, rfl, rfl, rfl, rfl, rfl⟩

end Sys2Proof.Machine
end

section
/-! SUPPORT. The Snappy elements: the preamble, the five literals and the three copies, each as its tests, what it appends
and the element loop (44_snappy.md rules R145 to R150). -/

namespace Sys2Proof.Machine

/-! ### The element loop -/

/-- After an element the stream goes on, or is complete, or was cut short of its declared length (44_snappy.md rule
R150). -/
theorem snLoop_outcome {s : State} {more complete : Prop} [Decidable more] [Decidable complete]
    (hmore : (s.ip < s.curLen ∧ s.op < s.declared.toNat) ↔ more) (hcomplete : s.op = s.declared.toNat ↔ complete) :
    if more then (snLoop s).settle = { s with phase := .snTag }
    else if complete then Completed s.op 0 (snLoop s).settle ∧ (snLoop s).settle.ht = s.ht
    else Raised .invalidData (snLoop s).settle := by
  obtain ⟨h, e⟩ | ⟨h, h', e⟩ | ⟨h, h', e⟩ := snLoop_cases s
  all_goals rw [e]
  · rw [if_pos (hmore.mp h)]
    rfl
  · rw [if_neg (mt hmore.mpr h), if_pos (hcomplete.mp h')]
    exact ⟨⟨rfl, rfl, rfl, rfl, rfl⟩, rfl⟩
  · rw [if_neg (mt hmore.mpr h), if_neg (mt hcomplete.mpr h')]
    exact .fail _ s

/-- The loop itself writes nothing. -/
theorem snLoop_settle_outMem (s : State) : (snLoop s).settle.outMem = s.outMem := by
  obtain ⟨-, e⟩ | ⟨-, -, e⟩ | ⟨-, -, e⟩ := snLoop_cases s
  all_goals rw [e]; rfl

/-! ### The preamble -/

/-- The state after the preamble: what it declares is set, and `ip` stands after it (44_snappy.md rule R145). -/
def afterPreamble (value : BitVec 32) (nbytes : Nat) (s : State) : State :=
  { s with declared := BitVec.ofNat 64 value.toNat, ip := s.ip + nbytes }

theorem exec_snLen_eq (value : BitVec 32) (nbytes : Nat) (s : State) :
    exec (.snLen value nbytes) s = .next
      (if s.maxOut < value.toNat then (afterPreamble value nbytes s).fail .outputTooLarge
      else if s.outCap < value.toNat then (afterPreamble value nbytes s).fail .outputTooSmall
      else (snLoop { afterPreamble value nbytes s with op := 0 }).settle) := by
  rw [afterPreamble, BitVec.ofNat_toNat]
  refine congrArg Host.Outcome.next ?_
  dsimp only
  split_ifs <;> rfl

/-- Settles O35: past the two limits the element loop decides, with `op` 0 and the preamble's value declared. -/
theorem snappyLength : Obligations.SnappyLength := by
  intro value nbytes s _
  have hexec := exec_snLen_eq value nbytes s
  refine ⟨_, hexec, exec_element_hostSide (by simp [Instr.format]) hexec, ?_⟩
  by_cases hmax : s.maxOut < value.toNat
  · simp only [if_pos hmax]
    exact (Raised.fail_outSame _ rfl).symm
  by_cases hcap : s.outCap < value.toNat
  · simp only [if_neg hmax, if_pos hcap]
    exact (Raised.fail_outSame _ rfl).symm
  simp only [if_neg hmax, if_neg hcap]
  have hdeclared : (BitVec.ofNat 64 value.toNat).toNat = value.toNat := toNat_ofNat_of_lt (by omega)
  refine ⟨fun a => ?_, ?_⟩
  · rw [snLoop_settle_outMem]
    rfl
  · exact snLoop_outcome (s := { afterPreamble value nbytes s with op := 0 })
      (by simp only [afterPreamble, hdeclared, and_comm]) (by simp only [afterPreamble, hdeclared, eq_comm])

/-! ### Literals and copies -/

/-- The state after a Snappy element of `size` bytes that has made `OUT` into `mem`, `len` bytes longer. -/
def afterSnElement (tag : Byte) (len : Nat) (offset : BitVec 32) (size : Nat) (mem : Memory) (s : State) : State :=
  { s with tag := tag, len := len, offset := offset, ip := s.ip + size, op := s.op + len, outMem := mem }

/-- The instruction is a Snappy literal of the bytes `lits`, written with the tag `tag` (30_encoding.md rule R69). -/
abbrev IsSnLiteral (i : Instr) (tag : Byte) (lits : List Byte) : Prop :=
  (i = .snLit lits ∧ tag = BitVec.ofNat 8 (4 * (lits.length - 1))) ∨ (i = .snLit1 lits ∧ tag = 0xF0) ∨
    (i = .snLit2 lits ∧ tag = 0xF4) ∨ (i = .snLit3 lits ∧ tag = 0xF8) ∨ (i = .snLit4 lits ∧ tag = 0xFC)

/-- The instruction is a Snappy copy of `len` bytes from `offset` back, written with the tag `tag` (30_encoding.md rules
R70 to R72). -/
abbrev IsSnCopy (i : Instr) (tag : Byte) (offset len : Nat) : Prop :=
  (∃ l o, i = .snCopy1 l o ∧ offset = o.toNat ∧ len = 4 + l.toNat ∧
    tag = BitVec.ofNat 8 (1 + 4 * l.toNat + 32 * (o.toNat / 256))) ∨
  (∃ l o, i = .snCopy2 l o ∧ offset = o.toNat ∧ len = l.toNat + 1 ∧ tag = BitVec.ofNat 8 (2 + 4 * l.toNat)) ∨
  (∃ l o, i = .snCopy4 l o ∧ offset = o.toNat ∧ len = l.toNat + 1 ∧ tag = BitVec.ofNat 8 (3 + 4 * l.toNat))

theorem IsSnLiteral.format {i : Instr} {tag : Byte} {lits : List Byte} (h : IsSnLiteral i tag lits) :
    i.format = .snTag := by
  obtain ⟨rfl, -⟩ | ⟨rfl, -⟩ | ⟨rfl, -⟩ | ⟨rfl, -⟩ | ⟨rfl, -⟩ := h
  all_goals rfl

theorem IsSnCopy.format {i : Instr} {tag : Byte} {offset len : Nat} (h : IsSnCopy i tag offset len) :
    i.format = .snTag := by
  obtain ⟨l, o, rfl, -⟩ | ⟨l, o, rfl, -⟩ | ⟨l, o, rfl, -⟩ := h
  all_goals rfl

/-- A literal is tested against the declared length, its bytes are appended, and the loop decides (44_snappy.md rule
R146). -/
theorem snLiteral_eq (tag : Byte) (lenBytes : Nat) (lits : List Byte) (s : State) :
    snLiteral tag lenBytes lits s =
      if s.declared.toNat - s.op < lits.length then
        State.fail .invalidData { s with tag := tag, len := lits.length, ip := s.ip + 1 + lenBytes }
      else (snLoop (afterSnElement tag lits.length s.offset (1 + lenBytes + lits.length)
        (Memory.writeBytes s.outMem s.op lits) s)).settle := by
  simp only [snLiteral, literalCopy_eq, afterSnElement, Nat.add_assoc]
  split_ifs <;> rfl

theorem IsSnLiteral.exec_eq {i : Instr} {tag : Byte} {lits : List Byte} (h : IsSnLiteral i tag lits) (s : State) :
    ∃ u, u.outMem = s.outMem ∧ exec i s = .next
      (if s.declared.toNat - s.op < lits.length then State.fail .invalidData u
      else (snLoop (afterSnElement tag lits.length s.offset i.size (Memory.writeBytes s.outMem s.op lits) s)).settle) := by
  obtain ⟨rfl, rfl⟩ | ⟨rfl, rfl⟩ | ⟨rfl, rfl⟩ | ⟨rfl, rfl⟩ | ⟨rfl, rfl⟩ := h
  · rw [Nat.mul_comm]
    exact ⟨_, rfl, congrArg Host.Outcome.next (snLiteral_eq _ 0 lits s)⟩
  · exact ⟨_, rfl, congrArg Host.Outcome.next (snLiteral_eq _ 1 lits s)⟩
  · exact ⟨_, rfl, congrArg Host.Outcome.next (snLiteral_eq _ 2 lits s)⟩
  · exact ⟨_, rfl, congrArg Host.Outcome.next (snLiteral_eq _ 3 lits s)⟩
  · exact ⟨_, rfl, congrArg Host.Outcome.next (snLiteral_eq _ 4 lits s)⟩

/-- A copy's offset is tested, then its length, its bytes are appended, and the loop decides (44_snappy.md rule R147). -/
theorem snCopyCommon_eq (tag : Byte) (size offset len : Nat) (s : State) :
    let s1 := { s with tag := tag, len := len, offset := BitVec.ofNat 32 offset, ip := s.ip + size }
    snCopyCommon tag size offset len s =
      if offset = 0 ∨ s.op < offset then s1.fail .invalidData
      else if s.declared.toNat - s.op < len then s1.fail .invalidData
      else (snLoop (afterSnElement tag len (BitVec.ofNat 32 offset) size (matchMem offset len s.outMem s.op) s)).settle := by
  simp only [snCopyCommon, matchCopy_eq, afterSnElement]
  split_ifs <;> rfl

theorem IsSnCopy.exec_eq {i : Instr} {tag : Byte} {offset len : Nat} (h : IsSnCopy i tag offset len) (s : State) :
    exec i s = .next (snCopyCommon tag i.size offset len s) := by
  obtain ⟨l, o, rfl, rfl, rfl, rfl⟩ | ⟨l, o, rfl, rfl, rfl, rfl⟩ | ⟨l, o, rfl, rfl, rfl, rfl⟩ := h
  all_goals rfl

/-- Settles O36: the test against the declared length raises before anything is written; past it the loop decides. -/
theorem snappyLiterals : Obligations.SnappyLiterals := by
  intro i tag lits s hi _ hw
  obtain ⟨u, hu, hexec⟩ := IsSnLiteral.exec_eq hi s
  refine ⟨_, hexec, exec_element_hostSide (by simp [IsSnLiteral.format hi]) hexec, ?_⟩
  by_cases hlen : s.declared.toNat - s.op < lits.length
  · simp only [if_pos hlen]
    exact Raised.fail_outSame _ hu
  · simp only [if_neg hlen]
    have hmem := snLoop_settle_outMem
      (afterSnElement tag lits.length s.offset i.size (Memory.writeBytes s.outMem s.op lits) s)
    obtain ⟨hholds, hsame⟩ := outHolds_of_writeBytes hw hmem
    rw [hmem]
    exact ⟨hholds, hsame, snLoop_outcome Iff.rfl Iff.rfl⟩

/-- Settles O37: the offset's test and the length's raise before anything is written; past them the loop decides. -/
theorem snappyCopies : Obligations.SnappyCopies := by
  intro i tag offset len s hi hw
  have hexec := IsSnCopy.exec_eq hi s
  rw [snCopyCommon_eq] at hexec
  refine ⟨_, hexec, exec_element_hostSide (by simp [IsSnCopy.format hi]) hexec, ?_⟩
  by_cases hoff : offset = 0 ∨ s.op < offset
  · simp only [if_pos hoff]
    exact Raised.fail_outSame _ rfl
  by_cases hlen : s.declared.toNat - s.op < len
  · simp only [if_neg hoff, if_pos hlen]
    exact Raised.fail_outSame _ rfl
  simp only [if_neg hoff, if_neg hlen]
  have hmem := snLoop_settle_outMem
    (afterSnElement tag len (BitVec.ofNat 32 offset) i.size (matchMem offset len s.outMem s.op) s)
  rw [OutRepeats, OutSameOutside, hmem]
  exact ⟨fun k hk => matchMem_repeats (by omega) len hw (by omega) hk, fun a ha => matchMem_outside _ _ _ ha,
    snLoop_outcome Iff.rfl Iff.rfl⟩

end Sys2Proof.Machine
end

section
/-! SUPPORT. The elements of a Snappy stream: their encoded length is within the bound (44_snappy.md rule R152), and they
cover the input, each copy a repetition of what stands before it (rules R140 to R144). -/

namespace Sys2Proof.Machine

/-! ### The bound -/

theorem snLiteralOf_size_le {lits : List Byte} (h : 1 ≤ lits.length) :
    (snLiteralOf lits).size ≤ lits.length + lits.length / 6 + 1 := by
  unfold snLiteralOf
  split_ifs <;> simp only [Instr.size] <;> omega

theorem snLastCopy_size_le (offset len : Nat) : (snLastCopy offset len).size ≤ 3 := by
  unfold snLastCopy
  split_ifs
  · exact Nat.le_succ 2
  · exact Nat.le_refl 3

/-- The copies of a match are shorter than it: each stands for at least four bytes in at most three. -/
theorem snCopies_length_lt (offset : Nat) {fuel len : Nat} (h : 4 ≤ len) :
    ((snCopies offset fuel len).flatMap encode).length < len := by
  induction fuel generalizing len with
  | zero =>
    simp only [snCopies, List.flatMap_nil, List.length_nil]
    omega
  | succ fuel ih =>
    have hlast := snLastCopy_size_le offset
    have hcopy (len : Nat) : (snCopy2Of offset len).size = 3 := rfl
    unfold snCopies
    split_ifs with h68 h64
    · have := ih (len := len - 64) (by omega)
      rw [List.flatMap_cons, List.length_append, encode_length, hcopy]
      omega
    · have := hlast (len - 60)
      simp only [List.flatMap_cons, List.flatMap_nil, List.length_append, List.length_nil, encode_length, hcopy]
      omega
    · have := hlast len
      simp only [List.flatMap_cons, List.flatMap_nil, List.append_nil, encode_length]
      omega

theorem snLiteralPlan_length_le (m : Memory) (i anchor : Nat) :
    ((snLiteralPlan m i anchor).flatMap encode).length ≤ i - anchor + (i - anchor) / 6 + 1 := by
  unfold snLiteralPlan
  split_ifs with h
  · have hsize := snLiteralOf_size_le (lits := Memory.slice m anchor (i - anchor)) (by rw [Memory_slice_length]; omega)
    rw [Memory_slice_length] at hsize
    simpa only [List.flatMap_cons, List.flatMap_nil, List.append_nil, encode_length] using hsize
  · exact Nat.zero_le _

/-- A literal costs at most a byte, and one more for every six it stands for; the match after it pays for the first. -/
theorem snPlan_length_le (m : Memory) {n : Nat} (fuel : Nat) {ht : HashTable} {i anchor : Nat} (hanchor : anchor ≤ i)
    (hi : i ≤ n) :
    ((snPlan m n fuel ht i anchor).flatMap encode).length ≤ n - anchor + (n - anchor) / 6 + 1 := by
  induction fuel generalizing ht i anchor with
  | zero => exact snLiteralPlan_length_le m n anchor
  | succ fuel ih =>
    unfold snPlan
    split_ifs with hroom
    · cases candidate snappyMult m ht i with
      | none => exact ih (by omega) (by omega)
      | some c =>
        have hext := matchExtend_le m (c + 4) (i + 4) (n - (i + 4))
        dsimp only
        generalize hmlen : 4 + matchExtend m (c + 4) (i + 4) (n - (i + 4)) = mlen
        have hlits := snLiteralPlan_length_le m i anchor
        have hcopies := snCopies_length_lt (i - c) (fuel := mlen) (len := mlen) (by omega)
        have hrest := ih (ht := inserted snappyMult m ht i) (le_refl (i + mlen)) (by omega)
        simp only [List.flatMap_append, List.length_append]
        omega
    · exact snLiteralPlan_length_le m n anchor

theorem varintEncode_length_le (fuel v : Nat) : (varintEncode fuel v).length ≤ fuel := by
  induction fuel generalizing v with
  | zero => exact Nat.le_refl 0
  | succ fuel ih =>
    unfold varintEncode
    split_ifs
    · exact Nat.succ_le_succ (Nat.zero_le fuel)
    · exact Nat.succ_le_succ (ih _)

/-- The length of a Snappy stream is within `SnMax` (44_snappy.md rule R152). -/
theorem snBytes_length_le (m : Memory) (n : Nat) : (snBytes m n).length ≤ 32 + n + n / 6 := by
  have hpreamble := varintEncode_length_le 10 n
  rw [snBytes, List.length_append]
  split_ifs with h0 hsmall
  · rw [List.length_nil]
    omega
  · have hsize := snLiteralOf_size_le (lits := Memory.slice m 0 n) (by rw [Memory_slice_length]; omega)
    rw [Memory_slice_length] at hsize
    rw [encode_length]
    omega
  · have := snPlan_length_le m (n + 1) (ht := []) (le_refl 0) (Nat.zero_le n)
    omega

theorem snMaxSize_of_le {p : Params} {n : Nat} (h : 32 + n + n / 6 ≤ p.sizeMax) : snMaxSize p n = 32 + n + n / 6 := by
  simp only [snMaxSize, satadd]
  omega

/-- Settles O25: the stream's bytes are within the bound, so they fit `OUT_CAP`. -/
theorem snappyBound : Obligations.SnappyBound := by
  intro s hl hc hn hsat hcap
  rw [snMaxSize_of_le hsat] at hcap
  have hlen := snBytes_length_le s.inMem s.inLen
  exact ⟨_, _, exec_snCompress_launchable hl hc (Nat.le_sub_one_of_lt hn),
    (snCompressBody_emits (s := s.start 5) rfl).finish_of_fits ((Nat.zero_add _).trans_le (hlen.trans hcap)),
    (Nat.zero_add _).trans_le hlen⟩

/-! ### `SN.SIZE` -/

/-- The output of `SN.COMPRESS`, once it is done: an input of fewer than `2^32` bytes, written as its stream. -/
theorem exec_snCompress_done {s t : State} (hb : s.status ≠ .busy) (hw : Memory.wf s.outMem)
    (h : exec .snCompress s = .next t) (hdone : t.status = .done) :
    s.inLen < 2 ^ 32 ∧ outBytes t 0 t.outLen = snBytes s.inMem s.inLen := by
  constructor
  · have hr : compressRefusal (some snMaxIn) s = none := (exec_next_iff (i := .snCompress) rfl hb).mp ⟨t, h⟩
    obtain ⟨hlimit, -⟩ := (compressRefusal_eq_none _ s).mp hr
    have hle : s.inLen ≤ 2 ^ 32 - 1 := Nat.le_of_not_lt (of_decide_eq_false hlimit)
    omega
  · obtain ⟨-, ⟨-, -, hlen, -⟩, hbytes⟩ | ⟨-, herror, -⟩ := exec_compress_outcome (.inr (.inr rfl)) hb hw h
    · rw [hlen]
      exact hbytes
    · exact absurd (hdone.symm.trans herror) (by decide)

/-- Within the host's contract a command that reads `IN` is accepted. -/
theorem buffersRefusal_of_launchable {s : State} (hl : Launchable s) : buffersRefusal s = none := by
  obtain ⟨-, hoverlap, hin, hcap⟩ := hl
  exact (buffersRefusal_eq_none s).mpr ⟨⟨hoverlap, hcap⟩, hin⟩

/-- `SN.SIZE` answers the value of a preamble it can read (44_snappy.md rule R151). -/
theorem exec_snSize_of_preamble {u : State} {v n : Nat} {rest : List Byte} (hl : Launchable u)
    (h : readVarint 0 (inBytes u 0 u.inLen) = .ok (v, n, rest)) : ∃ t, exec .snSize u = .next t ∧ Completed 0 v t := by
  have hbody : snSizeBody (u.start 10) = State.complete v { u.start 10 with ip := n } := by
    have h' : readVarint 0 (inBytes (u.start 10) 0 (u.start 10).curLen) = .ok (v, n, rest) := h
    rw [snSizeBody, h']
  refine ⟨snSizeBody (u.start 10), (if_neg hl.1).trans (by rw [buffersRefusal_of_launchable hl]), ?_⟩
  rw [hbody]
  exact ⟨rfl, rfl, rfl, rfl, rfl⟩

/-- Settles O29: the stream begins with the varint of its input's length, which the reader takes back. -/
theorem sizeOfCompressed : Obligations.SizeOfCompressed := by
  intro s t u hb hw hexec hdone hl hlen hin
  obtain ⟨hn, hbytes⟩ := exec_snCompress_done hb hw hexec hdone
  exact exec_snSize_of_preamble hl ((congrArg (readVarint 0) (hin.trans hbytes)).trans (readVarint_varintEncode _ hn))

/-! ### The elements cover the input -/

/-- The elements cover the first `n` bytes of `m` from `anchor` on: each is the literal of the bytes up to some `i`, or a
copy of `len` bytes that are those at an earlier `c` (44_snappy.md rule R144). -/
inductive SnCovers (m : Memory) (n : Nat) : Nat → List Instr → Prop
  | nil : SnCovers m n n []
  | literal {anchor i : Nat} {rest : List Instr} (hanchor : anchor < i) (h : SnCovers m n i rest) :
      SnCovers m n anchor (snLiteralOf (Memory.slice m anchor (i - anchor)) :: rest)
  | copy {i c len : Nat} {e : Instr} {tag : Byte} {rest : List Instr} (hcopy : IsSnCopy e tag (i - c) len) (hc : c < i)
      (hmatch : ∀ k, k < len → Memory.read m (c + k) = Memory.read m (i + k)) (h : SnCovers m n (i + len) rest) :
      SnCovers m n i (e :: rest)

theorem SnCovers.anchor_le {m : Memory} {n anchor : Nat} {plan : List Instr} (h : SnCovers m n anchor plan) :
    anchor ≤ n := by
  induction h with
  | nil => exact le_rfl
  | literal => omega
  | copy => omega

theorem SnCovers.literalPlan {m : Memory} {n anchor i : Nat} {rest : List Instr} (hanchor : anchor ≤ i)
    (h : SnCovers m n i rest) : SnCovers m n anchor (snLiteralPlan m i anchor ++ rest) := by
  unfold snLiteralPlan
  split_ifs with hlt
  · exact .literal hlt h
  · obtain rfl : anchor = i := by omega
    exact h

/-- A copy of 1 to 64 bytes with two offset bytes (rule R142). -/
theorem snCopy2Of_isCopy {offset len : Nat} (hoffset : offset ≤ maxOffset) (hpos : 1 ≤ len) (hlen : len ≤ 64) :
    ∃ tag, IsSnCopy (snCopy2Of offset len) tag offset len := by
  have ho : (BitVec.ofNat 16 offset).toNat = offset :=
    toNat_ofNat_of_lt (hoffset.trans_lt (show maxOffset < 2 ^ 16 by decide))
  have hl : (BitVec.ofNat 6 (len - 1)).toNat = len - 1 := toNat_ofNat_of_lt (by omega)
  exact ⟨_, .inr (.inl ⟨_, _, rfl, ho.symm, by omega, rfl⟩)⟩

/-- The last copy of a match is of the shorter form where that holds its length and offset (rules R141, R143). -/
theorem snLastCopy_isCopy {offset len : Nat} (hoffset : offset ≤ maxOffset) (hpos : 4 ≤ len) (hlen : len ≤ 64) :
    ∃ tag, IsSnCopy (snLastCopy offset len) tag offset len := by
  unfold snLastCopy
  split_ifs with hshort
  · obtain ⟨h12, h2048⟩ := hshort
    have ho : (BitVec.ofNat 11 offset).toNat = offset := toNat_ofNat_of_lt h2048
    have hl : (BitVec.ofNat 3 (len - 4)).toNat = len - 4 := toNat_ofNat_of_lt (by omega)
    exact ⟨_, .inl ⟨_, _, rfl, ho.symm, by omega, rfl⟩⟩
  · exact snCopy2Of_isCopy hoffset (by omega) hlen

/-- A copy of the first `k` bytes of a match leaves the match of the others, at the same offset. -/
theorem SnCovers.copy_first {m : Memory} {n i c k len : Nat} {e : Instr} {rest : List Instr}
    (hcopy : ∃ tag, IsSnCopy e tag (i - c) k) (hc : c < i) (hk : k ≤ len)
    (hmatch : ∀ j, j < len → Memory.read m (c + j) = Memory.read m (i + j))
    (hrest : c + k < i + k → i + k - (c + k) = i - c →
      (∀ j, j < len - k → Memory.read m (c + k + j) = Memory.read m (i + k + j)) → SnCovers m n (i + k) rest) :
    SnCovers m n i (e :: rest) := by
  obtain ⟨tag, hcopy⟩ := hcopy
  refine .copy hcopy hc (fun j hj => hmatch j (by omega)) (hrest (by omega) (by omega) fun j hj => ?_)
  rw [Nat.add_assoc, Nat.add_assoc]
  exact hmatch (k + j) (by omega)

/-- The copies of a match cover it (rule R143). -/
theorem SnCovers.copies {m : Memory} {n fuel i c len : Nat} {rest : List Instr} (hc : c < i) (hfar : i - c ≤ maxOffset)
    (hlen : 4 ≤ len) (hfuel : len ≤ fuel) (hmatch : ∀ k, k < len → Memory.read m (c + k) = Memory.read m (i + k))
    (h : SnCovers m n (i + len) rest) : SnCovers m n i (snCopies (i - c) fuel len ++ rest) := by
  induction fuel generalizing i c len with
  | zero => omega
  | succ fuel ih =>
    unfold snCopies
    split_ifs with h68 h64
    · refine .copy_first (snCopy2Of_isCopy hfar (by decide) le_rfl) hc (by omega) hmatch fun hc' hoff hmatch' => ?_
      rw [← hoff]
      have hend : i + 64 + (len - 64) = i + len := by omega
      exact ih hc' (hoff ▸ hfar) (by omega) (by omega) hmatch' (hend ▸ h)
    · refine .copy_first (snCopy2Of_isCopy hfar (by decide) (by decide)) hc (by omega) hmatch fun hc' hoff hmatch' => ?_
      have hend : i + 60 + (len - 60) = i + len := by omega
      refine .copy_first ?_ hc' le_rfl hmatch' fun _ _ _ => hend ▸ h
      rw [hoff]
      exact snLastCopy_isCopy hfar (by omega) (by omega)
    · exact .copy_first (snLastCopy_isCopy hfar hlen (by omega)) hc le_rfl hmatch fun _ _ _ => h

/-- The scan's elements cover what is left from its anchor on, whatever the table holds of earlier positions. -/
theorem snPlan_covers (m : Memory) {n : Nat} (fuel : Nat) {ht : HashTable} {i anchor : Nat} (hw : HashTable.wf ht)
    (hcell : ∀ h, HashTable.cell ht h ≤ i) (hanchor : anchor ≤ i) (hi : i ≤ n) :
    SnCovers m n anchor (snPlan m n fuel ht i anchor) := by
  have hlast {anchor : Nat} (h : anchor ≤ n) : SnCovers m n anchor (snLiteralPlan m n anchor) := by
    simpa using SnCovers.nil.literalPlan (m := m) h
  induction fuel generalizing ht i anchor with
  | zero => exact hlast (hanchor.trans hi)
  | succ fuel ih =>
    have hw' := inserted_wf snappyMult m hw i
    have hcell' := inserted_cell_le (mult := snappyMult) (m := m) hw hcell
    unfold snPlan
    split_ifs with hroom
    · cases hc : candidate snappyMult m ht i with
      | none => exact ih hw' hcell' (by omega) (by omega)
      | some c =>
        obtain ⟨-, hfar, -⟩ := candidate_eq_some.mp hc
        have hext := matchExtend_le m (c + 4) (i + 4) (n - (i + 4))
        have hrest := ih hw' (fun h => (hcell' h).trans (by omega)) le_rfl
          (show i + (4 + matchExtend m (c + 4) (i + 4) (n - (i + 4))) ≤ n by omega)
        exact .literalPlan hanchor
          (.copies (candidate_lt hcell hc) hfar (by omega) le_rfl (fun k hk => candidate_matches hc hk) hrest)
    · exact hlast (hanchor.trans hi)

/-- Every stream is its preamble and elements that cover its input; a short input is one literal. -/
theorem snBytes_covers (m : Memory) (n : Nat) :
    ∃ plan, snBytes m n = varintEncode 10 n ++ plan.flatMap encode ∧ SnCovers m n 0 plan := by
  unfold snBytes
  split_ifs with h0 hsmall
  · subst h0
    exact ⟨[], rfl, .nil⟩
  · exact ⟨[snLiteralOf (Memory.slice m 0 n)], by simp, .literal (Nat.pos_of_ne_zero h0) .nil⟩
  · exact ⟨_, rfl, snPlan_covers m (n + 1) HashTable_nil_wf (fun _ => le_rfl) le_rfl (Nat.zero_le n)⟩

end Sys2Proof.Machine
end

section
/-! SUPPORT. Decoding the elements of a Snappy stream gives back the input they cover (44_snappy.md rule R153). -/

namespace Sys2Proof.Machine

/-! ### The elements of a plan -/

theorem snLiteralOf_isLiteral (lits : List Byte) : ∃ tag, IsSnLiteral (snLiteralOf lits) tag lits := by
  unfold snLiteralOf
  split_ifs
  · exact ⟨_, .inl ⟨rfl, rfl⟩⟩
  · exact ⟨_, .inr (.inl ⟨rfl, rfl⟩)⟩
  · exact ⟨_, .inr (.inr (.inl ⟨rfl, rfl⟩))⟩
  · exact ⟨_, .inr (.inr (.inr (.inl ⟨rfl, rfl⟩)))⟩
  · exact ⟨_, .inr (.inr (.inr (.inr ⟨rfl, rfl⟩)))⟩

/-- The shortest class holds the literal's length (30_encoding.md rule R69). -/
theorem snLiteralOf_wf {lits : List Byte} (hpos : 1 ≤ lits.length) (hle : lits.length ≤ 2 ^ 32) :
    (snLiteralOf lits).wf = true := by
  unfold snLiteralOf
  split_ifs
  all_goals exact decide_eq_true ⟨hpos, by omega⟩

theorem IsSnCopy.wf {i : Instr} {tag : Byte} {offset len : Nat} (h : IsSnCopy i tag offset len) : i.wf = true := by
  obtain ⟨l, o, rfl, -⟩ | ⟨l, o, rfl, -⟩ | ⟨l, o, rfl, -⟩ := h
  all_goals rfl

theorem IsSnCopy.len_pos {i : Instr} {tag : Byte} {offset len : Nat} (h : IsSnCopy i tag offset len) : 0 < len := by
  obtain ⟨l, o, -, -, rfl, -⟩ | ⟨l, o, -, -, rfl, -⟩ | ⟨l, o, -, -, rfl, -⟩ := h
  all_goals omega

theorem decode_snTag_encode {i : Instr} (hf : i.format = .snTag) (hwf : i.wf = true) (rest : List Byte) :
    decode .snTag (encode i ++ rest) = .ok (i, rest) := by
  rw [← hf]
  refine decodeInvertsEncode i rest hwf ?_
  rintro ml lits rfl
  cases hf

/-- A plan has an element left exactly where a byte of the input is not covered yet. -/
theorem SnCovers.nil_or_more {m : Memory} {n anchor : Nat} {plan : List Instr} (hn : n ≤ 2 ^ 32)
    (h : SnCovers m n anchor plan) :
    (plan = [] ∧ anchor = n) ∨ (plan ≠ [] ∧ anchor < n ∧ 0 < (plan.flatMap encode).length) := by
  cases h with
  | nil => exact .inl ⟨rfl, rfl⟩
  | @literal _ i rest hanchor h =>
    have hle := h.anchor_le
    have hwf : (snLiteralOf (Memory.slice m anchor (i - anchor))).wf = true := by
      refine snLiteralOf_wf ?_ ?_
      all_goals rw [Memory_slice_length]; omega
    exact .inr ⟨List.cons_ne_nil _ _, hanchor.trans_le hle, flatMap_encode_length_pos hwf rest⟩
  | copy hcopy hc hmatch h =>
    have hle := h.anchor_le
    have hpos := hcopy.len_pos
    exact .inr ⟨List.cons_ne_nil _ _, by omega, flatMap_encode_length_pos hcopy.wf _⟩

/-! ### A stream in the middle of its decoding -/

/-- `SN.DECOMPRESS` has read the preamble of an input of `n` bytes, the elements `plan` are left, and the first `anchor`
bytes of `m` are decoded. -/
structure SnDecodingAt (m : Memory) (n anchor : Nat) (plan : List Instr) (s : State) : Prop where
  busy : s.status = .busy
  alone : s.host = []
  declared : s.declared.toNat = n
  stream : inBytes s s.ip (s.curLen - s.ip) = plan.flatMap encode
  op : s.op = anchor
  wf : Memory.wf s.outMem
  decoded : MemAgree anchor m s.outMem

/-- Decoding stands at the next element, or is done with the whole input. -/
inductive SnProgress (m : Memory) (n : Nat) : Nat → List Instr → State → Prop
  | atTag {anchor : Nat} {plan : List Instr} {s : State} (hplan : plan ≠ []) (hphase : s.phase = .snTag)
      (h : SnDecodingAt m n anchor plan s) : SnProgress m n anchor plan s
  | done {s : State} (h : Completed n 0 s) (hdecoded : MemAgree n m s.outMem) : SnProgress m n n [] s

/-- The rest of the input stands after a part of it. -/
theorem inBytes_append {s : State} {a n : Nat} {xs ys : List Byte} (h : inBytes s a n = xs ++ ys) :
    n = xs.length + ys.length ∧ inBytes s (a + xs.length) (n - xs.length) = ys := by
  have hlen := congrArg List.length h
  have hdrop := congrArg (List.drop xs.length) h
  rw [inBytes, Memory_slice_length, List.length_append] at hlen
  rw [inBytes, Memory_slice_drop, List.drop_left] at hdrop
  exact ⟨hlen, hdrop⟩

section Progress
variable {m : Memory} {n anchor : Nat} {plan : List Instr} {s : State} (hn : n ≤ 2 ^ 32)
include hn

/-- The element loop goes on exactly where an element is left. -/
theorem SnDecodingAt.loop (h : SnDecodingAt m n anchor plan s) (hplan : SnCovers m n anchor plan) :
    SnProgress m n anchor plan (snLoop s).settle := by
  have hop := h.op
  have hdeclared := h.declared
  have hlen := congrArg List.length h.stream
  rw [inBytes, Memory_slice_length] at hlen
  obtain ⟨rfl, rfl⟩ | ⟨hne, hlt, hpos⟩ := hplan.nil_or_more hn
  · rw [snLoop, if_neg (by omega), if_pos (by omega)]
    exact .done ⟨rfl, rfl, hop, rfl, rfl⟩ h.decoded
  · rw [snLoop, if_pos ⟨by omega, by omega⟩]
    exact .atTag hne rfl { h with }

/-- An element that is read, passes its tests and appends the next bytes of `m` leaves the rest of the plan. -/
theorem SnDecodingAt.element {e : Instr} (h : SnDecodingAt m n anchor (e :: plan) s) (hphase : s.phase = .snTag)
    (hf : e.format = .snTag) (hwf : e.wf = true) {tag : Byte} {len : Nat} {offset : BitVec 32} {mem : Memory}
    (hexec : exec e s = .next (snLoop (afterSnElement tag len offset e.size mem s)).settle) (hw : Memory.wf mem)
    (hdecoded : MemAgree (anchor + len) m mem) (hplan : SnCovers m n (anchor + len) plan) :
    ∃ t, step s = .next t ∧ SnProgress m n (anchor + len) plan t := by
  have hstream : inBytes s s.ip (s.curLen - s.ip) = encode e ++ plan.flatMap encode := h.stream
  have hdecode : decode .snTag (fetchBytes s) = .ok (e, plan.flatMap encode) := by
    rw [fetchBytes, fetchLimit, if_neg (by simp [hphase]), hstream, decode_snTag_encode hf hwf]
  obtain ⟨hrun, -⟩ :=
    stepRunsDecodedInstruction.1 s .snTag e (plan.flatMap encode) h.busy (by rw [hphase]; rfl) hdecode
  obtain ⟨-, hrest⟩ := inBytes_append hstream
  rw [encode_length, Nat.sub_sub] at hrest
  refine ⟨_, (hrun h.alone).trans hexec, SnDecodingAt.loop hn ?_ hplan⟩
  exact { h with
    stream := hrest
    op := congrArg (· + len) h.op
    wf := hw
    decoded := hdecoded }

/-- A literal decodes its bytes. -/
theorem SnDecodingAt.literal {i : Nat} {lits : List Byte} (h : SnDecodingAt m n anchor (snLiteralOf lits :: plan) s)
    (hphase : s.phase = .snTag) (hanchor : anchor < i) (hlits : lits = Memory.slice m anchor (i - anchor))
    (hplan : SnCovers m n i plan) : ∃ t, step s = .next t ∧ SnProgress m n i plan t := by
  have hle := hplan.anchor_le
  have hlen : lits.length = i - anchor := by rw [hlits, Memory_slice_length]
  obtain ⟨tag, hi⟩ := snLiteralOf_isLiteral lits
  obtain ⟨u, -, hexec⟩ := hi.exec_eq s
  rw [if_neg (by rw [h.declared, h.op]; omega)] at hexec
  obtain ⟨hholds, hsame⟩ := outHolds_of_writeBytes (lits := lits)
    (t := { s with outMem := Memory.writeBytes s.outMem s.op lits }) h.wf rfl
  rw [h.op] at hholds hsame
  have hdecoded := h.decoded.of_literals (i := i) (by rw [← hlits]; exact hholds) fun a ha => hsame a (.inl ha)
  obtain rfl : i = anchor + lits.length := by omega
  rw [h.op] at hexec
  exact h.element hn hphase hi.format (snLiteralOf_wf (by omega) (by omega)) hexec (Memory_writeBytes_wf h.wf _ _)
    hdecoded hplan

/-- A copy decodes its bytes, which are those at `c`. -/
theorem SnDecodingAt.copy {i c len : Nat} {e : Instr} {tag : Byte} (h : SnDecodingAt m n i (e :: plan) s)
    (hphase : s.phase = .snTag) (hcopy : IsSnCopy e tag (i - c) len) (hc : c < i)
    (hmatch : ∀ k, k < len → Memory.read m (c + k) = Memory.read m (i + k)) (hplan : SnCovers m n (i + len) plan) :
    ∃ t, step s = .next t ∧ SnProgress m n (i + len) plan t := by
  have hle := hplan.anchor_le
  have hexec := hcopy.exec_eq s
  rw [snCopyCommon_eq, h.op, h.declared, if_neg (by omega), if_neg (by omega)] at hexec
  have hbefore : MemAgree i m (matchMem (i - c) len s.outMem i) := fun a ha =>
    (matchMem_outside _ _ _ (.inl ha)).trans (h.decoded a ha)
  have hdecoded := hbefore.of_match hc hmatch fun k hk => matchMem_repeats (by omega) len h.wf (by omega) hk
  exact h.element hn hphase hcopy.format hcopy.wf hexec (matchMem_wf h.wf _ _ _) hdecoded hplan

/-! ### The whole stream -/

/-- Decoding every element ends the command with the input. -/
theorem SnCovers.decodes (hplan : SnCovers m n anchor plan) (h : SnProgress m n anchor plan s) :
    ∃ k t, core.run k s = .next t ∧ Completed n 0 t ∧ MemAgree n m t.outMem := by
  induction hplan generalizing s with
  | nil =>
    cases h with
    | atTag hne => exact absurd rfl hne
    | done hdone hdecoded => exact ⟨0, s, rfl, hdone, hdecoded⟩
  | literal hanchor hrest ih =>
    cases h with
    | atTag _ hphase h =>
      obtain ⟨u, hstep, hu⟩ := h.literal hn hphase hanchor rfl hrest
      obtain ⟨k, t, hrun, hdone⟩ := ih hu
      exact ⟨k + 1, t, (core_run_succ hstep k).trans hrun, hdone⟩
  | copy hcopy hc hmatch hrest ih =>
    cases h with
    | atTag _ hphase h =>
      obtain ⟨u, hstep, hu⟩ := h.copy hn hphase hcopy hc hmatch hrest
      obtain ⟨k, t, hrun, hdone⟩ := ih hu
      exact ⟨k + 1, t, (core_run_succ hstep k).trans hrun, hdone⟩

end Progress

/-- `SN.DECOMPRESS` begins at its preamble. -/
theorem exec_snDecompress_launchable {u : State} (hl : Launchable u) :
    exec .snDecompress u = .next { u.start 6 with phase := .snLen } :=
  (if_neg hl.1).trans (by rw [buffersRefusal_of_launchable hl])

/-- The preamble of a stream is read, and its elements are left. -/
theorem snLen_progress {m : Memory} {n : Nat} {plan : List Instr} {s : State} (hn : n < 2 ^ 32)
    (hplan : SnCovers m n 0 plan) (hbusy : s.status = .busy) (hhost : s.host = []) (hphase : s.phase = .snLen)
    (hstream : inBytes s s.ip (s.curLen - s.ip) = varintEncode 10 n ++ plan.flatMap encode) (hw : Memory.wf s.outMem)
    (hcap : n ≤ s.outCap) (hmax : n ≤ s.maxOut) : ∃ t, step s = .next t ∧ SnProgress m n 0 plan t := by
  have hvalue : (BitVec.ofNat 32 n).toNat = n := toNat_ofNat_of_lt hn
  have hdeclared : (BitVec.ofNat 64 n).toNat = n := toNat_ofNat_of_lt (by omega)
  have hdecode : decode .snVarint (fetchBytes s) =
      .ok (.snLen (BitVec.ofNat 32 n) (varintEncode 10 n).length, plan.flatMap encode) := by
    rw [fetchBytes, fetchLimit, if_neg (by simp [hphase]), hstream, decode, readVarint_varintEncode _ hn]
  obtain ⟨hrun, -⟩ := stepRunsDecodedInstruction.1 s .snVarint _ _ hbusy (by rw [hphase]; rfl) hdecode
  refine ⟨_, (hrun hhost).trans (exec_snLen_eq _ _ _), ?_⟩
  rw [hvalue, if_neg (Nat.not_lt.mpr hmax), if_neg (Nat.not_lt.mpr hcap), afterPreamble, hvalue]
  obtain ⟨-, hrest⟩ := inBytes_append hstream
  rw [Nat.sub_sub] at hrest
  exact SnDecodingAt.loop hn.le ⟨hbusy, hhost, hdeclared, hrest, rfl, hw, nofun⟩ hplan

/-- Settles O31: the output of `SN.COMPRESS` is a preamble and elements that cover the input, and the decoder runs them one
after the other. -/
theorem snappyRoundTrip : Obligations.SnappyRoundTrip := by
  intro s t u hb hw hexec hdone hl hwu hhost hlen hin hcap hmax
  obtain ⟨hn, hbytes⟩ := exec_snCompress_done hb hw hexec hdone
  obtain ⟨plan, hplanBytes, hplan⟩ := snBytes_covers s.inMem s.inLen
  obtain ⟨d, hstep, hprogress⟩ := snLen_progress (s := { u.start 6 with phase := .snLen }) hn hplan rfl hhost rfl
    (hin.trans (hbytes.trans hplanBytes)) hwu hcap hmax
  obtain ⟨k, v, hrun, hv, hagree⟩ := hplan.decodes hn.le hprogress
  exact ⟨_, v, k + 1, exec_snDecompress_launchable hl, (core_run_succ hstep k).trans hrun, hv,
    hagree.slice (Nat.zero_add _).le⟩

end Sys2Proof.Machine
end

section
/-! SUPPORT. How the commands end and begin: a compress command and `SN.SIZE` in one step, a decompress command
before the first object of its format (45_commands.md rules R160 to R170). -/

namespace Sys2Proof.Machine

/-! ### The compress commands end -/

/-- The scan's sequences always close with one, so they are at least a token. -/
theorem lz4Plan_encode_length_pos (p : Params) (m : Memory) (n fuel : Nat) (ht : HashTable) (i anchor : Nat) :
    0 < ((lz4Plan p m n fuel ht i anchor).flatMap encode).length := by
  induction fuel generalizing ht i anchor with
  | zero => exact flatMap_encode_length_pos rfl _
  | succ fuel ih =>
    unfold lz4Plan
    split_ifs with hroom
    · cases candidate lz4Mult m ht i with
      | none => exact ih _ _ _
      | some c =>
        refine flatMap_encode_length_pos ?_ _
        exact decide_eq_true (Nat.le_add_right 4 _)
    · exact flatMap_encode_length_pos rfl _

theorem lz4BlockBytes_length_pos (p : Params) (m : Memory) (n : Nat) : 0 < (lz4BlockBytes p m n).length := by
  unfold lz4BlockBytes
  split
  · rw [encode_length]
    exact Instr.size_pos rfl
  · exact lz4Plan_encode_length_pos _ _ _ _ _ _ _

theorem lz4fBytes_length_pos (hc : Byte) (p : Params) (m : Memory) (n : Nat) (opts : BitVec 2)
    (contentSize : BitVec 64) : 0 < (lz4fBytes hc p m n opts contentSize).length := by
  rw [lz4fBytes_length]
  omega

theorem varintEncode_succ_length_pos (fuel v : Nat) : 0 < (varintEncode (fuel + 1) v).length := by
  unfold varintEncode
  split
  · exact Nat.one_pos
  · exact Nat.succ_pos _

theorem snBytes_length_pos (m : Memory) (n : Nat) : 0 < (snBytes m n).length := by
  rw [snBytes, List.length_append]
  exact Nat.add_pos_left (varintEncode_succ_length_pos 9 n) _

/-- Within its limits a compress command is over in one step, by a run that has at least one byte to emit. -/
theorem exec_compress_emits {i : Instr} {s : State} (hi : IsCompress i) (hl : Launchable s) (hc : CellsHoldPositions s)
    (hframe : i = .lz4fCompress → s.inLen ≤ 0x7E000000) (hsn : i = .snCompress → s.inLen < 2 ^ 32) :
    ∃ code slot bytes r, encode i = [code] ∧ 0 < bytes.length ∧ Emits bytes { s.start code with slot := slot } r ∧
      exec i s = .next r.finish := by
  rcases hi with rfl | rfl | rfl
  · exact ⟨1, s.slot, _, _, rfl, lz4BlockBytes_length_pos _ _ _,
      lz4BlockCompress_emits (s := s.start 1) (Nat.zero_le _), exec_lz4bCompress_launchable hl hc⟩
  · obtain ⟨hchk, slot, -, hemits⟩ := lz4FrameCompress_emits (s := s.start 3) rfl
    exact ⟨3, slot, _, _, rfl, lz4fBytes_length_pos _ _ _ _ _ _, hemits,
      exec_lz4fCompress_launchable hl hc (hframe rfl)⟩
  · exact ⟨5, s.slot, _, _, rfl, snBytes_length_pos _ _, snCompressBody_emits (s := s.start 5) rfl,
      exec_snCompress_launchable hl hc (Nat.le_sub_one_of_lt (hsn rfl))⟩

/-- Settles O22: the command's run appends its bytes within `OUT_CAP` or meets it, and it has at least one byte to
append. -/
theorem compressEnds : Obligations.CompressEnds := by
  intro i s hi hl hc hframe hsn
  obtain ⟨code, slot, bytes, r, hcode, hpos, hemits, hexec⟩ := exec_compress_emits hi hl hc hframe hsn
  refine ⟨_, hexec, ?_⟩
  obtain ⟨t, ht, e⟩ | ⟨-, t, ht, e⟩ := hemits.finish_cases
  all_goals
    rw [e]
    obtain ⟨hcmd, -, hoperands⟩ := ht.hostSide
    refine ⟨hoperands, hcode.trans (congrArg (fun b => [b]) hcmd.symm), ?_⟩
  · have hop : t.op = bytes.length := ht.op.trans (Nat.zero_add _)
    have hfits : t.op ≤ s.outCap := ht.fits
    exact ⟨.inl ⟨t.op, ⟨rfl, rfl, rfl, rfl, rfl⟩, hfits, ht.outside⟩, fun hcap => by omega⟩
  · have hraised := Raised.fail .outputTooSmall t
    exact ⟨.inr ⟨hraised, ht.outside⟩, fun _ => hraised⟩

/-! ### `SN.SIZE` -/

/-- Within the host's contract a command that reads `IN` runs its body from the started state. -/
theorem launch_of_launchable {s : State} (hl : Launchable s) (code : BitVec 8) (body : State → State) :
    launch code buffersRefusal body s = .next (body (s.start code)) := by
  rw [launch, if_neg hl.1, buffersRefusal_of_launchable hl]

theorem snSizeBody_of_ok {s : State} {v n : Nat} {rest : List Byte}
    (h : readVarint 0 (inBytes s 0 s.curLen) = .ok (v, n, rest)) :
    snSizeBody s = State.complete v { s with ip := n } := by
  rw [snSizeBody, h]

theorem snSizeBody_of_error {s : State} {e : DecodeError} (h : readVarint 0 (inBytes s 0 s.curLen) = .error e) :
    snSizeBody s = s.fail .invalidData := by
  rw [snSizeBody, h]

/-- The query's body touches neither the host's side nor `OUT`. -/
theorem snSizeBody_frame (s : State) : HostSideSame s (snSizeBody s) ∧ (snSizeBody s).outMem = s.outMem := by
  cases h : readVarint 0 (inBytes s 0 s.curLen) with
  | ok p =>
    rw [snSizeBody_of_ok h]
    exact ⟨.refl s, rfl⟩
  | error e =>
    rw [snSizeBody_of_error h]
    exact ⟨.refl s, rfl⟩

/-- Settles O19: the body ends the command with the value the reader gives, or raises where it gives none, as on no
bytes. -/
theorem sizeQuery : Obligations.SizeQuery := by
  intro s hl
  obtain ⟨⟨hcmd, -, hoperands⟩, hout⟩ := snSizeBody_frame (s.start 10)
  have herror (e : DecodeError) (h : readVarint 0 (inBytes s 0 s.inLen) = .error e) :
      Raised .invalidData (snSizeBody (s.start 10)) := by
    rw [snSizeBody_of_error (s := s.start 10) h]
    exact .fail _ _
  refine ⟨_, launch_of_launchable hl 10 snSizeBody, hcmd, hoperands, hout, fun v n rest h => ?_, herror, fun h0 => ?_⟩
  · rw [snSizeBody_of_ok (s := s.start 10) h]
    exact ⟨⟨rfl, rfl, rfl, rfl, rfl⟩, rfl⟩
  · exact herror .cut (by rw [h0]; rfl)

/-! ### The decompress commands begin -/

theorem blockLoop_of_bareBlock_end {s : State} (h : s.endIdx ≤ s.ip) (hp : s.phase ≠ .frameBlock) :
    blockLoop s = s.complete 0 :=
  (if_neg (Nat.not_lt.mpr h)).trans (if_neg hp)

theorem exec_lz4fDecompress_launchable {s : State} (hl : Launchable s) :
    exec .lz4fDecompress s = .next { s.start 4 with phase := .magic } :=
  launch_of_launchable hl 4 fun s1 => { s1 with phase := .magic }

/-- The empty block has no token, so its command is over at once (42_lz4_block.md rule R109). -/
theorem exec_lz4bDecompress_empty {s : State} (hl : Launchable s) (h0 : s.inLen = 0) :
    exec .lz4bDecompress s =
      .next (State.complete 0 { s.start 2 with phase := .block, endIdx := s.inLen, base := 0 }) :=
  (launch_of_launchable hl 2 fun s1 => blockLoop { s1 with phase := .block, endIdx := s1.curLen, base := 0 }).trans
    (congrArg Host.Outcome.next (blockLoop_of_bareBlock_end (Nat.le_of_eq h0) nofun))

/-- Settles O20: the launch puts the engine before the first object of its format, and an empty block has none. -/
theorem decompressStarts : Obligations.DecompressStarts := by
  intro s hl
  exact ⟨exec_lz4fDecompress_launchable hl, exec_snDecompress_launchable hl, exec_lz4bDecompress_launchable hl, fun h0 =>
    ⟨_, exec_lz4bDecompress_empty hl h0, ⟨rfl, rfl, rfl, rfl, rfl⟩, rfl, OperandsSame.refl s, rfl, rfl⟩⟩

end Sys2Proof.Machine
end

section
/-! SUPPORT. What starts no command: a stream element, a write to a register at the wrong time or of the wrong kind, a
reserved command code (45_commands.md rules R171, R172, R175). -/

namespace Sys2Proof.Machine

/-! ### The stream elements -/

/-- An element is never refused and never faults. -/
theorem exec_element_next {i : Instr} (hi : IsElement i) (s : State) : ∃ t, exec i s = .next t := by
  cases i
  case lz4bCompress | lz4bDecompress | lz4fCompress | lz4fDecompress | snCompress | snDecompress => exact absurd rfl hi
  case lz4bMax | lz4fMax | snMax | snSize => exact absurd rfl hi
  all_goals exact ⟨_, rfl⟩

/-- Settles O42: an element always has a next state, which keeps what is the host's. -/
theorem elementsLeaveHostSide : Obligations.ElementsLeaveHostSide := by
  intro i s hi
  obtain ⟨t, h⟩ := exec_element_next hi s
  exact ⟨t, h, exec_element_hostSide hi h⟩

/-! ### The host's writes -/

/-- The host's oldest action is a write to `CMD` that starts no command. -/
theorem step_writeCmd {s t : State} {v : Nat} {r : List HostAction} (hr : s.host = .writeReg .cmd v :: r)
    (h : hostCommand v { s with host := r } = .out (.next t)) : step s = .next t := by
  refine step_of_hostAct hr (by simp) (by simp) ?_
  rw [hostAct, if_pos rfl, h]

/-- A write to `CMD` while a command runs is ignored (45_commands.md rule R172). -/
theorem step_writeCmd_of_busy {s : State} {v : Nat} {r : List HostAction} (hb : s.status = .busy)
    (hr : s.host = .writeReg .cmd v :: r) : step s = .next { s with host := r } :=
  step_writeCmd hr (if_pos hb)

/-- A write to a read-only register is ignored (rule R172). -/
theorem step_writeReg_readOnly {s : State} {q : Reg} {v : Nat} {r : List HostAction} (hr : s.host = .writeReg q v :: r)
    (hq : q ≠ .cmd) (harg : isArgReg q ≠ true) : step s = .next { s with host := r } := by
  refine step_of_hostAct hr (by simp) (by simp) ((if_neg hq).trans (congrArg Event.out ?_))
  rw [hostWriteReg, if_neg fun h => harg h.2, writeArg_of_not_isArgReg harg]

/-- A write to an argument register inside the handshake is refused (70_reset_and_hazards.md rule R205). -/
theorem step_writeReg_refused {s : State} {q : Reg} {v : Nat} {r : List HostAction} (hr : s.host = .writeReg q v :: r)
    (hoff : HandsOff s) (harg : isArgReg q = true) : step s = .refused .hostWhileBusy := by
  have hq : q ≠ .cmd := by rintro rfl; cases harg
  exact step_of_hostAct hr (by simp) (by simp) ((if_neg hq).trans (congrArg Event.out (if_pos ⟨hoff, harg⟩)))

/-- Settles O12: the three kinds of register, `CMD`, the read-only ones and the arguments, each by its own rule. -/
theorem ignoredWrites : Obligations.IgnoredWrites := by
  intro s v r
  refine ⟨step_writeCmd_of_busy, fun q hq hr => ?_, fun q hq hoff hr => ?_⟩
  · have hreadOnly : q ≠ .cmd ∧ isArgReg q ≠ true := by rcases hq with rfl | rfl | rfl | rfl <;> decide
    exact step_writeReg_readOnly hr hreadOnly.1 hreadOnly.2
  · have harg : isArgReg q = true := by rcases hq with rfl | rfl | rfl | rfl | rfl <;> rfl
    exact step_writeReg_refused hr hoff harg

/-! ### Reserved command codes -/

theorem decodeCommand_eq_none {code : Byte} (h : code.toNat = 0 ∨ 11 ≤ code.toNat) : decodeCommand code = none := by
  unfold decodeCommand
  split
  case h_11 => rfl
  all_goals omega

/-- A code that is no command's, written while no command runs, raises `IllegalCommand` (45_commands.md rule R171). -/
theorem step_writeCmd_of_reserved {s : State} {v : Nat} {r : List HostAction} (hb : s.status ≠ .busy)
    (hr : s.host = .writeReg .cmd v :: r) (hcode : decodeCommand (BitVec.ofNat 8 v) = none) :
    step s = .next (illegalCommand (BitVec.ofNat 8 v) { s with host := r }) := by
  refine step_writeCmd hr ?_
  rw [hostCommand, if_neg hb, hcode]

/-- Settles O13: a reserved code decodes to no command, and its body is the `raise` alone. -/
theorem reservedCommandCodes : Obligations.ReservedCommandCodes := by
  intro s v r hb hr hv
  have hcode : decodeCommand (BitVec.ofNat 8 v) = none := decodeCommand_eq_none (by rwa [BitVec.toNat_ofNat])
  exact ⟨_, step_writeCmd_of_reserved hb hr hcode, ⟨rfl, rfl, rfl, rfl, rfl⟩, rfl, rfl, rfl,
    OperandsSame.refl { s with host := r }, rfl, rfl⟩

end Sys2Proof.Machine
end

section
/-! SUPPORT. What a step can put into `ERR`: `ChecksumMismatch` by a wrong content checksum alone, `OutOfMemory` by nothing
(60_exceptions.md rules R182, R186). -/

namespace Sys2Proof.Machine

/-! ### The common kinds -/

/-- The kinds with other causes than the content checksum: `ChecksumMismatch` has that one alone (60_exceptions.md rule
R182), `OutOfMemory` has none (rule R186). -/
def ErrKind.isCommon : ErrKind → Bool
  | .checksumMismatch => false
  | .outOfMemory => false
  | _ => true

/-- The kind in `ERR`, if it was not there before, is a common one. -/
def ErrCommon (s t : State) : Prop := ∀ k, t.err = some k → s.err = some k ∨ k.isCommon = true

section
variable {s t u : State}

theorem ErrCommon.of_eq (h : t.err = s.err) : ErrCommon s t := fun _ hk => .inl (h ▸ hk)

theorem ErrCommon.of_none (h : t.err = none) : ErrCommon s t := fun _ hk => by simp [h] at hk

theorem ErrCommon.of_some {k : ErrKind} (h : t.err = some k) (hk : k.isCommon = true) : ErrCommon s t := by
  intro k' hk'
  obtain rfl := Option.some.inj (h.symm.trans hk')
  exact .inr hk

theorem ErrCommon.complete (n : Nat) (u : State) : ErrCommon s (u.complete n) := .of_none rfl

theorem ErrCommon.fail {k : ErrKind} (h : k.isCommon = true) (u : State) : ErrCommon s (u.fail k) :=
  .of_some rfl h

theorem ErrCommon.blockLoop (h : u.err = s.err) : ErrCommon s (blockLoop u) := by
  obtain ⟨-, e⟩ | ⟨-, -, e⟩ | ⟨-, -, e⟩ := blockLoop_cases u
  all_goals rw [e]
  · exact .of_eq h
  · exact .of_eq h
  · exact .complete 0 u

theorem ErrCommon.snLoop (h : u.err = s.err) : ErrCommon s (snLoop u).settle := by
  obtain ⟨-, e⟩ | ⟨-, -, e⟩ | ⟨-, -, e⟩ := snLoop_cases u
  all_goals rw [e]
  · exact .of_eq h
  · exact .complete 0 u
  · exact .fail rfl u

/-- A header field whose value is tested once it is read. -/
theorem ErrCommon.of_test {k : ErrKind} {c : Prop} [Decidable c] (hk : k.isCommon = true) (h : u.err = s.err) :
    ErrCommon s (if c then Run.raise k u else .ok u).settle := by
  split
  · exact .fail hk u
  · exact .of_eq h

end

/-! ### The stream elements -/

theorem snLiteral_errCommon (tag : Byte) (lenBytes : Nat) (lits : List Byte) (s : State) :
    ErrCommon s (snLiteral tag lenBytes lits s) := by
  rw [snLiteral_eq]
  split
  · exact .fail rfl _
  · exact .snLoop rfl

theorem snCopyCommon_errCommon (tag : Byte) (size offset len : Nat) (s : State) :
    ErrCommon s (snCopyCommon tag size offset len s) := by
  rw [snCopyCommon_eq]
  split_ifs
  · exact .fail rfl _
  · exact .fail rfl _
  · exact .snLoop rfl

@[simp] theorem afterLiterals_err (token : Byte) (lits : List Byte) (s : State) :
    (afterLiterals token lits s).err = s.err := rfl

@[simp] theorem afterOffset_err (offset : BitVec 16) (s : State) : (afterOffset offset s).err = s.err := rfl

@[simp] theorem afterMatch_err (mlen : Nat) (s : State) : (afterMatch mlen s).err = s.err := rfl

theorem exec_lz4Seq_errCommon {lits : List Byte} {offset : BitVec 16} {mlen : Nat} {s t : State}
    (h : exec (.lz4Seq lits offset mlen) s = .next t) : ErrCommon s t := by
  rw [exec_lz4Seq_eq] at h
  obtain rfl := Host.Outcome.next.inj h
  split_ifs
  · exact .fail rfl _
  · exact .fail rfl _
  · exact .fail rfl _
  · exact .fail rfl _
  · exact .fail rfl _
  · exact .blockLoop (by simp)

theorem exec_lz4Last_errCommon {ml : BitVec 4} {lits : List Byte} {s t : State}
    (h : exec (.lz4Last ml lits) s = .next t) : ErrCommon s t := by
  rw [exec_lz4Last_eq] at h
  obtain rfl := Host.Outcome.next.inj h
  split_ifs
  · exact .fail rfl _
  · exact .fail rfl _
  · exact .blockLoop rfl

theorem exec_snLen_errCommon {value : BitVec 32} {nbytes : Nat} {s t : State}
    (h : exec (.snLen value nbytes) s = .next t) : ErrCommon s t := by
  rw [exec_snLen_eq] at h
  obtain rfl := Host.Outcome.next.inj h
  split_ifs
  · exact .fail rfl _
  · exact .fail rfl _
  · exact .snLoop rfl

theorem exec_lz4fEnd_errCommon {s t : State} (h : exec .lz4fEnd s = .next t) : ErrCommon s t := by
  rw [exec_lz4fEnd_eq] at h
  obtain rfl := Host.Outcome.next.inj h
  split
  · exact .of_eq rfl
  · exact .complete 0 _

theorem exec_lz4fBlock_errCommon {blen : BitVec 31} {s t : State} (h : exec (.lz4fBlock blen) s = .next t) :
    ErrCommon s t := by
  obtain rfl := Host.Outcome.next.inj h
  rw [lz4fBlockWord_settle]
  split
  · exact .fail rfl _
  · exact .blockLoop rfl

theorem exec_lz4fStored_errCommon {blen : BitVec 31} {s t : State} (h : exec (.lz4fStored blen) s = .next t) :
    ErrCommon s t := by
  rw [exec_lz4fStored_eq, literalCopy_eq] at h
  obtain rfl := Host.Outcome.next.inj h
  split_ifs
  · exact .fail rfl _
  · exact .fail rfl _
  · exact .fail rfl _
  · exact .of_eq rfl

/-- No element raises a kind that is not common, but `LZ4F.CCHK`. -/
theorem exec_element_errCommon {i : Instr} {s t : State} (hi : IsElement i) (hcchk : ∀ checksum, i ≠ .lz4fCchk checksum)
    (h : exec i s = .next t) : ErrCommon s t := by
  cases i
  case lz4Seq => exact exec_lz4Seq_errCommon h
  case lz4Last => exact exec_lz4Last_errCommon h
  case snLen => exact exec_snLen_errCommon h
  case snLit | snLit1 | snLit2 | snLit3 | snLit4 => exact Host.Outcome.next.inj h ▸ snLiteral_errCommon _ _ _ s
  case snCopy1 | snCopy2 | snCopy4 => exact Host.Outcome.next.inj h ▸ snCopyCommon_errCommon _ _ _ _ s
  case lz4fMagic | lz4fBd | lz4fCsize => exact Host.Outcome.next.inj h ▸ .of_test rfl rfl
  case lz4fFlg | lz4fHc => exact Host.Outcome.next.inj h ▸ .of_eq rfl
  case lz4fEnd => exact exec_lz4fEnd_errCommon h
  case lz4fBlock => exact exec_lz4fBlock_errCommon h
  case lz4fStored => exact exec_lz4fStored_errCommon h
  case lz4fCchk checksum => exact absurd rfl (hcchk checksum)
  all_goals exact absurd rfl hi

/-- `LZ4F.CCHK` raises `ChecksumMismatch` where its value is wrong (43_lz4_frame.md rule R125). -/
theorem exec_lz4fCchk_err {checksum : BitVec 32} {s t : State} (h : exec (.lz4fCchk checksum) s = .next t) :
    ErrCommon s t ∨ (t.err = some .checksumMismatch ∧ xxh32 (outBytes s 0 s.op) 0 ≠ checksum) := by
  obtain ⟨u, hu, -, -, hend⟩ := frameChecksum checksum s
  obtain rfl := Host.Outcome.next.inj (hu.symm.trans h)
  split at hend
  · obtain ⟨⟨-, herr, -⟩, -⟩ := hend
    exact .inl (.of_none herr)
  · next hne =>
    obtain ⟨-, herr, -⟩ := hend
    exact .inr ⟨herr, hne⟩

/-- Bytes that are no whole element raise a common kind. -/
theorem badElement_errCommon (e : DecodeError) (s : State) : ErrCommon s (badElement e s) := by
  cases e
  case cut => exact .fail (by cases s.phase <;> rfl) s
  case cutOffset token lits =>
    rw [badElement, lz4CutOffset_eq]
    split_ifs <;> exact .fail rfl _
  case cutMatchExt token lits offset =>
    rw [badElement, lz4CutMatchExt_eq]
    split_ifs <;> exact .fail rfl _
  all_goals exact .fail rfl s

/-! ### The commands -/

theorem snSizeBody_errCommon (s : State) : ErrCommon s (snSizeBody s) := by
  unfold snSizeBody
  split
  · exact .complete _ _
  · exact .fail rfl s

/-- A compress command is done, or has met `OUT_CAP`. -/
theorem exec_compress_errCommon {i : Instr} {s t : State} (hi : IsCompress i) (hb : s.status ≠ .busy)
    (h : exec i s = .next t) : ErrCommon s t := by
  obtain ⟨code, slot, bytes, r, -, he, rfl⟩ := exec_compress hi hb h
  obtain ⟨u, -, e⟩ | ⟨-, u, -, e⟩ := he.finish_cases
  all_goals rw [e]
  · exact .complete 0 u
  · exact .fail rfl u

/-- No command's first step raises a kind that is not common. -/
theorem exec_command_errCommon {i : Instr} {s t : State} (hi : i.format = .cmd8) (h : exec i s = .next t) :
    ErrCommon s t := by
  by_cases hb : s.status = .busy
  · obtain rfl := Host.Outcome.next.inj ((exec_of_busy hi hb).symm.trans h)
    exact .of_eq rfl
  have hlaunch {code refusal body} (h : launch code refusal body s = .next t)
      (hbody : ErrCommon s (body (s.start code))) : ErrCommon s t := by
    obtain ⟨hb', -⟩ | ⟨-, -, rfl⟩ := launch_next h
    · exact absurd hb' hb
    · exact hbody
  cases i
  case lz4bCompress => exact exec_compress_errCommon (.inl rfl) hb h
  case lz4fCompress => exact exec_compress_errCommon (.inr (.inl rfl)) hb h
  case snCompress => exact exec_compress_errCommon (.inr (.inr rfl)) hb h
  case lz4bDecompress => exact hlaunch (show execLz4bDecompress s = _ from h) (.blockLoop rfl)
  case lz4fDecompress => exact hlaunch (show execLz4fDecompress s = _ from h) (.of_eq rfl)
  case snDecompress => exact hlaunch (show execSnDecompress s = _ from h) (.of_eq rfl)
  case lz4bMax => exact hlaunch (show execLz4bMax s = _ from h) (.complete _ _)
  case lz4fMax => exact hlaunch (show execLz4fMax s = _ from h) (.complete _ _)
  case snMax => exact hlaunch (show execSnMax s = _ from h) (.complete _ _)
  case snSize => exact hlaunch (show execSnSize s = _ from h) (snSizeBody_errCommon (s.start 10))
  all_goals cases hi

/-! ### Every instruction and every step -/

/-- A wrong content checksum is the one cause of a kind that is not common. -/
theorem exec_err {i : Instr} {s t : State} (h : exec i s = .next t) :
    ErrCommon s t ∨ (t.err = some .checksumMismatch ∧
      ∃ checksum, i = .lz4fCchk checksum ∧ xxh32 (outBytes s 0 s.op) 0 ≠ checksum) := by
  by_cases hi : i.format = .cmd8
  · exact .inl (exec_command_errCommon hi h)
  by_cases hcchk : ∃ checksum, i = .lz4fCchk checksum
  · obtain ⟨checksum, rfl⟩ := hcchk
    obtain hc | ⟨ht, hne⟩ := exec_lz4fCchk_err h
    · exact .inl hc
    · exact .inr ⟨ht, checksum, rfl, hne⟩
  · exact .inl (exec_element_errCommon hi (fun checksum e => hcchk ⟨checksum, e⟩) h)

theorem decodeCommand_format {code : Byte} {i : Instr} (h : decodeCommand code = some i) : i.format = .cmd8 := by
  unfold decodeCommand at h
  split at h <;> cases h
  all_goals rfl

theorem phaseFormat_eq_cchk32 {p : Phase} (h : phaseFormat p = some .cchk32) : p = .cchk := by
  cases p <;> cases h
  rfl

/-- The engine moves and runs an `LZ4F.CCHK` whose value is not that of the output produced (43_lz4_frame.md rule R125). -/
abbrev RunsWrongChecksum (s : State) : Prop :=
  ∃ s0 checksum rest, EngineMoves s s0 ∧ s.phase = .cchk ∧
    decode .cchk32 (fetchBytes s) = .ok (.lz4fCchk checksum, rest) ∧ xxh32 (outBytes s 0 s.op) 0 ≠ checksum

theorem step_engine_err {s s0 t : State} (hm : EngineMoves s s0) (h : step s = .next t) :
    ErrCommon s t ∨ (t.err = some .checksumMismatch ∧ RunsWrongChecksum s) := by
  have hn := nextEvent_of_EngineMoves hm
  have hs0 := EngineMoves_eq hm
  generalize s0.host = r at hs0
  subst hs0
  obtain ⟨-, e⟩ | ⟨f, i, rest, hp, hd, e⟩ | ⟨f, e', -, -, e⟩ := engineEvent_cases { s with host := r }
  · obtain rfl := Host.Outcome.next.inj ((step_of_out (hn.trans e)).symm.trans h)
    exact .inl (.of_eq rfl)
  · obtain hc | ⟨ht, checksum, rfl, hne⟩ := exec_err ((step_of_run (hn.trans e)).symm.trans h)
    · exact .inl hc
    · obtain ⟨rfl, -⟩ := decode_took hd
      exact .inr ⟨ht, _, checksum, rest, hm, phaseFormat_eq_cchk32 hp, hd, hne⟩
  · obtain rfl := Host.Outcome.next.inj ((step_of_out (hn.trans e)).symm.trans h)
    exact .inl (badElement_errCommon e' _)

theorem step_command_errCommon {s t : State} {v : Nat} {r : List HostAction} (hr : s.host = .writeReg .cmd v :: r)
    (h : step s = .next t) : ErrCommon s t := by
  have hn : nextEvent s = hostCommand v { s with host := r } := by simp [nextEvent, hr, hostAct]
  unfold hostCommand at hn
  split at hn
  · obtain rfl := Host.Outcome.next.inj ((step_of_out hn).symm.trans h)
    exact .of_eq rfl
  · split at hn
    · next i hi =>
      have hc : ErrCommon { s with host := r } t :=
        exec_command_errCommon (decodeCommand_format hi) ((step_of_run hn).symm.trans h)
      exact hc
    · obtain rfl := Host.Outcome.next.inj ((step_of_out hn).symm.trans h)
      exact .of_some (k := .illegalCommand) rfl rfl

theorem HostTo.errCommon {s t : State} (h : HostTo s t) : ErrCommon s t := by
  cases h with
  | arg r v => cases r <;> exact .of_eq rfl
  | reset | abandon => exact .of_none rfl
  | nothing | read | writeIn | writeOut | peek | provide => exact .of_eq rfl

/-- No step puts a kind that is not common into `ERR`, but a move of the engine that runs a wrong content
checksum. -/
theorem step_err {s t : State} (h : step s = .next t) :
    ErrCommon s t ∨ (t.err = some .checksumMismatch ∧ RunsWrongChecksum s) := by
  cases step_to h with
  | engine hm => exact step_engine_err hm h
  | waits => exact .inl (.of_eq rfl)
  | command v r hr => exact .inl (step_command_errCommon hr h)
  | host a r hr hh => exact .inl hh.errCommon

/-! ### The statements -/

theorem ErrCommon.err_ne {s t : State} {k : ErrKind} (h : ErrCommon s t) (hs : s.err ≠ some k)
    (hk : k.isCommon = false) : t.err ≠ some k := fun ht =>
  (h k ht).elim hs (by simp [hk])

/-- Settles O50: what a step puts into `ERR` is a common kind or `ChecksumMismatch`, and it is neither. -/
theorem outOfMemoryNeverRaised : Obligations.OutOfMemoryNeverRaised := by
  refine ⟨rfl, nofun, fun s t hs h => ?_⟩
  obtain hc | ⟨ht, -⟩ := step_err h
  · exact hc.err_ne hs rfl
  · simp [ht]

/-- Settles O51: it is no common kind, so what put it into `ERR` is the one other cause, a wrong checksum. -/
theorem checksumMismatchCause : Obligations.ChecksumMismatchCause := by
  refine ⟨fun i s t h hs ht => ?_, fun s t h hs ht => ?_⟩
  · obtain hc | ⟨-, hcause⟩ := exec_err h
    · exact absurd ht (hc.err_ne hs rfl)
    · exact hcause
  · obtain hc | ⟨-, hcause⟩ := step_err h
    · exact absurd ht (hc.err_ne hs rfl)
    · exact hcause

end Sys2Proof.Machine
end

section
/-! SUPPORT. Reset: what it does as a step, what it leaves of `OUT`, and that its state meets the invariant
(70_reset_and_hazards.md rules R200, R201). -/

namespace Sys2Proof.Machine

/-! ### The step of a reset -/

theorem step_reset_of_not_busy {s : State} {r : List HostAction} (hb : s.status ≠ .busy) (hr : s.host = .reset :: r) :
    step s = .next (hostReset { s with host := r }) := by
  refine step_of_hostAct hr (by simp) (by simp) ?_
  rw [hostAct, if_neg hb]

theorem step_reset_of_busy {s : State} {r : List HostAction} (hb : s.status = .busy) (hr : s.host = .reset :: r) :
    step s = .next (abandonReset { s with host := r }) := by
  refine step_of_hostAct hr (by simp) (by simp) ?_
  rw [hostAct, if_pos hb]

/-- A command that could be launched is cut short as a running one is (notes/assumptions/10.md). -/
theorem step_abandon {s : State} {v : Nat} {i : Instr} {r : List HostAction} (hb : s.status ≠ .busy)
    (hr : s.host = .abandon v :: r) (hi : decodeCommand (BitVec.ofNat 8 v) = some i)
    (hl : commandRefusal i { s with host := r } = none) : step s = .next (abandonReset { s with host := r }) := by
  refine step_of_hostAct hr (by simp) (by simp) (congrArg Event.out ?_)
  simp only [hostAbandon, if_neg hb, hi, hl]

/-! ### What a reset leaves -/

theorem freeFill_read_of_le (m : Memory) (seed : Nat) {n a : Nat} (ha : n ≤ a) :
    Memory.read (freeFill seed n m) a = Memory.read m a := by
  induction n with
  | zero => rfl
  | succ n ih => exact (Memory_read_write_ne _ (by omega) _).trans (ih (by omega))

theorem abandonReset_read_of_outCap_le (s : State) {a : Nat} (ha : s.outCap ≤ a) :
    Memory.read (abandonReset s).outMem a = Memory.read s.outMem a :=
  freeFill_read_of_le s.outMem s.free ha

theorem Memory_nil_wf : Memory.wf [] := ⟨List.Pairwise.nil, by simp⟩

theorem State_resetWith_memories (p : Params) : MemoriesCanonical (State.resetWith p) :=
  ⟨Memory_nil_wf, Memory_nil_wf, HashTable_nil_wf⟩

theorem State_resetWith_phase (p : Params) : StatusMatchesPhase (State.resetWith p) :=
  ⟨nofun, fun h => absurd rfl h⟩

theorem State_resetWith_inv {p : Params} (hp : p.Admissible) : Inv (State.resetWith p) := by
  obtain ⟨-, hoff, hfit, hc⟩ : Bounded (State.resetWith p) := hostReset_bounded (s := State.resetWith p) hp
  exact ⟨hp, State_resetWith_memories p, State_resetWith_phase p, hoff, hfit, hc⟩

theorem Params_default_admissible : Params.default.Admissible := by decide

/-! ### The statements -/

/-- Settles O9: with no command running the reset is `hostReset`, whose registers are the table's and whose buffers are
the old ones. -/
theorem resetShowsTheTable : Obligations.ResetShowsTheTable := by
  intro s r hb hr
  exact ⟨_, step_reset_of_not_busy hb hr, rfl, rfl, rfl, rfl, rfl, rfl, rfl, rfl, rfl, rfl, rfl, rfl, rfl⟩

/-- Settles O10: both ways of cutting a command short are `abandonReset`, which fills `OUT` below `OUT_CAP` alone. -/
theorem resetDuringCommand : Obligations.ResetDuringCommand := by
  intro s r after
  have hafter : after (abandonReset { s with host := r }) :=
    ⟨rfl, fun a ha => abandonReset_read_of_outCap_le { s with host := r } ha, rfl, rfl, rfl, rfl, rfl, rfl, rfl, rfl,
      rfl, rfl, rfl⟩
  exact ⟨fun hb hr => ⟨_, step_reset_of_busy hb hr, hafter⟩,
    fun v i hb hr hi hl => ⟨_, step_abandon hb hr hi hl, hafter⟩⟩

/-- Settles O11: the default parameters are admissible, and no result is set. -/
theorem resetMeetsInvariant : Obligations.ResetMeetsInvariant :=
  ⟨State_resetWith_inv Params_default_admissible, ⟨fun _ => ⟨rfl, rfl, rfl⟩, nofun, nofun⟩,
    fun _ hp => State_resetWith_inv hp⟩

end Sys2Proof.Machine
end

section
/-! SUPPORT. A running decompress command finishes: each move of the engine ends it or moves `ip` on, and `ip` stays
within the input (70_reset_and_hazards.md rule R210). -/

namespace Sys2Proof.Machine

/-! ### The engine at rest -/

/-- An engine that runs no command, with nothing pending, waits (60_exceptions.md rule R197). -/
theorem step_of_idle {s : State} (hb : s.status ≠ .busy) (hh : s.host = []) : step s = .next s := by
  refine step_of_out ?_
  rw [nextEvent, hh]
  exact if_neg hb

theorem core_run_of_idle {s : State} (hb : s.status ≠ .busy) (hh : s.host = []) (k : Nat) :
    core.run k s = .next s := by
  induction k with
  | zero => rfl
  | succ k ih => exact (core_run_succ (step_of_idle hb hh) k).trans ih

/-! ### One move of a running command -/

/-- The command has ended, normally or by an error. -/
abbrev Finished (t : State) : Prop := t.status = .done ∨ t.status = .error

/-- The command that runs in `s` still runs in `t`, further on in the same input. -/
abbrev RunsOn (s t : State) : Prop := t.status = .busy ∧ t.curLen = s.curLen ∧ s.ip < t.ip

theorem Finished.not_busy {t : State} (h : Finished t) : t.status ≠ .busy := by
  rcases h with h | h <;> simp [h]

theorem HostSideSame.host {s t : State} (h : HostSideSame s t) : t.host = s.host := by
  obtain ⟨-, -, -, -, -, -, -, -, -, -, e, -⟩ := h
  exact e

theorem phaseFormat_ne_none {p : Phase} (hp : p ≠ .none) : phaseFormat p ≠ none := by
  cases p
  case none => exact absurd rfl hp
  all_goals simp [phaseFormat]

/-- No well-formed element is empty, so the command ends at it or moves on. -/
theorem ElementEnd.finished_or_runsOn {i : Instr} {s t : State} (h : ElementEnd i s t) (hwf : i.wf = true)
    (hb : s.status = .busy) : Finished t ∨ RunsOn s t := by
  cases h with
  | goesOn _ hw hstatus _ hip =>
    have hpos := Instr.size_pos hwf
    exact .inr ⟨hstatus.trans hb, hw.curLen, by omega⟩
  | completes => exact .inl (.inl rfl)
  | raises => exact .inl (.inr rfl)

/-- A running command with nothing pending always has a next step, which ends it or moves it on. -/
theorem step_of_running {s : State} (hphase : s.phase ≠ .none) (hb : s.status = .busy) (hh : s.host = []) :
    ∃ t, step s = .next t ∧ t.host = [] ∧ (Finished t ∨ RunsOn s t) := by
  obtain ⟨hp, -⟩ | ⟨f, i, rest, hp, hd, -⟩ | ⟨f, e, hp, hd, -⟩ := engineEvent_cases s
  · exact absurd hp (phaseFormat_ne_none hphase)
  · obtain ⟨rfl, hwf, -⟩ := encodeInvertsDecode f _ i rest hd
    have hi := phaseFormat_isElement hp
    obtain ⟨t, ht⟩ := exec_element_next hi s
    obtain ⟨hrun, -⟩ := stepRunsDecodedInstruction.1 s _ i rest hb hp hd
    exact ⟨t, (hrun hh).trans ht, (exec_element_hostSide hi ht).host.trans hh,
      (exec_element_body hi ht).toEnd.finished_or_runsOn hwf hb⟩
  · obtain ⟨k, u, hu, hw⟩ := badElement_eq_fail e f s
    exact ⟨u.fail k, hu ▸ step_of_badElement ⟨hb, .inl ⟨hh, rfl⟩⟩ hp hd,
      hw.hostSide.host.trans hh, .inl (.inr rfl)⟩

theorem Inv.phase_ne_none {s : State} (h : Inv s) (hb : s.status = .busy) : s.phase ≠ .none := by
  obtain ⟨-, -, hphase, -⟩ := h
  exact hphase.mp hb

theorem Inv.ip_le {s : State} (h : Inv s) (hb : s.status = .busy) : s.ip ≤ s.curLen := by
  obtain ⟨-, -, -, -, -, hc⟩ := h
  obtain ⟨-, hip, -⟩ := hc hb
  exact hip

/-! ### The whole command -/

/-- More steps than there are bytes of input left end the command: the count of bytes left falls with every step that
does not. -/
theorem core_run_finishes (k : Nat) {s : State} (hs : Inv s) (hb : s.status = .busy) (hh : s.host = [])
    (hk : s.curLen - s.ip < k) : ∃ t, core.run k s = .next t ∧ Finished t := by
  induction k generalizing s with
  | zero => exact absurd hk (Nat.not_lt_zero _)
  | succ k ih =>
    obtain ⟨t, hstep, hhost, hfin | ⟨htb, hlen, hip⟩⟩ := step_of_running (hs.phase_ne_none hb) hb hh
    · exact ⟨t, (core_run_succ hstep k).trans (core_run_of_idle hfin.not_busy hhost k), hfin⟩
    · have ht := stepKeepsInvariant s t hs hstep
      have hle := ht.ip_le htb
      obtain ⟨u, hrun, hu⟩ := ih ht htb hhost (by omega)
      exact ⟨u, (core_run_succ hstep k).trans hrun, hu⟩

/-- Settles O52: one step more than there are bytes of input left. -/
theorem commandsFinish : Obligations.CommandsFinish := fun s hs hb hh =>
  core_run_finishes (s.curLen - s.ip + 1) hs hb hh (Nat.lt_succ_self _)

end Sys2Proof.Machine
end
